-- ==== Sys2Proof/Word.lean ====
section
/-! DEFINITION. The widths of 00_scope.md R11: a byte, a 16-bit sample, a 32-bit word. -/

namespace Sys2Proof

/-- A byte: 8 bits, unsigned (R11). -/
abbrev Byte := BitVec 8

/-- A sample: `SAMPLE_BITS` = 16 bits, unsigned (R11). -/
abbrev Sample := BitVec 16

/-- A word: 32 bits, unsigned (R11). -/
abbrev Word := BitVec 32

end Sys2Proof
end

