-- ==== Sys2Proof/Syntax.lean ====
section
/-! DEFINITION. The 19 operations of the LTPNG-CORE operation set, 30_encoding.md R100. -/

namespace Sys2Proof

/-- One constructor per row of the operation map R100. The one operand any operation has is imm8 of CRC.UPD (R91). -/
inductive Instr where
  /-- ENCODE, 0x01: run one whole encode call (R252). -/
  | encode
  /-- CFG.CHK, 0x02: check DEPTH, CMODE, FKIND (R254). -/
  | cfgChk
  /-- CRC.TBL, 0x10: build the 256-entry table (R183). -/
  | crcTbl
  /-- CRC.INIT, 0x11: CRC_ACC <- 0xFFFFFFFF (R185). -/
  | crcInit
  /-- CRC.UPD imm8, 0x12: fold one byte into CRC_ACC (R186). -/
  | crcUpd (imm8 : Byte)
  /-- CRC.FIN, 0x13: CRC_OUT <- CRC_ACC xor 0xFFFFFFFF (R187). -/
  | crcFin
  /-- CRC.BUF, 0x14: checksum of ACCBUF[0 .. ACC_IDX - 1] (R188). -/
  | crcBuf
  /-- SLB.BUILD, 0x20: channel banks to RAW (R132). -/
  | slbBuild
  /-- FLT.NONE, 0x30: RAW to FILT, filter kind 0 (R160). -/
  | fltNone
  /-- FLT.SUB, 0x31: RAW to FILT, filter kind 1 (R161). -/
  | fltSub
  /-- FLT.UP, 0x32: RAW to FILT, filter kind 2 (R162). -/
  | fltUp
  /-- FLT.AVG, 0x33: RAW to FILT, filter kind 3 (R163). -/
  | fltAvg
  /-- FLT.PAETH, 0x34: RAW to FILT, filter kind 4 (R164). -/
  | fltPaeth
  /-- CMP.CALL, 0x40: FILT through the compressor to COMP (R257). -/
  | cmpCall
  /-- ACC.SIZE, 0x50: size and clear ACCBUF (R221). -/
  | accSize
  /-- WR.SIG, 0x51: send the 8-byte signature (R222). -/
  | wrSig
  /-- WR.IHDR, 0x52: send the header chunk (R223). -/
  | wrIhdr
  /-- WR.IDAT, 0x53: send the data chunk (R224). -/
  | wrIdat
  /-- WR.IEND, 0x54: send the trailer chunk (R225). -/
  | wrIend
  deriving DecidableEq, Repr

end Sys2Proof
end

