-- ==== Sys2Proof/WellFormed.lean ====
section
/-! DEFINITION. What makes a term a legal one: an operation (every term is: its one operand is a byte by type, R91), an
operation the host may issue (R102), and a host access of a legal width and offset (20_memory.md R63). -/

namespace Sys2Proof

/-- Every term of `Instr` is a well-formed operation: imm8 is "an unsigned byte 0..255" by its type, and no other
operation has an operand (30_encoding.md R91). -/
def Instr.wellFormed : Instr → Bool
  | .encode | .cfgChk | .crcTbl | .crcInit | .crcFin | .crcBuf | .slbBuild | .fltNone | .fltSub | .fltUp | .fltAvg
  | .fltPaeth | .cmpCall | .accSize | .wrSig | .wrIhdr | .wrIdat | .wrIend => true
  | .crcUpd imm8 => imm8.toNat < 256

/-- R102: "Host-issuable operations: ENCODE, CRC.TBL, CRC.INIT, CRC.UPD, CRC.FIN." The other 14 are sequencer-only. -/
def Instr.hostIssuable : Instr → Bool
  | .encode | .crcTbl | .crcInit | .crcUpd _ | .crcFin => true
  | .cfgChk | .crcBuf | .slbBuild | .fltNone | .fltSub | .fltUp | .fltAvg | .fltPaeth | .cmpCall | .accSize
  | .wrSig | .wrIhdr | .wrIdat | .wrIend => false

/-- R63: "Host register accesses are whole words at offsets that are multiples of 4"; `bytes` is the access's width. -/
def hostAccessWellFormed (off bytes : Nat) : Bool :=
  off % 4 == 0 && bytes == 4

end Sys2Proof
end

