-- ==== Sys2Proof/Decode.lean ====
section
/-! DEFINITION. The command word: the decoder of 30_encoding.md R93 (total on every 32-bit word, rejecting by name), the
encoder of R90 and R91, and the table of match and mask words of `opcode_table.json` that R93 says is equivalent. -/

namespace Sys2Proof

/-- The two formats of R90. -/
inductive Format where
  /-- bits [31:8] must be 0 -/
  | cmd0
  /-- imm8 in bits [15:8]; bits [31:16] must be 0 -/
  | cmd8
  deriving DecidableEq, Repr

/-- Why a word names no operation (R93, R103). -/
inductive Reject where
  /-- step (1): w[31:16] is not 0 -/
  | highBitsNotZero
  /-- step (2): w[7:0] is not in the table of R100 -/
  | reservedOpcode
  /-- step (3): the format is CMD0 and w[15:8] is not 0 -/
  | fieldNotZero
  deriving DecidableEq, Repr

/-- A row of R100: the opcode, the format, and the operation given imm8 (which CMD0 rows do not use). -/
structure OpRow where
  opcode : Byte
  format : Format
  instr : Byte → Instr

/-- The operation map R100, the sequencer's and the Checksum Engine's rows. -/
def opRowsLow : List OpRow :=
  [⟨0x01, .cmd0, fun _ => .encode⟩, ⟨0x02, .cmd0, fun _ => .cfgChk⟩, ⟨0x10, .cmd0, fun _ => .crcTbl⟩,
   ⟨0x11, .cmd0, fun _ => .crcInit⟩, ⟨0x12, .cmd8, fun imm8 => .crcUpd imm8⟩, ⟨0x13, .cmd0, fun _ => .crcFin⟩,
   ⟨0x14, .cmd0, fun _ => .crcBuf⟩]

/-- The operation map R100, the other units' rows. -/
def opRowsHigh : List OpRow :=
  [⟨0x20, .cmd0, fun _ => .slbBuild⟩, ⟨0x30, .cmd0, fun _ => .fltNone⟩, ⟨0x31, .cmd0, fun _ => .fltSub⟩,
   ⟨0x32, .cmd0, fun _ => .fltUp⟩, ⟨0x33, .cmd0, fun _ => .fltAvg⟩, ⟨0x34, .cmd0, fun _ => .fltPaeth⟩,
   ⟨0x40, .cmd0, fun _ => .cmpCall⟩, ⟨0x50, .cmd0, fun _ => .accSize⟩, ⟨0x51, .cmd0, fun _ => .wrSig⟩,
   ⟨0x52, .cmd0, fun _ => .wrIhdr⟩, ⟨0x53, .cmd0, fun _ => .wrIdat⟩, ⟨0x54, .cmd0, fun _ => .wrIend⟩]

/-- The operation map R100: 19 rows. -/
def opRows : List OpRow := opRowsLow ++ opRowsHigh

/-- The decoder, R93, in its four numbered steps. -/
def decode (w : Word) : Except Reject Instr :=
  if w.extractLsb' 16 16 ≠ 0 then .error .highBitsNotZero
  else
    match opRows.find? (fun row => row.opcode == w.extractLsb' 0 8) with
    | none => .error .reservedOpcode
    | some row =>
      match row.format with
      | .cmd8 => .ok (row.instr (w.extractLsb' 8 8))
      | .cmd0 => if w.extractLsb' 8 8 ≠ 0 then .error .fieldNotZero else .ok (row.instr 0)

/-- The opcode of an operation, R100. -/
def Instr.opcode : Instr → Byte
  | .encode => 0x01
  | .cfgChk => 0x02
  | .crcTbl => 0x10
  | .crcInit => 0x11
  | .crcUpd _ => 0x12
  | .crcFin => 0x13
  | .crcBuf => 0x14
  | .slbBuild => 0x20
  | .fltNone => 0x30
  | .fltSub => 0x31
  | .fltUp => 0x32
  | .fltAvg => 0x33
  | .fltPaeth => 0x34
  | .cmpCall => 0x40
  | .accSize => 0x50
  | .wrSig => 0x51
  | .wrIhdr => 0x52
  | .wrIdat => 0x53
  | .wrIend => 0x54

/-- The format of an operation, R90: "CMD8 ... used by CRC.UPD", "CMD0 ... every operation but CRC.UPD". -/
def Instr.format : Instr → Format
  | .crcUpd _ => .cmd8
  | .encode | .cfgChk | .crcTbl | .crcInit | .crcFin | .crcBuf | .slbBuild | .fltNone | .fltSub | .fltUp | .fltAvg
  | .fltPaeth | .cmpCall | .accSize | .wrSig | .wrIhdr | .wrIdat | .wrIend => .cmd0

/-- Bits [15:8] of an operation's word: imm8 for CRC.UPD (R91), 0 for the rest. -/
def Instr.field : Instr → Byte
  | .crcUpd imm8 => imm8
  | .encode | .cfgChk | .crcTbl | .crcInit | .crcFin | .crcBuf | .slbBuild | .fltNone | .fltSub | .fltUp | .fltAvg
  | .fltPaeth | .cmpCall | .accSize | .wrSig | .wrIhdr | .wrIdat | .wrIend => 0

/-- The encoder: the command word of an operation, R90: bits [31:16] are 0, then bits [15:8], then the opcode. -/
def encode (i : Instr) : Word :=
  (0#16 ++ i.field) ++ i.opcode

/-- `match` of the operation's row in `opcode_table.json`, as one number. -/
def Instr.tableMatch (i : Instr) : Word := i.opcode.setWidth 32

/-- `mask` of the operation's row in `opcode_table.json`: 0xFFFF00FF for CMD8, 0xFFFFFFFF for CMD0. -/
def Instr.tableMask (i : Instr) : Word :=
  match i.format with
  | .cmd8 => 0xFFFF00FF
  | .cmd0 => 0xFFFFFFFF

/-- The instruction the decoder reads from an instruction whose bits are `w`, numbered as `opcode_table.json` numbers
them. A command word is one 32-bit word taken whole (R90, 20_memory.md R62, R78), so no byte order enters. A number that
does not fit in 32 bits is no command word. -/
def decodeTableWord (nbits w : Nat) : Option Instr :=
  let bits := w % 2 ^ nbits
  if bits < 2 ^ 32 then
    match decode (BitVec.ofNat 32 bits) with
    | .ok i => some i
    | .error _ => none
  else none

end Sys2Proof
end

