-- ==== Sys2Proof/Machine/State.lean ====
section
/-! DEFINITION. The state of the block as plain data (10_state.md), the reasons a step can stop, and the state after reset
(10_state.md R50). -/

namespace Sys2Proof.Machine

/-- A memory space of `w`-bit cells: (index, cell) pairs, indices strictly rising, an unlisted index holding no value.
A byte space is a list of `Host.Cell`. -/
abbrev Memory (w : Nat) := List (Nat × BitVec w)

/-- The sequencer phase, R30; the codes are in `Phase.code`. -/
inductive Phase where
  | idle | config | build | filter | compress | write | done | failed
  deriving DecidableEq, Repr

/-- The writer state, R31; "codes 5 to 7 never occur". -/
inductive WState where
  | start | signatureWritten | headerWritten | dataWritten | trailerWritten
  deriving DecidableEq, Repr

/-- The error kinds of 60_exceptions.md R281. -/
inductive ErrKind where
  | configuration | compression | internalInvariant | io | command
  deriving DecidableEq, Repr

/-- The error causes of 60_exceptions.md R281. -/
inductive Cause where
  | badDepth | badChannelMode | badFilterKind
  | compNoMemory | compInvalidParams | compVersionMismatch | compInsufficientOutput
  | accumulatorOverflow
  | sinkRejected
  | reservedCommand | notHostIssuable
  deriving DecidableEq, Repr

/-- One answer of the sink (20_memory.md R70), or none ever (93 U9). -/
inductive SinkAnswer where
  /-- the byte is appended to SINK -/
  | accept
  /-- the byte is not appended; the operation raises IOError -/
  | reject
  /-- the sink never answers: the run has no next step -/
  | silent
  deriving DecidableEq, Repr

/-- The four failures of the compressor (45 R258). -/
inductive CompFailure where
  | noMemory | invalidParams | versionMismatch | insufficientOutput
  deriving DecidableEq, Repr

/-- One answer of the compressor (45 R258), or none ever (93 U9). -/
inductive CompAnswer where
  /-- success with the output bytes -/
  | ok (z : List Byte)
  /-- failure with a cause -/
  | fail (f : CompFailure)
  /-- the compressor never answers: the run has no next step -/
  | silent
  deriving DecidableEq, Repr

/-- The environment's coming answers as plain data: those listed first, then the same one for ever. Every finite run of
answers is such a list; logs 4 and 5. -/
structure Draws (α : Type) where
  script : List α
  thereafter : α
  deriving DecidableEq, Repr

/-- The part of the Image Descriptor that the capacities depend on (00_scope.md R8). -/
structure Descriptor where
  width : Word
  height : Word
  depth : Byte
  cmode : Byte
  deriving DecidableEq, Repr

/-- An open capacity parameter as a function of the descriptor, held as plain data: the listed descriptors, and one value
for every other; log 7. -/
structure CapTable where
  listed : List (Descriptor × Word)
  otherwise : Word
  deriving DecidableEq, Repr

/-- One call of the compressor as it sees it (45 R258): input, capacity, level. -/
structure CompCall where
  input : List Byte
  cap : Word
  level : Word
  deriving DecidableEq, Repr

/-- One action of the host (10_state.md R20, R23, R44; the lines of 30_encoding.md R105). -/
inductive HostAction where
  /-- a write of `v` to the register at byte offset `off`, `bytes` wide -/
  | write (off bytes : Nat) (v : Word)
  /-- a read of the register at byte offset `off`, `bytes` wide -/
  | read (off bytes : Nat)
  /-- a write of one cell of a channel bank through the channel port -/
  | storeCell (k : Fin 4) (i : Word) (v : Sample)
  /-- a read of one cell of a channel bank through the channel port -/
  | loadCell (k : Fin 4) (i : Word)
  deriving DecidableEq, Repr

/-- Why the machine stops with a fault. Each is safe: it stops where a claim would otherwise need a value the spec denies. -/
inductive Fault where
  /-- A channel cell that holds no value is read, by SLB.BUILD (93 U5, 70 R326) or through the channel port. Safe. -/
  | unwrittenChannelCell
  /-- A cell of RAW, FILT, COMP or ACCBUF that holds no value is read (10 R47; 70 R327: "an error of the model, visible as
  a read of an unwritten cell"): by FLT.*, CMP.CALL, WR.IDAT, CRC.BUF run where no earlier step of the same ENCODE wrote it.
  Never inside an ENCODE. Safe. -/
  | unwrittenBufferCell
  /-- ACC_IDX, ACC_CAP or COMP_LEN is read outside the ENCODE in which it exists (10 R35: "They exist only during one
  ENCODE"), where it holds no value (R47, 92 D32; R50 gives that as its value after reset). 70 R327: "a model gives these no
  value between ENCODEs ..., which makes any such dependence an error of the model, visible as a read of an unwritten cell".
  By CRC.BUF, the mirroring of WR.IHDR, WR.IDAT, WR.IEND, and WR.IDAT. Never inside an ENCODE. Safe. -/
  | releasedRegister
  /-- SLB.BUILD reads a channel bank above CH[3]: no such bank (10 R36). Only for a CMODE that CFG.CHK refuses. Safe. -/
  | noSuchChannelBank
  /-- CMP.CALL: the compressor never answers (93 U9 "stuck"; 70 R336). Safe. -/
  | compressorNeverAnswers
  /-- WR.*: the sink never answers (93 U9 "stuck"; 70 R336). Safe. -/
  | sinkNeverAnswers
  deriving DecidableEq, Repr

/-- Why the model gives no meaning. -/
inductive Refusal where
  /-- an instruction that has no meaning yet, by its mnemonic; raised by `exec`'s arms only. Safe. -/
  | notModelled (mnemonic : String)
  /-- ENCODE: the descriptor passes CFG.CHK and is not admitted (00 R10, 45 R253, 93 U1, U2 "refuse"). Safe. -/
  | descriptorNotAdmitted
  /-- a host access of another width, or at an offset that is no multiple of 4 (20 R63, 93 U7 "refuse"). Safe. -/
  | hostAccess
  /-- CMP.CALL: the compressor answers with more bytes than its capacity (93 U8 "refuse"). Safe. -/
  | compressorOverran
  /-- the word at the sequencer's issue port names no operation; the fixed sequence holds no such word (30 R107). Safe. -/
  | notASequencerWord
  deriving DecidableEq, Repr

/-- The state of the block. -/
structure State where
  /-- STATUS.DONE (R25, R32) -/
  done : Bool
  /-- STATUS.ERR (R25, R32) -/
  err : Bool
  /-- STATUS.TBL_VALID (R25, R32, R45) -/
  tblValid : Bool
  /-- STATUS.PHASE (R30) -/
  phase : Phase
  /-- STATUS.WSTATE (R31) -/
  wstate : WState
  /-- ERR (R26) -/
  errReg : Word
  /-- WIDTH (R27) -/
  width : Word
  /-- HEIGHT (R27) -/
  height : Word
  /-- DEPTH (R28) -/
  depth : Byte
  /-- CMODE (R28) -/
  cmode : Byte
  /-- FKIND (R28) -/
  fkind : Byte
  /-- LEVEL (R29) -/
  level : Word
  /-- CRC_ACC (R33) -/
  crcAcc : Word
  /-- CRC_OUT (R34) -/
  crcOut : Word
  /-- TBL (R41) -/
  tbl : Vector Word 256
  /-- CH[0..3] (R36) -/
  ch : Vector (Memory 16) 4
  /-- RAW (R37) -/
  raw : Memory 8
  /-- FILT (R38) -/
  filt : Memory 8
  /-- COMP (R39) -/
  comp : Memory 8
  /-- ACCBUF (R40) -/
  accbuf : Memory 8
  /-- ACC_IDX, or no value (R35, R47) -/
  accIdx : Option Word
  /-- ACC_CAP, or no value (R35, R47) -/
  accCap : Option Word
  /-- COMP_CAP, or no value (R35, R47) -/
  compCap : Option Word
  /-- COMP_LEN, or no value (R35, R47) -/
  compLen : Option Word
  /-- SINK (R42) -/
  sink : List Byte
  /-- the model's own: the bytes offered to the sink, accepted or not (R21); log 13 -/
  offered : List Byte
  /-- the model's own: the calls made to the compressor (R21); log 13 -/
  compCalls : List CompCall
  /-- the model's own: the sink's coming answers; log 4 -/
  sinkDraws : Draws SinkAnswer
  /-- the model's own: the compressor's coming answers; log 5 -/
  compDraws : Draws CompAnswer
  /-- the model's own: the open parameter ACC_CAP (R49); log 7 -/
  accCaps : CapTable
  /-- the model's own: the open parameter COMP_CAP (R49); log 7 -/
  compCaps : CapTable
  /-- the model's own: the host's coming actions; log 8 -/
  bus : List HostAction
  /-- the model's own: the value the host's last read returned; log 12 -/
  hostRead : Word
  /-- the model's own: a command word at the sequencer's issue port; log 9 -/
  seqSlot : Option Word
  deriving DecidableEq, Repr

/-- The state after reset, R50 and R320. TBL's cells are "unspecified" there: 0 is a DESIGN CHOICE, log 1. The model's own
fields are DESIGN CHOICES too: logs 4, 5, 7, 8, 9, 12, 13. -/
def State.reset : State where
  done := false
  err := false
  tblValid := false
  phase := .idle
  wstate := .start
  errReg := 0
  width := 0
  height := 0
  depth := 0
  cmode := 0
  fkind := 0
  level := 0
  crcAcc := 0xFFFFFFFF
  crcOut := 0
  tbl := Vector.replicate 256 0
  ch := Vector.replicate 4 []
  raw := []
  filt := []
  comp := []
  accbuf := []
  accIdx := none
  accCap := none
  compCap := none
  compLen := none
  sink := []
  offered := []
  compCalls := []
  sinkDraws := ⟨[], .accept⟩
  compDraws := ⟨[], .ok []⟩
  accCaps := ⟨[], 0⟩
  compCaps := ⟨[], 0⟩
  bus := []
  hostRead := 0
  seqSlot := none

end Sys2Proof.Machine
end

