-- ==== Sys2Proof/Machine/Flags.lean ====
section
/-! DEFINITION. The numeric codes of 10_state.md R30, R31 and 60_exceptions.md R281, and the words STATUS (R25) and ERR
(R26) built from them. -/

namespace Sys2Proof.Machine

/-- The code of a phase, R30. -/
def Phase.code : Phase → BitVec 3
  | .idle => 0
  | .config => 1
  | .build => 2
  | .filter => 3
  | .compress => 4
  | .write => 5
  | .done => 6
  | .failed => 7

/-- The code of a writer state, R31. -/
def WState.code : WState → BitVec 3
  | .start => 0
  | .signatureWritten => 1
  | .headerWritten => 2
  | .dataWritten => 3
  | .trailerWritten => 4

/-- The code KIND of an error kind, R281. -/
def ErrKind.code : ErrKind → BitVec 3
  | .configuration => 1
  | .compression => 2
  | .internalInvariant => 3
  | .io => 4
  | .command => 5

/-- The kind a cause belongs to, R281. -/
def Cause.kind : Cause → ErrKind
  | .badDepth | .badChannelMode | .badFilterKind => .configuration
  | .compNoMemory | .compInvalidParams | .compVersionMismatch | .compInsufficientOutput => .compression
  | .accumulatorOverflow => .internalInvariant
  | .sinkRejected => .io
  | .reservedCommand | .notHostIssuable => .command

/-- The code CAUSE of a cause, R281. -/
def Cause.code : Cause → Byte
  | .badDepth => 0x01
  | .badChannelMode => 0x02
  | .badFilterKind => 0x03
  | .compNoMemory => 0x11
  | .compInvalidParams => 0x12
  | .compVersionMismatch => 0x13
  | .compInsufficientOutput => 0x14
  | .accumulatorOverflow => 0x21
  | .sinkRejected => 0x31
  | .reservedCommand => 0x41
  | .notHostIssuable => 0x42

/-- The cause CMP.CALL raises for a failure of the compressor, R257. -/
def CompFailure.cause : CompFailure → Cause
  | .noMemory => .compNoMemory
  | .invalidParams => .compInvalidParams
  | .versionMismatch => .compVersionMismatch
  | .insufficientOutput => .compInsufficientOutput

/-- The word of ERR, R26: WST in [18:16], CAUSE in [15:8], STAGE in [6:4], KIND in [2:0]; bits 3, 7 and [31:19] are 0. -/
def errWord (kind : BitVec 3) (stage : BitVec 3) (cause : Byte) (wst : BitVec 3) : Word :=
  0#13 ++ wst ++ cause ++ 0#1 ++ stage ++ 0#1 ++ kind

/-- The word of STATUS, R25: WSTATE in [10:8], PHASE in [6:4], TBL_VALID, ERR, DONE in [2], [1], [0]; the rest 0. -/
def State.statusWord (s : State) : Word :=
  0#21 ++ s.wstate.code ++ 0#1 ++ s.phase.code ++ 0#1 ++ BitVec.ofBool s.tblValid ++ BitVec.ofBool s.err
    ++ BitVec.ofBool s.done

end Sys2Proof.Machine
end

