-- ==== Sys2Proof/Config.lean ====
section
/-! DEFINITION. The constants of 00_scope.md R8 and 30_encoding.md R117, and the free values of the model. The open
parameters ACC_CAP, COMP_CAP, the oracle Compress and the draw SinkAccept stand in State as plain data (logs 4, 5, 7). -/

namespace Sys2Proof.Config

/-- SIG, the eight signature bytes (R8, R117). PRESUMED by the spec from the PNG format (93 K1), unsafe: log 14. -/
def sig : List Byte := [0x89, 0x50, 0x4E, 0x47, 0x0D, 0x0A, 0x1A, 0x0A]

/-- TAG_IHDR (R117). PRESUMED by the spec (93 K2), unsafe: log 14. -/
def tagIhdr : List Byte := [0x49, 0x48, 0x44, 0x52]

/-- TAG_IDAT (R117). PRESUMED by the spec (93 K2), unsafe: log 14. -/
def tagIdat : List Byte := [0x49, 0x44, 0x41, 0x54]

/-- TAG_IEND (R117); its checksum is the source's 0xAE426082 (43_checksum_engine.md R191). -/
def tagIend : List Byte := [0x49, 0x45, 0x4E, 0x44]

/-- CMODE_RGB (R8, R118). PRESUMED by the spec (93 K3), unsafe: log 14. -/
def cmodeRgb : Byte := 2

/-- CMODE_RGBA (R8, R118). PRESUMED by the spec (93 K3), unsafe: log 14. -/
def cmodeRgba : Byte := 6

/-- The CRC polynomial in reflected form (R8). -/
def crcPoly : Word := 0xEDB88320

/-- The accumulator's initial value and the final XOR (R8). -/
def crcOnes : Word := 0xFFFFFFFF

/-- FREE VALUE: the number of channels for a CMODE that is neither code (R9 defines NCH for the two codes only).
ENCODE never uses it, CFG.CHK having refused such a CMODE. DESIGN CHOICE, safe: log 11. -/
opaque channelsOfOtherMode : Byte → Nat

/-- FREE VALUE: the bytes per sample for a DEPTH that is neither 8 nor 16 (R9 defines BPS for the two only).
DESIGN CHOICE, safe: log 11. -/
opaque bytesPerSampleOfOtherDepth : Byte → Nat

/-- FREE VALUE: byte `i` of a sample serialised at a DEPTH that is neither 8 nor 16. DESIGN CHOICE, safe: log 11. -/
opaque sampleByteOfOtherDepth : Byte → Sample → Nat → Byte

end Sys2Proof.Config
end

