-- ==== Sys2Proof/Machine/Operands.lean ====
section
/-! DEFINITION. What the operations take as operands: the derived quantities of the descriptor (00_scope.md R9), the
admission test (45 R253), the capacity parameters (00 R8), the effective indices (20_memory.md R74), byte serialisation
(00 R14) and the immediate (30 R91). -/

namespace Sys2Proof.Machine

/-- NCH (R9): 3 if CMODE is RGB, 4 if CMODE is RGBA; for another code a free value (log 11). -/
def State.nch (s : State) : Nat :=
  if s.cmode = Config.cmodeRgb then 3
  else if s.cmode = Config.cmodeRgba then 4
  else Config.channelsOfOtherMode s.cmode

/-- BPS (R9): 1 if DEPTH = 8, 2 if DEPTH = 16; for another depth a free value (log 11). -/
def State.bps (s : State) : Nat :=
  if s.depth = 8 then 1
  else if s.depth = 16 then 2
  else Config.bytesPerSampleOfOtherDepth s.depth

/-- PSTRIDE = NCH × BPS (R9). -/
def State.pstride (s : State) : Nat := s.nch * s.bps

/-- STRIDE = WIDTH × PSTRIDE + 1 (R9), in the naturals. -/
def State.stride (s : State) : Nat := s.width.toNat * s.pstride + 1

/-- F = HEIGHT × STRIDE (R9), in the naturals. -/
def State.frameSize (s : State) : Nat := s.stride * s.height.toNat

/-- `Admitted(WIDTH, HEIGHT, DEPTH, CMODE)` of R253: WIDTH ≥ 1, HEIGHT ≥ 1, F + 5 < 2^32. -/
def State.admitted (s : State) : Bool :=
  decide (1 ≤ s.width.toNat) && (decide (1 ≤ s.height.toNat) && decide (s.frameSize + 5 < 2 ^ 32))

/-- The descriptor, as the capacity parameters take it (R8). -/
def State.descriptor (s : State) : Descriptor := ⟨s.width, s.height, s.depth, s.cmode⟩

/-- The entry a table gives a descriptor: the first listed one, else the common one. -/
def CapTable.lookup (t : CapTable) (d : Descriptor) : Word :=
  match t.listed.find? (fun e => e.1 == d) with
  | some e => e.2
  | none => t.otherwise

/-- An open parameter held to its lower bound on admitted descriptors (R8: "constraint"). On the others R8 states no
constraint and the entry stands as it is. -/
def capAtLeast (s : State) (bound : Nat) (v : Word) : Word :=
  if s.admitted && decide (v.toNat < bound) then BitVec.ofNat 32 bound else v

/-- `AccCapParam` (R221): the open parameter ACC_CAP, at least F + 5 (R8). -/
def State.accCapParam (s : State) : Word :=
  capAtLeast s (s.frameSize + 5) (s.accCaps.lookup s.descriptor)

/-- `CompCapParam` (R257): the open parameter COMP_CAP, at least F (R8). -/
def State.compCapParam (s : State) : Word :=
  capAtLeast s s.frameSize (s.compCaps.lookup s.descriptor)

/-- The index of position `j` of row `r` in RAW and in FILT (R15, R74). -/
def State.rowIndex (s : State) (r j : Nat) : Nat := r * s.stride + j

/-- The index of the pixel in row `r`, column `c` in a channel bank (R15, R74). -/
def State.sampleIndex (s : State) (r c : Nat) : Nat := r * s.width.toNat + c

/-- The position in its row of byte `i` of the sample of channel `k` in column `c` (R74): 1 + c × PSTRIDE + k at depth 8,
1 + c × PSTRIDE + 2k + i at depth 16. -/
def State.samplePosition (s : State) (c k i : Nat) : Nat := 1 + c * s.pstride + k * s.bps + i

/-- Byte `i` of a sample as SLB.BUILD serialises it (R132): s[7:0] at depth 8; s[15:8] then s[7:0] at depth 16 (BE16,
R14); a free value at another depth (log 11). -/
def sampleByte (depth : Byte) (v : Sample) (i : Nat) : Byte :=
  if depth = 8 then v.extractLsb' 0 8
  else if depth = 16 then (if i = 0 then v.extractLsb' 8 8 else v.extractLsb' 0 8)
  else Config.sampleByteOfOtherDepth depth v i

/-- `BE32(v)` (R14): most significant byte first. -/
def be32 (v : Word) : List Byte :=
  [v.extractLsb' 24 8, v.extractLsb' 16 8, v.extractLsb' 8 8, v.extractLsb' 0 8]

/-- `zext_32` of a byte (R11, R91). -/
def zext32 (b : Byte) : Word := b.setWidth 32

end Sys2Proof.Machine
end

