-- ==== Sys2Proof/Machine/Ops.lean ====
section
/-! DEFINITION. The named operations the meanings are built from: cells of a memory space, draws of the environment, the
host registers, releasing the buffers, error entry (60_exceptions.md R290) and CommandError (R287), `SinkWrite`
(20_memory.md R70), `Mirror` and the `Put` forms (44 R212 to R217). -/

namespace Sys2Proof.Machine

/-- Why an operation does not end normally (60 R295: "each operation of the sequence returns either the new state or
`Error(kind, cause)`"): it raised an error, and the state is the one after error entry; or the run faults or is refused. -/
inductive Stop where
  | raised (s : State)
  | fault (f : Fault)
  | refused (r : Refusal)
  deriving DecidableEq, Repr

/-- The result of an operation or of a part of one. -/
abbrev Res (α : Type) := Except Stop α

/-- An operation as one step of the machine: an error raised is a next state, the one after error entry. -/
def outcome : Res State → Host.Outcome State Fault Refusal
  | .ok s => .next s
  | .error (.raised s) => .next s
  | .error (.fault f) => .fault f
  | .error (.refused r) => .refused r

/-- `for i in 0 .. n-1` (00 R13), the body acting on an accumulated value. -/
def loop {α : Type} : Nat → (Nat → α → Res α) → α → Res α
  | 0, _, a => .ok a
  | n + 1, body, a => (loop n body a).bind (body n)

/-- The cell at an index, if it holds a value. -/
def Memory.read {w : Nat} : Memory w → Nat → Option (BitVec w)
  | [], _ => none
  | (k, v) :: m, a => if a = k then some v else Memory.read m a

/-- Writes one cell, keeping the indices strictly rising. -/
def Memory.write {w : Nat} : Memory w → Nat → BitVec w → Memory w
  | [], a, b => [(a, b)]
  | (k, v) :: m, a, b =>
    if a < k then (a, b) :: (k, v) :: m
    else if a = k then (a, b) :: m
    else (k, v) :: Memory.write m a b

/-- Writes consecutive cells from an index on (`MemWrite(S[i], n, v)`, 00 R13). -/
def Memory.writeSeq {w : Nat} : Memory w → Nat → List (BitVec w) → Memory w
  | m, _, [] => m
  | m, a, b :: bs => Memory.writeSeq (Memory.write m a b) (a + 1) bs

/-- All indices of a memory are at or above a bound and strictly rising. -/
def Memory.risingFrom {w : Nat} : Nat → Memory w → Bool
  | _, [] => true
  | lo, (k, _) :: m => decide (lo ≤ k) && Memory.risingFrom (k + 1) m

/-- The canonical form of a memory: indices strictly rising. An unlisted index holds no value, so no entry can equal what
an unlisted index reads as. -/
def Memory.wf {w : Nat} (m : Memory w) : Bool := Memory.risingFrom 0 m

/-- Reads one cell of RAW, FILT, COMP or ACCBUF (`MemRead`, 00 R13); a cell that holds no value faults (70 R327). -/
def readCell (m : Memory 8) (a : Nat) : Res Byte :=
  match m.read a with
  | some b => .ok b
  | none => .error (.fault .unwrittenBufferCell)

/-- Reads `n` consecutive cells from an index on (`MemRead(S[i], n)`, 00 R13). -/
def readCells (m : Memory 8) : Nat → Nat → Res (List Byte)
  | _, 0 => .ok []
  | a, n + 1 => (readCell m a).bind fun b => (readCells m (a + 1) n).bind fun bs => .ok (b :: bs)

/-- Reads ACC_IDX, ACC_CAP or COMP_LEN. They "exist only during one ENCODE" (10 R35) and hold no value outside it (R47, R50,
92 D32); 70 R327: "a model gives these no value between ENCODEs ..., which makes any such dependence an error of the model,
visible as a read of an unwritten cell". So such a read faults, as the spec says; the fault's name is log 2. -/
def readReg (v : Option Word) : Res Word :=
  match v with
  | some w => .ok w
  | none => .error (.fault .releasedRegister)

/-- Reads one cell of channel bank `k` in SLB.BUILD; a cell the host has not written faults (93 U5). -/
def readChannel (s : State) (k i : Nat) : Res Sample :=
  if h : k < 4 then
    match (s.ch[k]).read i with
    | some v => .ok v
    | none => .error (.fault .unwrittenChannelCell)
  else .error (.fault .noSuchChannelBank)

/-- The next answer. -/
def Draws.head {α : Type} (d : Draws α) : α := d.script.headD d.thereafter

/-- The answers after the next one. -/
def Draws.rest {α : Type} (d : Draws α) : Draws α := ⟨d.script.tail, d.thereafter⟩

/-- The answers after the next `n`. -/
def Draws.drop {α : Type} (d : Draws α) (n : Nat) : Draws α := ⟨d.script.drop n, d.thereafter⟩

/-- Answer number `n`, counted from 0. -/
def Draws.answer {α : Type} (d : Draws α) (n : Nat) : α := d.script.getD n d.thereafter

/-- The buffers and working registers of one ENCODE hold no value (10 R47): the state of them before an ENCODE, and after
"released unconditionally when the call ends, including on error paths". -/
def release (s : State) : State :=
  { s with
    raw := [], filt := [], comp := [], accbuf := []
    accIdx := none, accCap := none, compCap := none, compLen := none }

/-- TAKING AN ERROR during ENCODE, `ErrorEntry(K, cause)` of R290, one indivisible step: ERR saves the kind, the phase, the
cause and the writer state; STATUS.ERR is set; PHASE becomes Failed; the buffers are released. -/
def errorEntry (c : Cause) (s : State) : State :=
  release
    { s with
      errReg := errWord c.kind.code s.phase.code c.code s.wstate.code
      err := true
      phase := .failed }

/-- `raise` (00 R13): error entry, and nothing after it runs. -/
def raise {α : Type} (c : Cause) (s : State) : Res α := .error (.raised (errorEntry c s))

/-- `CommandError(cause)` of R287: STATUS.ERR and ERR, with STAGE 0 and WST 0, and nothing else. -/
def commandError (c : Cause) (s : State) : State :=
  { s with err := true, errReg := errWord c.kind.code 0 c.code 0 }

/-- THE WAY ON after an error (R294): there is no return operation; a CMD write clears STATUS.ERR and ERR before anything
else (10 R24 step 1), and PHASE = Failed accepts any command as Idle does. -/
def clearError (s : State) : State := { s with err := false, errReg := 0 }

/-- A host write to a register other than CMD (10 R23): six are writable, DEPTH, CMODE, FKIND in bits [7:0] only; a write
to any other offset is ignored. -/
def writeReg (off : Nat) (v : Word) (s : State) : State :=
  match off with
  | 0x0C => { s with width := v }
  | 0x10 => { s with height := v }
  | 0x14 => { s with depth := v.extractLsb' 0 8 }
  | 0x18 => { s with cmode := v.extractLsb' 0 8 }
  | 0x1C => { s with fkind := v.extractLsb' 0 8 }
  | 0x20 => { s with level := v }
  | _ => s

/-- The value a host read returns (10 R23): CMD and the reserved offsets read 0. -/
def readHostReg (off : Nat) (s : State) : Word :=
  match off with
  | 0x04 => s.statusWord
  | 0x08 => s.errReg
  | 0x0C => s.width
  | 0x10 => s.height
  | 0x14 => zext32 s.depth
  | 0x18 => zext32 s.cmode
  | 0x1C => zext32 s.fkind
  | 0x20 => s.level
  | 0x24 => s.crcAcc
  | 0x28 => s.crcOut
  | _ => 0

/-- `SinkWrite(b)` of 20_memory.md R70: on accept the byte is appended to SINK; on reject SINK is unchanged and
IOError(SinkRejected) is raised; a sink that never answers leaves no next step (93 U9). -/
def sinkWrite (b : Byte) (s : State) : Res State :=
  let offeredOnce := { s with sinkDraws := s.sinkDraws.rest, offered := s.offered ++ [b] }
  match s.sinkDraws.head with
  | .accept => .ok { offeredOnce with sink := s.sink ++ [b] }
  | .reject => raise .sinkRejected offeredOnce
  | .silent => .error (.fault .sinkNeverAnswers)

/-- `AccReset` of R212: ACC_IDX <- 0; the bytes in ACCBUF are not cleared. -/
def accReset (s : State) : State := { s with accIdx := some 0 }

/-- `Mirror(b)` of R214: the capacity check comes before the store. -/
def mirror (b : Byte) (s : State) : Res State :=
  (readReg s.accIdx).bind fun idx =>
  (readReg s.accCap).bind fun cap =>
  if cap.toNat ≤ idx.toNat then raise .accumulatorOverflow s
  else .ok { s with accbuf := s.accbuf.write idx.toNat b, accIdx := some (idx + 1) }

/-- `PutRaw(b)` of R215: the sink only. -/
def putRaw (b : Byte) (s : State) : Res State := sinkWrite b s

/-- `PutMir(b)` of R216: `SinkWrite(b); Mirror(b)` in that order. -/
def putMir (b : Byte) (s : State) : Res State := (sinkWrite b s).bind (mirror b)

/-- `PutRawSeq(s)` of R217: in index order; an error at a byte ends the operation at that byte. -/
def putRawSeq : List Byte → State → Res State
  | [], s => .ok s
  | b :: bs, s => (putRaw b s).bind (putRawSeq bs)

/-- `PutMirSeq(s)` of R217. -/
def putMirSeq : List Byte → State → Res State
  | [], s => .ok s
  | b :: bs, s => (putMir b s).bind (putMirSeq bs)

/-- `PutRaw32(v)` of R217: the four bytes of `BE32(v)`. -/
def putRaw32 (v : Word) (s : State) : Res State := putRawSeq (be32 v) s

end Sys2Proof.Machine
end

