-- ==== Sys2Proof/Machine/Filter.lean ====
section
/-! DEFINITION. The Filter Engine, 42_filter_engine.md: the predictors R153, R155, R158, the shared body `Filter(kind)` of
R156, and FLT.NONE, FLT.SUB, FLT.UP, FLT.AVG, FLT.PAETH. -/

namespace Sys2Proof.Machine

/-- The five filter kinds, R153. -/
inductive FilterKind where
  | none | sub | up | average | paeth
  deriving DecidableEq, Repr

/-- The kind a value of FKIND names, R118; values 5 to 255 name none (R104). -/
def FilterKind.ofCode (v : Byte) : Option FilterKind :=
  match v.toNat with
  | 0 => some .none
  | 1 => some .sub
  | 2 => some .up
  | 3 => some .average
  | 4 => some .paeth
  | _ => Option.none

/-- The Paeth predictor, R158, in the integers; ties go to `a`, then `b`, then `c_`. -/
def paeth (a b c_ : Byte) : Byte :=
  let p : Int := a.toNat + b.toNat - c_.toNat
  let pa := (p - a.toNat).natAbs
  let pb := (p - b.toNat).natAbs
  let pc := (p - c_.toNat).natAbs
  if pa ≤ pb ∧ pa ≤ pc then a
  else if pb ≤ pc then b
  else c_

/-- `Pred(kind, a, b, c_)` of R153; the sum of Average is exact (R155). -/
def predictor (kind : FilterKind) (a b c_ : Byte) : Byte :=
  match kind with
  | .none => 0
  | .sub => a
  | .up => b
  | .average => BitVec.ofNat 8 ((a.toNat + b.toNat) / 2)
  | .paeth => paeth a b c_

/-- A neighbour: the raw byte at an index where it exists, else the constant 0 and no access (R152, R74). -/
def neighbour (s : State) (there : Bool) (i : Nat) : Res Byte :=
  if there then readCell s.raw i else .ok 0

/-- One filtered byte, `FiltByte(kind, r, j)` of R154 with the inputs of R152; the subtraction of bytes is modulo 256. -/
def filterByte (kind : FilterKind) (s : State) (r j : Nat) : Res Byte :=
  (readCell s.raw (s.rowIndex r j)).bind fun x =>
  (neighbour s (decide (s.pstride < j)) (s.rowIndex r (j - s.pstride))).bind fun a =>
  (neighbour s (decide (1 ≤ r)) (s.rowIndex (r - 1) j)).bind fun b =>
  (neighbour s (decide (1 ≤ r) && decide (s.pstride < j)) (s.rowIndex (r - 1) (j - s.pstride))).bind fun c_ =>
  .ok (x - predictor kind a b c_)

/-- One row of `Filter(kind)`: the tag byte passes through (R151), then positions 1 .. STRIDE - 1. -/
def filterRow (kind : FilterKind) (s : State) (r : Nat) (m : Memory 8) : Res (Memory 8) :=
  (readCell s.raw (s.rowIndex r 0)).bind fun tag =>
  loop (s.stride - 1)
    (fun j' m => (filterByte kind s r (j' + 1)).bind fun b => .ok (m.write (s.rowIndex r (j' + 1)) b))
    (m.write (s.rowIndex r 0) tag)

/-- `Filter(kind)` of R156: RAW to FILT. Started singly on a descriptor not admitted it runs as written: log 24. -/
def opFilter (kind : FilterKind) (s : State) : Res State :=
  (loop s.height.toNat (filterRow kind s) s.filt).bind fun m => .ok { s with filt := m }

/-- FLT.NONE, R160: `Filter(0)`. -/
def execFltNone (s : State) : Host.Outcome State Fault Refusal := outcome (opFilter .none s)

/-- FLT.SUB, R161: `Filter(1)`. -/
def execFltSub (s : State) : Host.Outcome State Fault Refusal := outcome (opFilter .sub s)

/-- FLT.UP, R162: `Filter(2)`. -/
def execFltUp (s : State) : Host.Outcome State Fault Refusal := outcome (opFilter .up s)

/-- FLT.AVG, R163: `Filter(3)`. -/
def execFltAvg (s : State) : Host.Outcome State Fault Refusal := outcome (opFilter .average s)

/-- FLT.PAETH, R164: `Filter(4)`. -/
def execFltPaeth (s : State) : Host.Outcome State Fault Refusal := outcome (opFilter .paeth s)

end Sys2Proof.Machine
end

