-- ==== Sys2Proof/Machine/Scanline.lean ====
section
/-! DEFINITION. The Scanline Builder, 41_scanline_builder.md: the byte function `RawByte` of R131 and SLB.BUILD, R132. -/

namespace Sys2Proof.Machine

/-- The cell of channel bank `k` at an index, if the bank exists and the cell holds a value. -/
def State.channelCell (s : State) (k i : Nat) : Option Sample :=
  if h : k < 4 then (s.ch[k]).read i else none

/-- `RawByte(r, j)` of R131, for DEPTH 8 or 16; no value where the channel cell holds none. -/
def rawByte (s : State) (r j : Nat) : Option Byte :=
  if j = 0 then some s.fkind
  else
    let c := (j - 1) / s.pstride
    let o := (j - 1) - c * s.pstride
    if s.depth = 8 then
      (s.channelCell o (s.sampleIndex r c)).map fun v => v.extractLsb' 0 8
    else
      (s.channelCell (o / 2) (s.sampleIndex r c)).map fun v =>
        if o % 2 = 0 then v.extractLsb' 8 8 else v.extractLsb' 0 8

/-- The body of SLB.BUILD for one sample: read the cell, write its bytes (R132). -/
def buildSample (s : State) (r c k : Nat) (m : Memory 8) : Res (Memory 8) :=
  (readChannel s k (s.sampleIndex r c)).bind fun v =>
  loop s.bps (fun i m => .ok (m.write (s.rowIndex r (s.samplePosition c k i)) (sampleByte s.depth v i))) m

/-- The body of SLB.BUILD for one row: the tag byte, then every sample, columns then channels (R132). -/
def buildRow (s : State) (r : Nat) (m : Memory 8) : Res (Memory 8) :=
  loop s.width.toNat (fun c m => loop s.nch (fun k m => buildSample s r c k m) m)
    (m.write (s.rowIndex r 0) s.fkind)

/-- SLB.BUILD as a part of ENCODE, R132. R132's precondition (CFG.CHK has passed, the descriptor is admitted) is not tested
here, ENCODE having established it; started singly where it does not hold, the pseudocode runs as written, FKIND[7:0] copied
whatever it is: DESIGN CHOICE, log 24 (an illegal DEPTH or CMODE: log 11). -/
def opSlbBuild (s : State) : Res State :=
  (loop s.height.toNat (buildRow s) s.raw).bind fun m => .ok { s with raw := m }

/-- SLB.BUILD, R132. -/
def execSlbBuild (s : State) : Host.Outcome State Fault Refusal := outcome (opSlbBuild s)

end Sys2Proof.Machine
end

