-- ==== Sys2Proof/Machine/Writer.lean ====
section
/-! DEFINITION. The Container Writer, 44_container_writer.md: `WriteChunk` (R218), ACC.SIZE, WR.SIG, WR.IHDR, WR.IDAT,
WR.IEND, and the byte layouts of 30_encoding.md R113 and R114. -/

namespace Sys2Proof.Machine

/-- `Chunk(t, d)` of R211, the layout R113: length, tag, data, checksum over tag and data. -/
def chunk (tag data : List Byte) : List Byte :=
  be32 (BitVec.ofNat 32 data.length) ++ tag ++ data ++ be32 (crc32 (tag ++ data))

/-- The 13 header data bytes `H` of R223, the layout R114. -/
def ihdrData (s : State) : List Byte :=
  be32 s.width ++ be32 s.height ++ [s.depth, s.cmode, 0, 0, 0]

/-- `WriteChunk(tag, data)` of R218. -/
def writeChunk (tag data : List Byte) (s : State) : Res State :=
  (putRaw32 (BitVec.ofNat 32 data.length) s).bind fun s =>
  (putMirSeq tag (accReset s)).bind fun s =>
  (putMirSeq data s).bind fun s =>
  (opCrcBuf s).bind fun s =>
  putRaw32 s.crcOut s

/-- ACC.SIZE as a part of ENCODE, R221. Started singly on a descriptor not admitted it runs as written: log 24. -/
def opAccSize (s : State) : Res State := .ok { s with accCap := some s.accCapParam, accIdx := some 0 }

/-- WR.SIG as a part of ENCODE, R222. -/
def opWrSig (s : State) : Res State :=
  (putRawSeq Config.sig s).bind fun s => .ok { s with wstate := .signatureWritten }

/-- WR.IHDR as a part of ENCODE, R223. Started singly on an illegal or not admitted descriptor it sends the registers as they
are: log 24. -/
def opWrIhdr (s : State) : Res State :=
  (writeChunk Config.tagIhdr (ihdrData s) s).bind fun s => .ok { s with wstate := .headerWritten }

/-- WR.IDAT as a part of ENCODE, R224: the data are COMP[0 .. COMP_LEN - 1]. -/
def opWrIdat (s : State) : Res State :=
  (readReg s.compLen).bind fun n =>
  (readCells s.comp 0 n.toNat).bind fun z =>
  (writeChunk Config.tagIdat z s).bind fun s => .ok { s with wstate := .dataWritten }

/-- WR.IEND as a part of ENCODE, R225. -/
def opWrIend (s : State) : Res State :=
  (writeChunk Config.tagIend [] s).bind fun s => .ok { s with wstate := .trailerWritten }

/-- ACC.SIZE, R221. -/
def execAccSize (s : State) : Host.Outcome State Fault Refusal := outcome (opAccSize s)

/-- WR.SIG, R222. -/
def execWrSig (s : State) : Host.Outcome State Fault Refusal := outcome (opWrSig s)

/-- WR.IHDR, R223. -/
def execWrIhdr (s : State) : Host.Outcome State Fault Refusal := outcome (opWrIhdr s)

/-- WR.IDAT, R224. -/
def execWrIdat (s : State) : Host.Outcome State Fault Refusal := outcome (opWrIdat s)

/-- WR.IEND, R225. -/
def execWrIend (s : State) : Host.Outcome State Fault Refusal := outcome (opWrIend s)

end Sys2Proof.Machine
end

