-- ==== Sys2Proof/Machine/Sequencer.lean ====
section
/-! DEFINITION. The sequencer, 45_sequencer_and_collaborators.md: CFG.CHK (R254), CMP.CALL (R257) and ENCODE (R252), the
fixed sequence of operations one encode call runs. -/

namespace Sys2Proof.Machine

/-- CFG.CHK as a part of ENCODE, R254: depth, then channel mode, then filter kind. -/
def opCfgChk (s : State) : Res State :=
  if s.depth ≠ 8 ∧ s.depth ≠ 16 then raise .badDepth s
  else if s.cmode ≠ Config.cmodeRgb ∧ s.cmode ≠ Config.cmodeRgba then raise .badChannelMode s
  else if 4 < s.fkind.toNat then raise .badFilterKind s
  else .ok s

/-- The one call of the compressor as CMP.CALL makes it (R257, R258): its input, COMP_CAP and LEVEL are handed over and
its next answer is taken. -/
def callCompressor (input : List Byte) (cap : Word) (s : State) : State :=
  { s with compDraws := s.compDraws.rest, compCalls := s.compCalls ++ [⟨input, cap, s.level⟩] }

/-- CMP.CALL as a part of ENCODE, R257. An answer longer than the capacity is outside the contract (93 U8: refuse).
Started singly on a descriptor not admitted it runs as written: log 24. -/
def opCmpCall (s : State) : Res State :=
  (readCells s.filt 0 s.frameSize).bind fun input =>
  let called := callCompressor input s.compCapParam { s with compCap := some s.compCapParam }
  match s.compDraws.head with
  | .ok z =>
    if s.compCapParam.toNat < z.length then .error (.refused .compressorOverran)
    else .ok { called with comp := s.comp.writeSeq 0 z, compLen := some (BitVec.ofNat 32 z.length) }
  | .fail f => raise f.cause called
  | .silent => .error (.fault .compressorNeverAnswers)

/-- `FLT` of R106: the filter operation whose opcode is 0x30 + FKIND (R101). FKIND ≤ 4 after CFG.CHK; for another value
there is no filter operation and R104's ConfigurationError stands. -/
def opFltSelected (s : State) : Res State :=
  match FilterKind.ofCode s.fkind with
  | some kind => opFilter kind s
  | none => raise .badFilterKind s

/-- PHASE <- p. -/
def enterPhase (p : Phase) (s : State) : State := { s with phase := p }

/-- The beginning of ENCODE, R252: DONE <- 0, WSTATE <- Start, the buffers fresh, every cell unwritten (10 R47). -/
def beginEncode (s : State) : State := release { s with done := false, wstate := .start }

/-- The admission test, R252, R253: a descriptor that is not admitted is refused. -/
def requireAdmitted (s : State) : Res State :=
  if s.admitted then .ok s else .error (.refused .descriptorNotAdmitted)

/-- The end of ENCODE, R252: PHASE <- Done, DONE <- 1, the buffers released. -/
def finishEncode (s : State) : State := release { s with phase := .done, done := true }

/-- The Write phase of ENCODE, R252. -/
def encodeWrite (s : State) : Res State :=
  (opAccSize (enterPhase .write s)).bind fun s =>
  (opWrSig s).bind fun s =>
  (opWrIhdr s).bind fun s =>
  (opWrIdat s).bind fun s =>
  opWrIend s

/-- ENCODE, R252: the fixed sequence of R107; an error raised by any operation ends it. -/
def opEncode (s : State) : Res State :=
  (opCfgChk (enterPhase .config (beginEncode s))).bind fun s =>
  (requireAdmitted s).bind fun s =>
  (opSlbBuild (enterPhase .build s)).bind fun s =>
  (opFltSelected (enterPhase .filter s)).bind fun s =>
  (opCmpCall (enterPhase .compress s)).bind fun s =>
  (encodeWrite s).bind fun s =>
  .ok (finishEncode s)

/-- ENCODE, R252. -/
def execEncode (s : State) : Host.Outcome State Fault Refusal := outcome (opEncode s)

/-- CFG.CHK, R254. -/
def execCfgChk (s : State) : Host.Outcome State Fault Refusal := outcome (opCfgChk s)

/-- CMP.CALL, R257. -/
def execCmpCall (s : State) : Host.Outcome State Fault Refusal := outcome (opCmpCall s)

end Sys2Proof.Machine
end

