-- ==== Sys2Proof/Machine/Dispatch.lean ====
section
/-! DEFINITION. The dispatch: one arm per operation of 30_encoding.md R100. -/

namespace Sys2Proof.Machine

def exec (i : Instr) (s : State) : Host.Outcome State Fault Refusal :=
  match i with
  | .encode => Sys2Proof.Machine.execEncode s
  | .cfgChk => Sys2Proof.Machine.execCfgChk s
  | .crcTbl => Sys2Proof.Machine.execCrcTbl s
  | .crcInit => Sys2Proof.Machine.execCrcInit s
  | .crcUpd imm8 => Sys2Proof.Machine.execCrcUpd imm8 s
  | .crcFin => Sys2Proof.Machine.execCrcFin s
  | .crcBuf => Sys2Proof.Machine.execCrcBuf s
  | .slbBuild => Sys2Proof.Machine.execSlbBuild s
  | .fltNone => Sys2Proof.Machine.execFltNone s
  | .fltSub => Sys2Proof.Machine.execFltSub s
  | .fltUp => Sys2Proof.Machine.execFltUp s
  | .fltAvg => Sys2Proof.Machine.execFltAvg s
  | .fltPaeth => Sys2Proof.Machine.execFltPaeth s
  | .cmpCall => Sys2Proof.Machine.execCmpCall s
  | .accSize => Sys2Proof.Machine.execAccSize s
  | .wrSig => Sys2Proof.Machine.execWrSig s
  | .wrIhdr => Sys2Proof.Machine.execWrIhdr s
  | .wrIdat => Sys2Proof.Machine.execWrIdat s
  | .wrIend => Sys2Proof.Machine.execWrIend s

end Sys2Proof.Machine
end

