-- ==== Sys2Proof/Machine/HostPort.lean ====
section
/-! DEFINITION. The two ways an operation is started: the host's CMD write (10_state.md R24) among the host's actions
(R23, R44), and the sequencer's issue port (00_scope.md R18, log 9); and the host programs of 30_encoding.md R105, R106. -/

namespace Sys2Proof.Machine

/-- A write of `w` to CMD, R24: clear the error, decode, perform or raise CommandError (60 R287). -/
def cmdWrite (w : Word) (s : State) : Host.Outcome State Fault Refusal :=
  match decode w with
  | .ok i => if i.hostIssuable then exec i (clearError s) else .next (commandError .notHostIssuable (clearError s))
  | .error _ => .next (commandError .reservedCommand (clearError s))

/-- A host write of a whole word to a register, R23. -/
def regWrite (off : Nat) (v : Word) (s : State) : Host.Outcome State Fault Refusal :=
  if off = 0 then cmdWrite v s else .next (writeReg off v s)

/-- A host read of a cell of a channel bank, R44; a cell that holds no value faults (log 3). -/
def chanLoad (k : Fin 4) (i : Word) (s : State) : Host.Outcome State Fault Refusal :=
  match (s.ch[k]).read i.toNat with
  | some v => .next { s with hostRead := v.setWidth 32 }
  | none => .fault .unwrittenChannelCell

/-- One action of the host. A register access that is not a whole word at a multiple of 4 is refused (93 U7). -/
def hostAction (a : HostAction) (s : State) : Host.Outcome State Fault Refusal :=
  match a with
  | .write off bytes v => if hostAccessWellFormed off bytes then regWrite off v s else .refused .hostAccess
  | .read off bytes =>
    if hostAccessWellFormed off bytes then .next { s with hostRead := readHostReg off s } else .refused .hostAccess
  | .storeCell k i v => .next { s with ch := s.ch.set k ((s.ch[k]).write i.toNat v) }
  | .loadCell k i => chanLoad k i s

/-- The sequencer starts the operation a command word names (R18, R107). -/
def sequencerIssue (w : Word) (s : State) : Host.Outcome State Fault Refusal :=
  match decode w with
  | .ok i => exec i s
  | .error _ => .refused .notASequencerWord

/-- A command word at the place the next step takes it from: CMD for a word the host may issue or one that names no
operation, the sequencer's issue port for a sequencer-only operation. -/
def placeWord (w : Word) (s : State) : State :=
  match decode w with
  | .ok i =>
    if i.hostIssuable then { s with seqSlot := none, bus := .write 0x00 4 w :: s.bus } else { s with seqSlot := some w }
  | .error _ => { s with seqSlot := none, bus := .write 0x00 4 w :: s.bus }

/-- The host's line `<MNEMONIC>` or `CRC.UPD <imm8>` of R105: the operation's word written to CMD. -/
def issueLine (i : Instr) : HostAction := .write 0x00 4 (encode i)

/-- The pseudo-operation `CRC32 <b0>, ..., <bn-1>` of R106. -/
def crc32Lines (m : List Byte) : List HostAction :=
  issueLine .crcInit :: (m.map fun b => issueLine (.crcUpd b)) ++ [issueLine .crcFin]

end Sys2Proof.Machine
end

