-- ==== Sys2Proof/Machine/Step.lean ====
section
/-! DEFINITION. One step of the machine: a word at the sequencer's issue port first, else the host's next action; with
neither, the core waits ("after reset the core does nothing until the host writes CMD", 70_reset_and_hazards.md R320). -/

namespace Sys2Proof.Machine

/-- One step. A command is one step, from the CMD write to the operation's end (10_state.md R21). -/
def step (s : State) : Host.Outcome State Fault Refusal :=
  match s.seqSlot with
  | some w => sequencerIssue w { s with seqSlot := none }
  | none =>
    match s.bus with
    | [] => .next s
    | a :: rest => hostAction a { s with bus := rest }

/-- The state whose next step runs the command word `w` (bits above `nbits` zero): log 8 and log 9. -/
def State.withFetchWord (s : State) (nbits w : Nat) : State :=
  placeWord (BitVec.ofNat 32 (w % 2 ^ nbits)) s

end Sys2Proof.Machine
end

