-- ==== Sys2Proof/Machine/Results.lean ====
section
/-! DEFINITION. The pure functions in which the results of an ENCODE are stated: the bytes of RAW (41 R131) and FILT (42
R154) as functions of the channel banks, the success stream OUT (44 R211), and the sequencer's fixed sequence as command
words (30_encoding.md R107). -/

namespace Sys2Proof.Machine

/-- CFG.CHK passes (45 R254). -/
def State.configOk (s : State) : Prop :=
  (s.depth = 8 ∨ s.depth = 16) ∧ (s.cmode = Config.cmodeRgb ∨ s.cmode = Config.cmodeRgba) ∧ s.fkind.toNat ≤ 4

/-- The host has written every cell SLB.BUILD reads (70_reset_and_hazards.md R322, R326). -/
def State.channelsWritten (s : State) : Prop :=
  ∀ k i, k < s.nch → i < s.width.toNat * s.height.toNat → (s.channelCell k i).isSome

/-- TBL_VALID = 1 implies TBL = TBLC (43_checksum_engine.md R184). -/
def State.tblOk (s : State) : Prop := s.tblValid = true → s.tbl = tblc

/-- The byte of RAW at row `r`, position `j` (R131), where the channel cells are written. -/
def rawAt (s : State) (r j : Nat) : Byte := (rawByte s r j).getD 0

/-- The byte of FILT at row `r`, position `j` (R151, R152, R154), as a function of the channel banks. -/
def filtAt (kind : FilterKind) (s : State) (r j : Nat) : Byte :=
  if j = 0 then rawAt s r 0
  else
    rawAt s r j -
      predictor kind
        (if s.pstride < j then rawAt s r (j - s.pstride) else 0)
        (if 1 ≤ r then rawAt s (r - 1) j else 0)
        (if 1 ≤ r ∧ s.pstride < j then rawAt s (r - 1) (j - s.pstride) else 0)

/-- All F bytes of FILT in index order, rows one after another (R110). -/
def filteredFrame (kind : FilterKind) (s : State) : List Byte :=
  (List.range s.height.toNat).flatMap fun r => (List.range s.stride).map (filtAt kind s r)

/-- OUT of a successful ENCODE with the compressor's answer `z` (R112, R211). -/
def encodeStream (s : State) (z : List Byte) : List Byte :=
  Config.sig ++ chunk Config.tagIhdr (ihdrData s) ++ chunk Config.tagIdat z ++ chunk Config.tagIend []

/-- The chunk a chunk operation sends (R223 to R225): its tag and its data. -/
def sendsChunk (s : State) (i : Instr) (tag data : List Byte) : Prop :=
  (i = .wrIhdr ∧ tag = Config.tagIhdr ∧ data = ihdrData s) ∨
  (i = .wrIdat ∧ tag = Config.tagIdat ∧ s.compLen = some (BitVec.ofNat 32 data.length) ∧ data.length < 2 ^ 32 ∧
    ∀ a < data.length, s.comp.read a = data[a]?) ∨
  (i = .wrIend ∧ tag = Config.tagIend ∧ data = [])

/-- The sequencer's fixed sequence as phases and command words, R107. -/
def fixedSequence (fkind : Byte) : List (Phase × Word) :=
  [(.config, 0x00000002), (.build, 0x00000020), (.filter, 0x00000030 + zext32 fkind), (.compress, 0x00000040),
   (.write, 0x00000050), (.write, 0x00000051), (.write, 0x00000052), (.write, 0x00000053), (.write, 0x00000054)]

/-- Issues command words one after another through the sequencer's port, each in its phase, stopping at the first error. -/
def runSequence : List (Phase × Word) → State → Host.Outcome State Fault Refusal
  | [], s => .next s
  | (p, w) :: rest, s =>
    match step { s with phase := p, seqSlot := some w } with
    | .next t => if t.phase = .failed then .next t else runSequence rest t
    | .fault f => .fault f
    | .refused r => .refused r

end Sys2Proof.Machine
end

