-- ==== Sys2Proof/Safety.lean ====
section
/-! DEFINITION. What counts as a safe run: the invariant every step keeps, and what holds of the machine between the host's
commands. -/

namespace Sys2Proof

open Machine

/-- ERR in step with STATUS.ERR: "ERR is 0 when STATUS.ERR is 0" (10_state.md R26); when it is 1, ERR holds the kind and
the code of one of the eleven causes (60_exceptions.md R281), and for a CommandError STAGE and WST are 0 (R287). -/
def errorRegistersOk (s : State) : Prop :=
  (s.err = false → s.errReg = 0) ∧
  (s.err = true → ∃ (c : Cause) (p : Phase) (w : WState),
    s.errReg = errWord c.kind.code p.code c.code w.code ∧ (c.kind = .command → p = .idle ∧ w = .start))

/-- Every memory space is in its canonical form. -/
def memoriesOk (s : State) : Prop :=
  (∀ k : Fin 4, (s.ch[k]).wf = true) ∧ s.raw.wf = true ∧ s.filt.wf = true ∧ s.comp.wf = true ∧ s.accbuf.wf = true

/-- ACCBUF: ACC_IDX never passes ACC_CAP (44 R214, 60 R284), and "the first ACC_IDX bytes are valid" (10 R40). -/
def accumulatorOk (s : State) : Prop :=
  (∀ i c, s.accIdx = some i → s.accCap = some c → i.toNat ≤ c.toNat) ∧
  (∀ i, s.accIdx = some i → ∀ a < i.toNat, (s.accbuf.read a).isSome)

/-- COMP: "a byte buffer of capacity COMP_CAP of which the first COMP_LEN bytes are valid" (10 R39). -/
def compressedOk (s : State) : Prop :=
  (∀ n c, s.compLen = some n → s.compCap = some c → n.toNat ≤ c.toNat) ∧
  (∀ n, s.compLen = some n → ∀ a < n.toNat, (s.comp.read a).isSome)

/-- The invariant of the machine: every step keeps it, host action or operation. -/
structure Inv (s : State) : Prop where
  table : s.tblOk
  errors : errorRegistersOk s
  memories : memoriesOk s
  accumulator : accumulatorOk s
  compressed : compressedOk s

/-- The buffers and working registers of an ENCODE hold no value (10 R47). -/
def released (s : State) : Prop :=
  s.raw = [] ∧ s.filt = [] ∧ s.comp = [] ∧ s.accbuf = [] ∧
  s.accIdx = none ∧ s.accCap = none ∧ s.compCap = none ∧ s.compLen = none

/-- What the host finds between its commands: PHASE is 0, 6 or 7 (10 R30); DONE, PHASE = Done and WSTATE = TrailerWritten
go together (R32); after reset the writer is in Start; no buffer outlives the call (R47). The sequencer's port is empty:
only the host starts operations. -/
structure BetweenCommands (s : State) : Prop where
  hostDriven : s.seqSlot = none
  phases : s.phase = .idle ∨ s.phase = .done ∨ s.phase = .failed
  doneIsPhaseDone : s.done = true ↔ s.phase = .done
  doneIsTrailerWritten : s.done = true ↔ s.wstate = .trailerWritten
  idleIsStart : s.phase = .idle → s.wstate = .start
  buffers : released s

end Sys2Proof
end

