-- ==== Sys2Proof/Certificates/Slice0/Obligations.lean ====
section
/-! DEFINITION. The statements for the provers, each about a rule of spec/. A docstring names the rule; "the model's" marks
a clause that rests on a log entry and not on the spec. -/

open Sys2Proof Sys2Proof.Machine

/-! ## Command words -/

/-- R90, R91, R93: encoding and decoding are inverse to each other, on every operation and on every 32-bit word. -/
def Obligations.DecodeAndEncodeAgree : Prop :=
  (∀ i : Instr, i.wellFormed = true → decode (encode i) = .ok i) ∧
  (∀ (w : Word) (i : Instr), decode w = .ok i → encode i = w)

/-- R93: the four steps of decoding, the equivalent test by mask and match, and disjoint match sets. -/
def Obligations.DecoderFollowsTheFourSteps : Prop :=
  ∀ w : Word,
    (w.extractLsb' 16 16 ≠ 0 → decode w = .error .highBitsNotZero) ∧
    (w.extractLsb' 16 16 = 0 → (∀ i : Instr, i.opcode ≠ w.extractLsb' 0 8) →
      decode w = .error .reservedOpcode) ∧
    (w.extractLsb' 16 16 = 0 → ∀ i : Instr, i.opcode = w.extractLsb' 0 8 → i.format = .cmd0 →
      w.extractLsb' 8 8 ≠ 0 → decode w = .error .fieldNotZero) ∧
    (w.extractLsb' 16 16 = 0 → ∀ i : Instr, i.opcode = w.extractLsb' 0 8 → i.field = w.extractLsb' 8 8 →
      decode w = .ok i) ∧
    (∀ i : Instr, decode w = .ok i ↔ w &&& i.tableMask = i.tableMatch ∧ i.field = w.extractLsb' 8 8) ∧
    (∀ i j : Instr, w &&& i.tableMask = i.tableMatch → w &&& j.tableMask = j.tableMatch → i.opcode = j.opcode)

/-- R100, R103: words written out from the spec's encodings, one of each unit, and reserved words. -/
def Obligations.WordsOfTheSpecDecode : Prop :=
  decode 0x00000001 = .ok .encode ∧ decode 0x00000002 = .ok .cfgChk ∧ decode 0x00004912 = .ok (.crcUpd 0x49) ∧
  decode 0x00000014 = .ok .crcBuf ∧ decode 0x00000020 = .ok .slbBuild ∧ decode 0x00000034 = .ok .fltPaeth ∧
  decode 0x00000040 = .ok .cmpCall ∧ decode 0x00000054 = .ok .wrIend ∧
  decode 0x00000035 = .error .reservedOpcode ∧ decode 0x00010011 = .error .highBitsNotZero ∧
  decode 0x00000111 = .error .fieldNotZero

/-! ## The step, the host registers, reset -/

/-- R18, R24, R78: a step runs the operation its word decodes to: from the sequencer's port (log 9), from CMD with the
error cleared first, and from the place `withFetchWord` puts it. The port refuses a word that names no operation; with
nothing to start the core waits (log 8). -/
def Obligations.StepRunsTheDecodedOperation : Prop :=
  (∀ (s : State) (w : Word) (i : Instr), s.seqSlot = some w → decode w = .ok i →
    step s = exec i { s with seqSlot := none }) ∧
  (∀ (s : State) (w : Word) (i : Instr) (rest : List HostAction),
    s.seqSlot = none → s.bus = .write 0x00 4 w :: rest → decode w = .ok i → i.hostIssuable = true →
    step s = exec i { s with bus := rest, err := false, errReg := 0 }) ∧
  (∀ (s : State) (w : Nat) (i : Instr), decodeTableWord 32 w = some i →
    step (s.withFetchWord 32 w) =
      if i.hostIssuable then exec i { s with seqSlot := none, err := false, errReg := 0 }
      else exec i { s with seqSlot := none }) ∧
  (∀ (s : State) (w : Word), s.seqSlot = some w → (∀ i, decode w ≠ .ok i) → step s = .refused .notASequencerWord) ∧
  (∀ s : State, s.seqSlot = none → s.bus = [] → step s = .next s)

/-- R24, R287: a CMD write clears the error, decodes, and performs the operation or raises CommandError, which changes
STATUS.ERR and ERR and nothing else; CMD reads 0. -/
def Obligations.CmdWritePerformsOrRaisesCommandError : Prop :=
  ∀ (s : State) (rest : List HostAction), s.seqSlot = none →
    (∀ w : Word, s.bus = .write 0x00 4 w :: rest →
      (∀ i, decode w = .ok i → i.hostIssuable = true →
        step s = exec i { s with bus := rest, err := false, errReg := 0 }) ∧
      (∀ i, decode w = .ok i → i.hostIssuable = false →
        step s = .next { s with bus := rest, err := true, errReg := 0x00004205 }) ∧
      ((∀ i, decode w ≠ .ok i) → step s = .next { s with bus := rest, err := true, errReg := 0x00004105 })) ∧
    (s.bus = .read 0x00 4 :: rest → step s = .next { s with bus := rest, hostRead := 0 })

/-- R23: the host register map: what a write to each offset changes and what a read of each returns; an access that is
not a whole word at a multiple of 4 is refused (93 U7). -/
def Obligations.HostRegisterMap : Prop :=
  ∀ (s : State) (off : Nat) (rest : List HostAction), s.seqSlot = none →
    (∀ v : Word, off % 4 = 0 → off ≠ 0x00 → s.bus = .write off 4 v :: rest →
      step s = .next
        (if off = 0x0C then { s with bus := rest, width := v }
         else if off = 0x10 then { s with bus := rest, height := v }
         else if off = 0x14 then { s with bus := rest, depth := v.extractLsb' 0 8 }
         else if off = 0x18 then { s with bus := rest, cmode := v.extractLsb' 0 8 }
         else if off = 0x1C then { s with bus := rest, fkind := v.extractLsb' 0 8 }
         else if off = 0x20 then { s with bus := rest, level := v }
         else { s with bus := rest })) ∧
    (off % 4 = 0 → s.bus = .read off 4 :: rest →
      step s = .next
        { s with
          bus := rest
          hostRead :=
            if off = 0x04 then s.statusWord
            else if off = 0x08 then s.errReg
            else if off = 0x0C then s.width
            else if off = 0x10 then s.height
            else if off = 0x14 then s.depth.setWidth 32
            else if off = 0x18 then s.cmode.setWidth 32
            else if off = 0x1C then s.fkind.setWidth 32
            else if off = 0x20 then s.level
            else if off = 0x24 then s.crcAcc
            else if off = 0x28 then s.crcOut
            else 0 }) ∧
    (∀ (n : Nat) (v : Word), off % 4 ≠ 0 ∨ n ≠ 4 → s.bus = .write off n v :: rest ∨ s.bus = .read off n :: rest →
      step s = .refused .hostAccess)

/-- R36, R43, R44: a write through the channel port changes one cell of one bank; a read returns a written cell in
`hostRead`. The model's: that the bits above the 16 of the cell are zeros there (log 12), and that a read of a cell
holding no value stops (log 3). -/
def Obligations.ChannelPortMovesOneCell : Prop :=
  ∀ (s : State) (k : Fin 4) (i : Word) (rest : List HostAction), s.seqSlot = none →
    (∀ v : Sample, s.bus = .storeCell k i v :: rest →
      ∃ t, step s = .next t ∧ t = { s with bus := rest, ch := t.ch } ∧
        (t.ch[k]).read i.toNat = some v ∧
        (∀ a, a ≠ i.toNat → (t.ch[k]).read a = (s.ch[k]).read a) ∧
        (∀ k' : Fin 4, k' ≠ k → t.ch[k'] = s.ch[k'])) ∧
    (s.bus = .loadCell k i :: rest →
      (∀ v, (s.ch[k]).read i.toNat = some v → step s = .next { s with bus := rest, hostRead := v.setWidth 32 }) ∧
      ((s.ch[k]).read i.toNat = none → step s = .fault .unwrittenChannelCell))

/-- R25: the fields of STATUS, its reserved bits, and its value as a number. -/
def Obligations.StatusWordFields : Prop :=
  ∀ s : State,
    s.statusWord.getLsbD 0 = s.done ∧ s.statusWord.getLsbD 1 = s.err ∧ s.statusWord.getLsbD 2 = s.tblValid ∧
    s.statusWord.getLsbD 3 = false ∧ s.statusWord.extractLsb' 4 3 = s.phase.code ∧
    s.statusWord.getLsbD 7 = false ∧ s.statusWord.extractLsb' 8 3 = s.wstate.code ∧
    s.statusWord.extractLsb' 11 21 = 0 ∧
    s.statusWord.toNat = s.done.toNat + 2 * s.err.toNat + 4 * s.tblValid.toNat + 16 * s.phase.code.toNat +
      256 * s.wstate.code.toNat

/-- R50, R320: the state after reset, the BadDepth of an ENCODE issued straight after it, and that the core then
waits. TBL's cells are not stated (log 1). -/
def Obligations.ResetState : Prop :=
  let s := State.reset
  readHostReg 0x00 s = 0 ∧ s.done = false ∧ s.err = false ∧ s.tblValid = false ∧ s.phase = .idle ∧
  s.wstate = .start ∧ s.statusWord = 0 ∧ s.errReg = 0 ∧ s.width = 0 ∧ s.height = 0 ∧ s.depth = 0 ∧ s.cmode = 0 ∧
  s.fkind = 0 ∧ s.level = 0 ∧ s.crcAcc = 0xFFFFFFFF ∧ s.crcOut = 0 ∧ released s ∧ s.sink = [] ∧
  (∀ (k : Fin 4) (i : Nat), (s.ch[k]).read i = none) ∧
  (∃ t, exec .encode s = .next t ∧ t.statusWord = 0x00000072 ∧ t.errReg = 0x00000111) ∧
  step s = .next s

/-! ## The Checksum Engine -/

/-- R181, R182: the table constants are those of the construction: eight conditional shift-and-XOR steps per entry. -/
def Obligations.TableConstantsFollowTheConstruction : Prop :=
  ∀ n : Fin 256, tblc[n] =
    (List.range 8).foldl (fun (c : Word) _ => if c.getLsbD 0 then (0xEDB88320 : Word) ^^^ (c >>> 1) else c >>> 1)
      (BitVec.ofNat 32 n.val)

/-- R193: the table-driven step equals eight single-bit steps, for every accumulator and byte. -/
def Obligations.CrcStepIsBitSerial : Prop :=
  ∀ (acc : Word) (b : Byte), crcStep acc b =
    (List.range 8).foldl (fun (c : Word) _ => if c.getLsbD 0 then (0xEDB88320 : Word) ^^^ (c >>> 1) else c >>> 1)
      (acc ^^^ b.setWidth 32)

/-- R183: CRC.TBL builds the table whatever TBL_VALID is and changes nothing else; a second run changes nothing. -/
def Obligations.CrcTblBuildsTheTable : Prop :=
  encode .crcTbl = 0x00000010 ∧ Instr.hostIssuable .crcTbl = true ∧
  ∀ s : State,
    exec .crcTbl s = .next { s with tbl := tblc, tblValid := true } ∧
    exec .crcTbl { s with tbl := tblc, tblValid := true } = .next { s with tbl := tblc, tblValid := true }

/-- R185: CRC.INIT builds the table if TBL_VALID = 0, sets CRC_ACC to all-ones, and changes nothing else. -/
def Obligations.CrcInitStartsAChecksum : Prop :=
  encode .crcInit = 0x00000011 ∧ Instr.hostIssuable .crcInit = true ∧
  ∀ s : State, exec .crcInit s =
    .next { s with
      tbl := if s.tblValid then s.tbl else tblc
      tblValid := true
      crcAcc := 0xFFFFFFFF }

/-- R186: CRC.UPD folds its byte into CRC_ACC with the table it has ensured, and changes nothing else. The premise is
the invariant "TBL_VALID = 1 implies TBL = TBLC" (R184), kept by every step. -/
def Obligations.CrcUpdFoldsOneByte : Prop :=
  (∀ b : Byte, encode (.crcUpd b) = (b.setWidth 32 <<< 8) ||| 0x12 ∧ Instr.hostIssuable (.crcUpd b) = true) ∧
  ∀ (s : State) (b : Byte), s.tblOk →
    exec (.crcUpd b) s = .next { s with
      tbl := tblc
      tblValid := true
      crcAcc := tblc[((s.crcAcc ^^^ b.setWidth 32) &&& 0xFF#32).toNat]! ^^^ (s.crcAcc >>> 8) }

/-- R187: CRC.FIN writes CRC_OUT and nothing else; it neither reads nor builds TBL. -/
def Obligations.CrcFinFinalises : Prop :=
  encode .crcFin = 0x00000013 ∧ Instr.hostIssuable .crcFin = true ∧
  ∀ s : State, exec .crcFin s = .next { s with crcOut := s.crcAcc ^^^ 0xFFFFFFFF }

/-- R188: CRC.BUF leaves the checksum of ACCBUF[0 .. ACC_IDX - 1], for every length of it, 0 included; with ACC_IDX or
a cell below it holding no value it stops (R327, 92 D32). -/
def Obligations.CrcBufChecksumsTheMirror : Prop :=
  encode .crcBuf = 0x00000014 ∧ Instr.hostIssuable .crcBuf = false ∧
  ∀ s : State,
    (∀ (n : Word) (m : List Byte), s.tblOk → s.accIdx = some n → m.length = n.toNat →
      (∀ a < n.toNat, s.accbuf.read a = m[a]?) →
      exec .crcBuf s = .next { s with
        tbl := tblc
        tblValid := true
        crcAcc := m.foldl crcStep 0xFFFFFFFF
        crcOut := crc32 m }) ∧
    (s.accIdx = none → exec .crcBuf s = .fault .releasedRegister) ∧
    (∀ (n : Word) (a : Nat), s.accIdx = some n → a < n.toNat → s.accbuf.read a = none →
      exec .crcBuf s = .fault .unwrittenBufferCell)

/-- R191: the reference vector, with every value the accumulator goes through. -/
def Obligations.ReferenceVectorOfTheTrailerTag : Prop :=
  crc32 [0x49, 0x45, 0x4E, 0x44] = 0xAE426082 ∧ Config.tagIend = [0x49, 0x45, 0x4E, 0x44] ∧
  crcStep 0xFFFFFFFF 0x49 = 0x22FDE946 ∧ crcStep 0x22FDE946 0x45 = 0x992BAC53 ∧
  crcStep 0x992BAC53 0x4E = 0x639F4775 ∧ crcStep 0x639F4775 0x44 = 0x51BD9F7D ∧
  (0x51BD9F7D : Word) ^^^ 0xFFFFFFFF = 0xAE426082

/-- R106, R192: the host sequence CRC.INIT, CRC.UPD of each byte, CRC.FIN, run as steps, leaves the checksum of the
bytes in CRC_OUT; and folding v into what u left is folding u ∥ v. -/
def Obligations.HostChecksumProgramComputesCrc32 : Prop :=
  (∀ (s : State) (m : List Byte) (rest : List HostAction),
    s.tblOk → s.seqSlot = none → s.bus = crc32Lines m ++ rest →
    Host.Core.run Sys2Proof.core (m.length + 2) s = .next { s with
      bus := rest
      err := false
      errReg := 0
      tbl := tblc
      tblValid := true
      crcAcc := m.foldl crcStep 0xFFFFFFFF
      crcOut := crc32 m }) ∧
  (∀ u v : List Byte, crc32 (u ++ v) = v.foldl crcStep (crc32 u ^^^ 0xFFFFFFFF) ^^^ 0xFFFFFFFF)

/-! ## The Scanline Builder -/

/-- R131, R132, R133: SLB.BUILD puts the tag byte and the bytes of the samples at their places in RAW, for both depths
and both modes, and changes nothing else; a cell of RAW outside the F cells keeps its value. Where R132's precondition
fails (a descriptor not admitted, FKIND above 4) it is the model's, log 24. -/
def Obligations.SlbBuildWritesRawBytes : Prop :=
  encode .slbBuild = 0x00000020 ∧ Instr.hostIssuable .slbBuild = false ∧
  ∀ s : State,
    (s.depth = 8 ∨ s.depth = 16) → (s.cmode = 2 ∨ s.cmode = 6) → s.channelsWritten →
    ∃ t, exec .slbBuild s = .next t ∧ t = { s with raw := t.raw } ∧
      (∀ r j, r < s.height.toNat → j < s.stride → t.raw.read (r * s.stride + j) = some (rawAt s r j)) ∧
      (∀ r, rawAt s r 0 = s.fkind) ∧
      (∀ r c k, r < s.height.toNat → c < s.width.toNat → k < s.nch → ∀ v, s.channelCell k (r * s.width.toNat + c) = some v →
        (s.depth = 8 → rawAt s r (1 + c * s.pstride + k) = v.extractLsb' 0 8) ∧
        (s.depth = 16 → rawAt s r (1 + c * s.pstride + 2 * k) = v.extractLsb' 8 8 ∧
          rawAt s r (1 + c * s.pstride + 2 * k + 1) = v.extractLsb' 0 8)) ∧
      (∀ a, s.frameSize ≤ a → t.raw.read a = s.raw.read a)

/-- 93 U5, R136, R326: if a cell SLB.BUILD reads holds no value the run faults, and the model substitutes nothing.
Where R132's precondition fails (a descriptor not admitted, FKIND above 4) it is the model's, log 24. -/
def Obligations.SlbBuildFaultsOnAnUnwrittenCell : Prop :=
  ∀ s : State, (s.depth = 8 ∨ s.depth = 16) → (s.cmode = 2 ∨ s.cmode = 6) → ¬ s.channelsWritten →
    exec .slbBuild s = .fault .unwrittenChannelCell

/-- R134, R136: the bytes SLB.BUILD writes depend only on the used cells of the used banks, and at depth 8 only on
their low bytes. Where R132's precondition fails (a descriptor not admitted, FKIND above 4) it is the model's, log 24. -/
def Obligations.SlbBuildReadsOnlyUsedCells : Prop :=
  ∀ (s t s' : State) (ch' : Vector (Memory 16) 4),
    (s.depth = 8 ∨ s.depth = 16) → (s.cmode = 2 ∨ s.cmode = 6) → s.channelsWritten →
    s' = { s with ch := ch' } →
    (∀ k i, k < s.nch → i < s.width.toNat * s.height.toNat →
      if s.depth = 8 then
        (s'.channelCell k i).map (fun v => v.extractLsb' 0 8) = (s.channelCell k i).map (fun v => v.extractLsb' 0 8)
      else s'.channelCell k i = s.channelCell k i) →
    exec .slbBuild s = .next t → exec .slbBuild s' = .next { t with ch := ch' }

/-! ## The Filter Engine -/

/-- R151 to R154, R156, R160 to R164: each filter operation copies the tag byte and replaces every other byte by (x -
Pred) mod 256, the neighbours being raw bytes or 0, and changes nothing else. On a descriptor not admitted it is the
model's, log 24. -/
def Obligations.FilterOperationsReplaceEveryByte : Prop :=
  ∀ (kind : FilterKind) (i : Instr) (code : Nat),
    (kind, i, code) ∈ [(FilterKind.none, Instr.fltNone, 0), (.sub, .fltSub, 1), (.up, .fltUp, 2),
      (.average, .fltAvg, 3), (.paeth, .fltPaeth, 4)] →
    encode i = BitVec.ofNat 32 (0x30 + code) ∧ i.hostIssuable = false ∧
    ∀ (s : State) (raw : Nat → Nat → Byte),
      (∀ r j, r < s.height.toNat → j < s.stride → s.raw.read (r * s.stride + j) = some (raw r j)) →
      ∃ t, exec i s = .next t ∧ t = { s with filt := t.filt } ∧
        (∀ r, r < s.height.toNat → t.filt.read (r * s.stride) = some (raw r 0)) ∧
        (∀ r j, r < s.height.toNat → 1 ≤ j → j < s.stride →
          ∃ y : Byte, t.filt.read (r * s.stride + j) = some y ∧
            let x := (raw r j).toNat
            let a := if s.pstride < j then (raw r (j - s.pstride)).toNat else 0
            let b := if 1 ≤ r then (raw (r - 1) j).toNat else 0
            let c_ := if 1 ≤ r ∧ s.pstride < j then (raw (r - 1) (j - s.pstride)).toNat else 0
            let pred := match kind with
              | .none => 0
              | .sub => a
              | .up => b
              | .average => (a + b) / 2
              | .paeth => (paeth (BitVec.ofNat 8 a) (BitVec.ofNat 8 b) (BitVec.ofNat 8 c_)).toNat
            pred ≤ 255 ∧ y.toNat = (x + 256 - pred) % 256) ∧
        (∀ a, s.frameSize ≤ a → t.filt.read a = s.filt.read a)

/-- R160: FLT.NONE is the identity on all F cells. On a descriptor not admitted it is the model's, log 24. -/
def Obligations.FilterNoneIsIdentity : Prop :=
  encode .fltNone = 0x00000030 ∧ Instr.hostIssuable .fltNone = false ∧
  ∀ s : State, (∀ a < s.frameSize, (s.raw.read a).isSome) →
    ∃ t, exec .fltNone s = .next t ∧ t = { s with filt := t.filt } ∧
      (∀ a < s.frameSize, t.filt.read a = s.raw.read a) ∧ (∀ a, s.frameSize ≤ a → t.filt.read a = s.filt.read a)

/-- R158: the Paeth predictor returns the input nearest to a + b - c_, ties going to a, then b, then c_. -/
def Obligations.PaethPicksTheNearestInput : Prop :=
  ∀ a b c_ : Byte,
    let p : Int := a.toNat + b.toNat - c_.toNat
    let d : Byte → Nat := fun x => (p - (x.toNat : Int)).natAbs
    (paeth a b c_ = a ∨ paeth a b c_ = b ∨ paeth a b c_ = c_) ∧
    d (paeth a b c_) ≤ d a ∧ d (paeth a b c_) ≤ d b ∧ d (paeth a b c_) ≤ d c_ ∧
    (d a ≤ d b → d a ≤ d c_ → paeth a b c_ = a) ∧
    (¬ (d a ≤ d b ∧ d a ≤ d c_) → d b ≤ d c_ → paeth a b c_ = b) ∧
    (¬ (d a ≤ d b ∧ d a ≤ d c_) → ¬ d b ≤ d c_ → paeth a b c_ = c_)

/-- R159: the facts about Paeth on the first row and the first column, for the predictor and for the operations. -/
def Obligations.PaethEdgesAreSubAndUp : Prop :=
  (∀ a b c_ : Byte, paeth a b c_ = a ∨ paeth a b c_ = b ∨ paeth a b c_ = c_) ∧
  (∀ a : Byte, paeth a 0 0 = a) ∧ (∀ b : Byte, paeth 0 b 0 = b) ∧ paeth 0 0 0 = 0 ∧
  paeth 1 4 3 = 1 ∧ paeth 4 1 3 = 1 ∧ paeth 10 20 15 = 15 ∧ paeth 255 255 0 = 255 ∧ paeth 0 0 255 = 0 ∧
  (∀ s : State, (∀ a < s.frameSize, (s.raw.read a).isSome) →
    ∃ p u v, exec .fltPaeth s = .next p ∧ exec .fltSub s = .next u ∧ exec .fltUp s = .next v ∧
      (∀ j, 0 < s.height.toNat → j < s.stride → p.filt.read j = u.filt.read j) ∧
      (∀ r j, 1 ≤ r → r < s.height.toNat → 1 ≤ j → j ≤ s.pstride → j < s.stride →
        p.filt.read (r * s.stride + j) = v.filt.read (r * s.stride + j)))

/-- R47, R327: a filter operation run where a cell of RAW it reads holds no value stops; nothing is substituted. -/
def Obligations.FilterFaultsOnAnUnwrittenByte : Prop :=
  ∀ (i : Instr) (s : State), i ∈ [Instr.fltNone, .fltSub, .fltUp, .fltAvg, .fltPaeth] →
    (∃ a < s.frameSize, s.raw.read a = none) → exec i s = .fault .unwrittenBufferCell

/-- R165, glossary R16: the filters are reversible: two raw frames of one descriptor with the same filtered bytes are
the same frame. On a descriptor not admitted it is the model's, log 24. -/
def Obligations.FiltersAreReversible : Prop :=
  ∀ (i : Instr) (s t t' : State) (raw' : Memory 8), i ∈ [Instr.fltNone, .fltSub, .fltUp, .fltAvg, .fltPaeth] →
    exec i s = .next t → exec i { s with raw := raw' } = .next t' →
    (∀ a < s.frameSize, t.filt.read a = t'.filt.read a) →
    ∀ a < s.frameSize, s.raw.read a = raw'.read a

/-! ## CFG.CHK, CMP.CALL, ACC.SIZE and error entry -/

/-- R290, R281: error entry saves the kind, the phase, the cause and the writer state in ERR, sets STATUS.ERR and
PHASE = Failed, releases the buffers, and changes nothing else. -/
def Obligations.ErrorEntrySavesAndReleases : Prop :=
  ∀ (c : Cause) (s : State),
    (c.kind.code, c.code) =
      (match c with
       | .badDepth => (1, 0x01) | .badChannelMode => (1, 0x02) | .badFilterKind => (1, 0x03)
       | .compNoMemory => (2, 0x11) | .compInvalidParams => (2, 0x12) | .compVersionMismatch => (2, 0x13)
       | .compInsufficientOutput => (2, 0x14) | .accumulatorOverflow => (3, 0x21) | .sinkRejected => (4, 0x31)
       | .reservedCommand => (5, 0x41) | .notHostIssuable => (5, 0x42)) ∧
    errorEntry c s = { s with
      errReg := c.kind.code.setWidth 32 ||| (s.phase.code.setWidth 32 <<< 4) ||| (c.code.setWidth 32 <<< 8) |||
        (s.wstate.code.setWidth 32 <<< 16)
      err := true
      phase := .failed
      raw := [], filt := [], comp := [], accbuf := []
      accIdx := none, accCap := none, compCap := none, compLen := none }

/-- R254: CFG.CHK passes without effect or raises ConfigurationError with the first cause in the order depth, channel
mode, filter kind. -/
def Obligations.CfgChkTestsInOrder : Prop :=
  encode .cfgChk = 0x00000002 ∧ Instr.hostIssuable .cfgChk = false ∧
  ∀ s : State,
    (s.depth ≠ 8 → s.depth ≠ 16 → exec .cfgChk s = .next (errorEntry .badDepth s)) ∧
    ((s.depth = 8 ∨ s.depth = 16) → s.cmode ≠ 2 → s.cmode ≠ 6 →
      exec .cfgChk s = .next (errorEntry .badChannelMode s)) ∧
    ((s.depth = 8 ∨ s.depth = 16) → (s.cmode = 2 ∨ s.cmode = 6) → 4 < s.fkind.toNat →
      exec .cfgChk s = .next (errorEntry .badFilterKind s)) ∧
    ((s.depth = 8 ∨ s.depth = 16) → (s.cmode = 2 ∨ s.cmode = 6) → s.fkind.toNat ≤ 4 → exec .cfgChk s = .next s)

/-- R8: on an admitted descriptor the capacities meet their constraints, whatever the tables hold. -/
def Obligations.CapacitiesMeetTheirBounds : Prop :=
  ∀ s : State, s.admitted = true → s.frameSize + 5 ≤ s.accCapParam.toNat ∧ s.frameSize ≤ s.compCapParam.toNat

/-- R257, R258: CMP.CALL hands all F bytes of FILT, COMP_CAP and LEVEL to the compressor once, and on success COMP
holds the answer and COMP_LEN its length; nothing else changes. On a descriptor not admitted it is the model's, log
24. -/
def Obligations.CmpCallStoresTheAnswer : Prop :=
  encode .cmpCall = 0x00000040 ∧ Instr.hostIssuable .cmpCall = false ∧
  ∀ (s : State) (input z : List Byte),
    input.length = s.frameSize → (∀ a < s.frameSize, s.filt.read a = input[a]?) →
    s.compDraws.head = .ok z → z.length ≤ s.compCapParam.toNat →
    ∃ t, exec .cmpCall s = .next t ∧
      t = { s with
        compCap := some s.compCapParam
        compLen := some (BitVec.ofNat 32 z.length)
        comp := t.comp
        compDraws := ⟨s.compDraws.script.tail, s.compDraws.thereafter⟩
        compCalls := s.compCalls ++ [⟨input, s.compCapParam, s.level⟩] } ∧
      (∀ a < z.length, t.comp.read a = z[a]?) ∧ (∀ a, z.length ≤ a → t.comp.read a = s.comp.read a)

/-- R257, R283, 93 U8, U9: each failure of the compressor is its own CompressionError, with SINK and the checksum
registers unchanged; an answer above the capacity is refused and an answer that never comes stops the run, as a cell
of FILT that holds no value does (R327). -/
def Obligations.CmpCallReportsFailures : Prop :=
  ∀ s : State, ((∃ a < s.frameSize, s.filt.read a = none) → exec .cmpCall s = .fault .unwrittenBufferCell) ∧
    ((∀ a < s.frameSize, (s.filt.read a).isSome) →
    (∀ f, s.compDraws.head = .fail f →
      ∃ t, exec .cmpCall s = .next t ∧
        t.errReg = errWord 2 s.phase.code
          (match f with
           | .noMemory => 0x11 | .invalidParams => 0x12 | .versionMismatch => 0x13 | .insufficientOutput => 0x14)
          s.wstate.code ∧
        t.err = true ∧ t.phase = .failed ∧ t.sink = s.sink ∧ t.offered = s.offered ∧ t.crcAcc = s.crcAcc ∧
        t.crcOut = s.crcOut ∧ t.tbl = s.tbl ∧ t.tblValid = s.tblValid ∧ t.wstate = s.wstate ∧ released t) ∧
    (∀ z, s.compDraws.head = .ok z → s.compCapParam.toNat < z.length → exec .cmpCall s = .refused .compressorOverran) ∧
    (s.compDraws.head = .silent → exec .cmpCall s = .fault .compressorNeverAnswers))

/-- R221: ACC.SIZE sets ACC_CAP to the open parameter, at least F + 5 on an admitted descriptor, and ACC_IDX to 0, and
changes nothing else. -/
def Obligations.AccSizeSetsTheCapacity : Prop :=
  encode .accSize = 0x00000050 ∧ Instr.hostIssuable .accSize = false ∧
  ∀ s : State,
    exec .accSize s = .next { s with accCap := some s.accCapParam, accIdx := some 0 } ∧
    (s.admitted = true → s.frameSize + 5 ≤ s.accCapParam.toNat)

/-! ## The Container Writer -/

/-- R222: with every write accepted WR.SIG appends the eight signature bytes and moves WSTATE; nothing is mirrored and
the Checksum Engine is not used. Outside the writer's order of R226 it is the model's, log 20. -/
def Obligations.WrSigSendsTheSignature : Prop :=
  encode .wrSig = 0x00000051 ∧ Instr.hostIssuable .wrSig = false ∧
  ∀ s : State, (∀ k < 8, s.sinkDraws.answer k = .accept) →
    exec .wrSig s = .next { s with
      sink := s.sink ++ [0x89, 0x50, 0x4E, 0x47, 0x0D, 0x0A, 0x1A, 0x0A]
      offered := s.offered ++ [0x89, 0x50, 0x4E, 0x47, 0x0D, 0x0A, 0x1A, 0x0A]
      sinkDraws := s.sinkDraws.drop 8
      wstate := .signatureWritten }

/-- R223, R114: the header chunk: the 25 bytes sent, the 17 mirrored, the checksum, and WSTATE. Outside the writer's
order of R226, and on an illegal or not admitted descriptor, it is the model's, logs 20 and 24. -/
def Obligations.WrIhdrSendsTheHeaderChunk : Prop :=
  encode .wrIhdr = 0x00000052 ∧ Instr.hostIssuable .wrIhdr = false ∧
  ∀ (s : State) (cap : Word), s.tblOk → s.accCap = some cap → 17 ≤ cap.toNat →
    (∀ k < 25, s.sinkDraws.answer k = .accept) →
    let body := [0x49, 0x48, 0x44, 0x52] ++ be32 s.width ++ be32 s.height ++ [s.depth, s.cmode, 0x00, 0x00, 0x00]
    let bytes := [0x00, 0x00, 0x00, 0x0D] ++ body ++ be32 (crc32 body)
    ∃ t, exec .wrIhdr s = .next t ∧
      t = { s with
        sink := s.sink ++ bytes
        offered := s.offered ++ bytes
        sinkDraws := s.sinkDraws.drop 25
        accIdx := some 17
        accbuf := t.accbuf
        tbl := tblc
        tblValid := true
        crcAcc := body.foldl crcStep 0xFFFFFFFF
        crcOut := crc32 body
        wstate := .headerWritten } ∧
      (∀ a < 17, t.accbuf.read a = body[a]?) ∧ (∀ a, 17 ≤ a → t.accbuf.read a = s.accbuf.read a)

/-- R224, R115: the data chunk: length, tag, the compressed bytes verbatim, checksum, for every length from 0 on.
Outside the writer's order of R226 it is the model's, log 20. -/
def Obligations.WrIdatSendsTheDataChunk : Prop :=
  encode .wrIdat = 0x00000053 ∧ Instr.hostIssuable .wrIdat = false ∧
  ∀ (s : State) (cap n : Word) (z : List Byte), s.tblOk → s.accCap = some cap → s.compLen = some n →
    z.length = n.toNat → (∀ a < n.toNat, s.comp.read a = z[a]?) → 4 + n.toNat ≤ cap.toNat →
    (∀ k < 12 + n.toNat, s.sinkDraws.answer k = .accept) →
    let body := [0x49, 0x44, 0x41, 0x54] ++ z
    let bytes := be32 n ++ body ++ be32 (crc32 body)
    ∃ t, exec .wrIdat s = .next t ∧
      t = { s with
        sink := s.sink ++ bytes
        offered := s.offered ++ bytes
        sinkDraws := s.sinkDraws.drop (12 + n.toNat)
        accIdx := some (4 + n)
        accbuf := t.accbuf
        tbl := tblc
        tblValid := true
        crcAcc := body.foldl crcStep 0xFFFFFFFF
        crcOut := crc32 body
        wstate := .dataWritten } ∧
      (∀ a < 4 + n.toNat, t.accbuf.read a = body[a]?) ∧
      (∀ a, 4 + n.toNat ≤ a → t.accbuf.read a = s.accbuf.read a)

/-- R225, R116: the trailer chunk is the same twelve bytes for every image. Outside the writer's order of R226 it is
the model's, log 20. -/
def Obligations.WrIendSendsTheTrailerChunk : Prop :=
  encode .wrIend = 0x00000054 ∧ Instr.hostIssuable .wrIend = false ∧
  ∀ (s : State) (cap : Word), s.tblOk → s.accCap = some cap → 4 ≤ cap.toNat →
    (∀ k < 12, s.sinkDraws.answer k = .accept) →
    let bytes : List Byte := [0x00, 0x00, 0x00, 0x00, 0x49, 0x45, 0x4E, 0x44, 0xAE, 0x42, 0x60, 0x82]
    ∃ t, exec .wrIend s = .next t ∧
      t = { s with
        sink := s.sink ++ bytes
        offered := s.offered ++ bytes
        sinkDraws := s.sinkDraws.drop 12
        accIdx := some 4
        accbuf := t.accbuf
        tbl := tblc
        tblValid := true
        crcAcc := 0x51BD9F7D
        crcOut := 0xAE426082
        wstate := .trailerWritten } ∧
      (∀ a < 4, t.accbuf.read a = ([0x49, 0x45, 0x4E, 0x44] : List Byte)[a]?) ∧
      (∀ a, 4 ≤ a → t.accbuf.read a = s.accbuf.read a)

/-- R285, R292, R293, R216: when the sink rejects a write of a chunk operation or of WR.SIG, the bytes before it are
in SINK and no other, the error is IOError (on the very byte that would overflow ACCBUF too), WSTATE and the host's
registers stay, the buffers are released. -/
def Obligations.SinkRejectionKeepsAPrefix : Prop :=
  ∀ (s : State) (i : Instr) (bytes : List Byte) (k : Nat),
    (i = .wrSig ∧ bytes = Config.sig ∨
      ∃ tag data cap, sendsChunk s i tag data ∧ bytes = chunk tag data ∧ s.accCap = some cap ∧
        (4 + data.length ≤ cap.toNat ∨ k ≤ 4 + cap.toNat)) →
    s.tblOk → k < bytes.length → (∀ m < k, s.sinkDraws.answer m = .accept) → s.sinkDraws.answer k = .reject →
    ∃ t, exec i s = .next t ∧ t.sink = s.sink ++ bytes.take k ∧ t.offered = s.offered ++ bytes.take (k + 1) ∧
      t.sinkDraws = s.sinkDraws.drop (k + 1) ∧
      t.errReg = errWord 4 s.phase.code 0x31 s.wstate.code ∧ t.err = true ∧ t.phase = .failed ∧
      t.wstate = s.wstate ∧ t.done = s.done ∧ released t ∧
      (k + 4 < bytes.length ∨ i = .wrSig →
        t.crcAcc = s.crcAcc ∧ t.crcOut = s.crcOut ∧ t.tbl = s.tbl ∧ t.tblValid = s.tblValid) ∧
      t.width = s.width ∧ t.height = s.height ∧ t.depth = s.depth ∧ t.cmode = s.cmode ∧ t.fkind = s.fkind ∧
      t.level = s.level ∧ t.ch = s.ch

/-- R214, R216, R284: when ACCBUF is too small for a chunk, the error is InternalInvariantError at mirrored byte
number ACC_CAP + 1, and that byte is already in SINK; no checksum register changes. -/
def Obligations.AccumulatorOverflowIsDetected : Prop :=
  ∀ (s : State) (i : Instr) (tag data : List Byte) (cap : Word),
    sendsChunk s i tag data → s.accCap = some cap → cap.toNat < 4 + data.length →
    (∀ m < 4 + cap.toNat + 1, s.sinkDraws.answer m = .accept) →
    ∃ t, exec i s = .next t ∧ t.sink = s.sink ++ (chunk tag data).take (4 + cap.toNat + 1) ∧
      t.offered = s.offered ++ (chunk tag data).take (4 + cap.toNat + 1) ∧
      t.errReg = errWord 3 s.phase.code 0x21 s.wstate.code ∧ t.err = true ∧ t.phase = .failed ∧
      t.wstate = s.wstate ∧ t.done = s.done ∧ released t ∧ t.crcAcc = s.crcAcc ∧ t.crcOut = s.crcOut ∧
      t.tbl = s.tbl ∧ t.tblValid = s.tblValid ∧ t.width = s.width ∧ t.height = s.height ∧ t.depth = s.depth ∧
      t.cmode = s.cmode ∧ t.fkind = s.fkind ∧ t.level = s.level ∧ t.ch = s.ch

/-- R47, R327, 92 D32, 93 U9: run where COMP_LEN, a cell of COMP below it, or ACC_CAP holds no value, or where the sink never
answers a write, the writer's operations stop (the silent answer is log 6). -/
def Obligations.WriterStopsWithoutBuffersOrSink : Prop :=
  ∀ s : State,
    (s.compLen = none → exec .wrIdat s = .fault .releasedRegister) ∧
    (∀ (n : Word) (a : Nat), s.compLen = some n → a < n.toNat → s.comp.read a = none →
      exec .wrIdat s = .fault .unwrittenBufferCell) ∧
    (∀ i tag data, sendsChunk s i tag data → s.accCap = none → (∀ k < 5, s.sinkDraws.answer k = .accept) →
      exec i s = .fault .releasedRegister) ∧
    (∀ (i : Instr) (bytes : List Byte) (k : Nat),
      (i = .wrSig ∧ bytes = Config.sig ∨
        ∃ tag data cap, sendsChunk s i tag data ∧ bytes = chunk tag data ∧ s.accCap = some cap ∧
          (4 + data.length ≤ cap.toNat ∨ k ≤ 4 + cap.toNat)) →
      k < bytes.length → (∀ m < k, s.sinkDraws.answer m = .accept) → s.sinkDraws.answer k = .silent →
      exec i s = .fault .sinkNeverAnswers)

/-! ## ENCODE -/

/-- R252, R211, R261: a successful ENCODE: the bytes sent, the one call of the compressor with the filtered bytes,
every register it leaves, and nothing else changed. -/
def Obligations.EncodeProducesTheStream : Prop :=
  encode .encode = 0x00000001 ∧ Instr.hostIssuable .encode = true ∧
  ∀ (s : State) (kind : FilterKind) (z : List Byte),
    s.configOk → s.admitted = true → s.channelsWritten → s.tblOk → FilterKind.ofCode s.fkind = some kind →
    s.compDraws.head = .ok z → z.length ≤ s.compCapParam.toNat →
    17 ≤ s.accCapParam.toNat → 4 + z.length ≤ s.accCapParam.toNat →
    (∀ k < 57 + z.length, s.sinkDraws.answer k = .accept) →
    (encodeStream s z).length = 57 + z.length ∧
    exec .encode s = .next { s with
      done := true
      phase := .done
      wstate := .trailerWritten
      tbl := tblc
      tblValid := true
      crcAcc := 0x51BD9F7D
      crcOut := 0xAE426082
      raw := [], filt := [], comp := [], accbuf := []
      accIdx := none, accCap := none, compCap := none, compLen := none
      sink := s.sink ++ encodeStream s z
      offered := s.offered ++ encodeStream s z
      sinkDraws := s.sinkDraws.drop (57 + z.length)
      compDraws := ⟨s.compDraws.script.tail, s.compDraws.thereafter⟩
      compCalls := s.compCalls ++ [⟨filteredFrame kind s, s.compCapParam, s.level⟩] }

/-- R261, R227, R283, R284: the failures of ENCODE on an admitted descriptor with every write accepted: which error,
and what is in the sink. -/
def Obligations.EncodeFailsAsTheFunctionE : Prop :=
  ∀ s : State, s.configOk → s.admitted = true → s.channelsWritten → s.tblOk →
    (∀ f, s.compDraws.head = .fail f →
      ∃ t, exec .encode s = .next t ∧ t.sink = s.sink ∧ t.offered = s.offered ∧ t.phase = .failed ∧
        t.err = true ∧ t.done = false ∧ t.wstate = .start ∧ t.errReg = errWord 2 4 f.cause.code 0 ∧
        t.crcAcc = s.crcAcc ∧ t.crcOut = s.crcOut ∧ t.tbl = s.tbl ∧ t.tblValid = s.tblValid ∧ released t) ∧
    (∀ z, s.compDraws.head = .ok z → z.length ≤ s.compCapParam.toNat →
      (∀ k < 57 + z.length, s.sinkDraws.answer k = .accept) →
      (s.accCapParam.toNat < 17 →
        ∃ t, exec .encode s = .next t ∧
          t.sink = s.sink ++ (encodeStream s z).take (8 + 4 + s.accCapParam.toNat + 1) ∧ t.phase = .failed ∧
          t.err = true ∧ t.done = false ∧ t.wstate = .signatureWritten ∧ t.errReg = 0x00012153 ∧
          t.crcAcc = s.crcAcc ∧ t.crcOut = s.crcOut ∧ released t) ∧
      (17 ≤ s.accCapParam.toNat → s.accCapParam.toNat < 4 + z.length →
        ∃ t, exec .encode s = .next t ∧
          t.sink = s.sink ++ (encodeStream s z).take (33 + 4 + s.accCapParam.toNat + 1) ∧ t.phase = .failed ∧
          t.err = true ∧ t.done = false ∧ t.wstate = .headerWritten ∧ t.errReg = 0x00022153 ∧
          t.crcOut = crc32 (Config.tagIhdr ++ ihdrData s) ∧ released t))

/-- R261, R285, R291: when the sink rejects its write number k (counted from 0) OUT is the first k bytes of the
success stream, and ERR says in which writer state. -/
def Obligations.EncodeStopsAtTheRejectedWrite : Prop :=
  ∀ (s : State) (z : List Byte) (k : Nat),
    s.configOk → s.admitted = true → s.channelsWritten → s.tblOk →
    s.compDraws.head = .ok z → z.length ≤ s.compCapParam.toNat →
    17 ≤ s.accCapParam.toNat → 4 + z.length ≤ s.accCapParam.toNat →
    k < 57 + z.length → (∀ m < k, s.sinkDraws.answer m = .accept) → s.sinkDraws.answer k = .reject →
    ∃ t, exec .encode s = .next t ∧ t.sink = s.sink ++ (encodeStream s z).take k ∧
      t.offered = s.offered ++ (encodeStream s z).take (k + 1) ∧ t.phase = .failed ∧ t.err = true ∧
      t.done = false ∧ released t ∧
      t.errReg =
        (if k < 8 then 0x00003154 else if k < 33 then 0x00013154
         else if k < 45 + z.length then 0x00023154 else 0x00033154) ∧
      t.wstate =
        (if k < 8 then .start else if k < 33 then .signatureWritten
         else if k < 45 + z.length then .headerWritten else .dataWritten)

/-- R282: an ENCODE with a bad DEPTH, CMODE or FKIND reports the first of them and leaves SINK, the compressor, the
buffers, TBL and the checksum registers alone: DONE, STATUS.ERR, ERR, PHASE and WSTATE are all that changes. -/
def Obligations.EncodeReportsConfigurationErrors : Prop :=
  ∀ s : State, released s → ¬ s.configOk →
    exec .encode s = .next { s with
      done := false
      err := true
      phase := .failed
      wstate := .start
      errReg :=
        if s.depth ≠ 8 ∧ s.depth ≠ 16 then 0x00000111
        else if s.cmode ≠ 2 ∧ s.cmode ≠ 6 then 0x00000211
        else 0x00000311 }

/-- R10, R253: an ENCODE whose descriptor passes CFG.CHK is refused exactly where WIDTH ≥ 1, HEIGHT ≥ 1 and F + 5 <
2^32 do not all hold. -/
def Obligations.EncodeRefusesDescriptorsNotAdmitted : Prop :=
  ∀ s : State, s.configOk →
    (exec .encode s = .refused .descriptorNotAdmitted ↔
      ¬ (1 ≤ s.width.toNat ∧ 1 ≤ s.height.toNat ∧
        s.height.toNat * (s.width.toNat * ((if s.cmode = 2 then 3 else 4) * (if s.depth = 8 then 1 else 2)) + 1) + 5
          < 2 ^ 32))

/-- R107, R252: ENCODE is its fixed sequence of command words: issuing them one after another through the sequencer's
port, each in its phase, up to the first error, gives the same state. The port is the model's (log 9). -/
def Obligations.EncodeRunsTheFixedSequence : Prop :=
  ∀ s : State, s.seqSlot = none → (s.configOk → s.admitted = true) →
    exec .encode s =
      (match runSequence (fixedSequence s.fkind) (beginEncode s) with
       | .next t => if t.phase = .failed then .next t else .next (finishEncode t)
       | .fault f => .fault f
       | .refused r => .refused r)

/-- R331, R284, R285, R293: whatever the draws, the bytes an ENCODE adds to SINK are a prefix of the success stream
for the compressor's answer, all of it exactly when DONE is set; without an answer of bytes nothing is added. -/
def Obligations.EncodeOutputIsAPrefixOfTheStream : Prop :=
  ∀ s t : State, s.tblOk → exec .encode s = .next t →
    ∃ out, t.sink = s.sink ++ out ∧
      ((out = [] ∧ t.done = false) ∨
        ∃ z, s.compDraws.head = .ok z ∧ out <+: encodeStream s z ∧ (t.done = true ↔ out = encodeStream s z))

/-- R47, R64, R280: inside an ENCODE no read meets a buffer cell or working register that holds no value: an ENCODE
stops only for an unwritten channel cell or a collaborator that never answers, and is refused only for a descriptor
not admitted or a compressor outside its contract. -/
def Obligations.EncodeReadsOnlyWhatItWrote : Prop :=
  ∀ s : State,
    (∀ f, exec .encode s = .fault f →
      f = .unwrittenChannelCell ∨ f = .compressorNeverAnswers ∨ f = .sinkNeverAnswers) ∧
    (∀ r, exec .encode s = .refused r → r = .descriptorNotAdmitted ∨ r = .compressorOverran)

/-- R46, R327: no ENCODE depends on what an earlier command left in CRC_ACC, CRC_OUT, DONE, PHASE, WSTATE or the
buffers: changed in all of them it ends in the same state, or, where it never wrote CRC_ACC and CRC_OUT, in the same
state but for those two, each run keeping its own; a fault or a refusal is the same. -/
def Obligations.EncodeIgnoresWhatEarlierCommandsLeft : Prop :=
  ∀ (s s' : State),
    s' = { s with
      crcAcc := s'.crcAcc, crcOut := s'.crcOut, done := s'.done, phase := s'.phase, wstate := s'.wstate
      raw := s'.raw, filt := s'.filt, comp := s'.comp, accbuf := s'.accbuf
      accIdx := s'.accIdx, accCap := s'.accCap, compCap := s'.compCap, compLen := s'.compLen } →
    (∀ t, exec .encode s = .next t →
      exec .encode s' = .next t ∨
        t.done = false ∧ t.crcAcc = s.crcAcc ∧ t.crcOut = s.crcOut ∧
        exec .encode s' = .next { t with crcAcc := s'.crcAcc, crcOut := s'.crcOut }) ∧
    (∀ f, exec .encode s = .fault f → exec .encode s' = .fault f) ∧
    (∀ r, exec .encode s = .refused r → exec .encode s' = .refused r)

/-- R20, R68, R257: an ENCODE calls the compressor at most once, with all F filtered bytes, the capacity and LEVEL,
and offers no byte to the sink without it. -/
def Obligations.EncodeCallsTheCompressorAtMostOnce : Prop :=
  ∀ s t : State, exec .encode s = .next t →
    (t.compCalls = s.compCalls ∧ t.compDraws = s.compDraws ∧ t.offered = s.offered) ∨
    (∃ kind, FilterKind.ofCode s.fkind = some kind ∧
      t.compCalls = s.compCalls ++ [⟨filteredFrame kind s, s.compCapParam, s.level⟩] ∧
      t.compDraws = ⟨s.compDraws.script.tail, s.compDraws.thereafter⟩)

/-! ## The whole machine -/

/-- R43, R46, R48: no operation writes the host's inputs: the descriptor, LEVEL and the channel banks; nor the
parameters and the host's queue, which are the model's own. -/
def Obligations.OperationsLeaveTheInputsAlone : Prop :=
  ∀ (i : Instr) (s t : State), exec i s = .next t →
    t.width = s.width ∧ t.height = s.height ∧ t.depth = s.depth ∧ t.cmode = s.cmode ∧ t.fkind = s.fkind ∧
    t.level = s.level ∧ t.ch = s.ch ∧ t.accCaps = s.accCaps ∧ t.compCaps = s.compCaps ∧ t.bus = s.bus ∧
    t.hostRead = s.hostRead ∧ t.seqSlot = s.seqSlot

/-- R30 to R34, R226: who writes the flags, PHASE, WSTATE and the checksum registers: an operation other than ENCODE
leaves DONE alone, keeps PHASE or raises an error, and moves WSTATE only by the writer's transition that is its own;
TBL_VALID is never cleared; ENCODE ends in Done or Failed. -/
def Obligations.FlagsAndPhaseHaveTheirWriters : Prop :=
  ∀ (i : Instr) (s t : State), exec i s = .next t →
    (s.tblValid = true → t.tblValid = true) ∧
    (i ≠ .encode → t.done = s.done ∧
      (t.phase = s.phase ∧ t.err = s.err ∧ t.errReg = s.errReg ∨ t.phase = .failed ∧ t.err = true)) ∧
    (i ≠ .encode → t.wstate = s.wstate ∨
      (i, t.wstate) ∈ [(Instr.wrSig, WState.signatureWritten), (.wrIhdr, .headerWritten), (.wrIdat, .dataWritten),
        (.wrIend, .trailerWritten)]) ∧
    (i = .encode → t.phase = .done ∧ t.done = true ∧ t.wstate = .trailerWritten ∧ t.err = s.err ∨
      t.phase = .failed ∧ t.done = false ∧ t.wstate ≠ .trailerWritten ∧ t.err = true) ∧
    (t.crcAcc ≠ s.crcAcc → (∃ b, i = .crcUpd b) ∨
      i ∈ [Instr.crcInit, .crcBuf, .wrIhdr, .wrIdat, .wrIend, .encode]) ∧
    (t.crcOut ≠ s.crcOut → i ∈ [Instr.crcFin, .crcBuf, .wrIhdr, .wrIdat, .wrIend, .encode]) ∧
    (t.tbl ≠ s.tbl ∨ t.tblValid ≠ s.tblValid → (∃ b, i = .crcUpd b) ∨
      i ∈ [Instr.crcTbl, .crcInit, .crcBuf, .wrIhdr, .wrIdat, .wrIend, .encode])

/-- R37 to R43, R47, R306: each space has one writer: an operation that is not its writer keeps it, or releases all of
them together, which only ENCODE at its end and the error entry of an operation that can raise an error do. -/
def Obligations.EachSpaceHasOneWriter : Prop :=
  ∀ (i : Instr) (s t : State), exec i s = .next t →
    let releasing := released t ∧
      (i = .encode ∨
        i ∈ [Instr.cfgChk, .cmpCall, .wrSig, .wrIhdr, .wrIdat, .wrIend] ∧ t.phase = .failed ∧ t.err = true)
    (i ≠ .slbBuild → t.raw = s.raw ∨ releasing) ∧
    (i ∉ [Instr.fltNone, .fltSub, .fltUp, .fltAvg, .fltPaeth] → t.filt = s.filt ∨ releasing) ∧
    (i ≠ .cmpCall → t.comp = s.comp ∧ t.compLen = s.compLen ∧ t.compCap = s.compCap ∨ releasing) ∧
    (i ∉ [Instr.wrIhdr, .wrIdat, .wrIend] → t.accbuf = s.accbuf ∨ releasing) ∧
    (i ∉ [Instr.accSize, .wrIhdr, .wrIdat, .wrIend] → t.accIdx = s.accIdx ∨ releasing) ∧
    (i ≠ .accSize → t.accCap = s.accCap ∨ releasing) ∧
    (i ∉ [Instr.wrSig, .wrIhdr, .wrIdat, .wrIend, .encode] → t.sink = s.sink ∧ t.offered = s.offered) ∧
    (i ∉ [Instr.cmpCall, .encode] → t.compCalls = s.compCalls)

/-- R42, R70, R293: no step takes a byte back: SINK only grows. -/
def Obligations.SinkOnlyGrows : Prop :=
  ∀ s t : State, step s = .next t → s.sink <+: t.sink ∧ s.offered <+: t.offered

/-- R26, R32, R47, R184, R281, R284: every step keeps the invariant: the table, the error registers, the canonical
memories, ACC_IDX within ACC_CAP, COMP_LEN within COMP_CAP. -/
def Obligations.EveryStepKeepsTheInvariant : Prop :=
  ∀ s t : State, Inv s → step s = .next t → Inv t

/-- R50: the invariant holds after reset. -/
def Obligations.ResetMeetsTheInvariant : Prop :=
  Inv State.reset ∧ BetweenCommands State.reset

/-- R21, R30, R32, R47: between the host's commands PHASE is 0, 6 or 7, DONE goes with PHASE = Done and WSTATE =
TrailerWritten, and the buffers hold no value; every step the host drives keeps this. -/
def Obligations.TheHostNeverSeesTheMiddle : Prop :=
  ∀ s t : State, BetweenCommands s → step s = .next t → BetweenCommands t
end

