-- ==== Sys2Proof/Laws/Memory.lean ====
section
/-! SUPPORT. The laws of a memory space: read after write, other cells untouched, the canonical form kept, and equal
memories being equal lists. -/

namespace Sys2Proof.Machine

variable {w : Nat}

@[simp] theorem Memory.read_nil (a : Nat) : Memory.read ([] : Memory w) a = none := rfl

theorem Memory.read_cons (k : Nat) (v : BitVec w) (m : Memory w) (a : Nat) :
    Memory.read ((k, v) :: m) a = if a = k then some v else Memory.read m a := rfl

/-- A read after a write to the same cell gives the value written. -/
@[simp] theorem Memory.read_write_same (m : Memory w) (a : Nat) (b : BitVec w) : (m.write a b).read a = some b := by
  induction m with
  | nil => simp [Memory.write, Memory.read_cons]
  | cons e m ih =>
    obtain ⟨k, v⟩ := e
    unfold Memory.write
    split
    · simp [Memory.read_cons]
    · split
      · simp [Memory.read_cons]
      · rename_i h; simp [Memory.read_cons, h, ih]

/-- A write leaves every other cell alone. -/
theorem Memory.read_write_other (m : Memory w) {a a' : Nat} (b : BitVec w) (h : a' ≠ a) :
    (m.write a b).read a' = m.read a' := by
  induction m with
  | nil => simp [Memory.write, Memory.read_cons, h]
  | cons e m ih =>
    obtain ⟨k, v⟩ := e
    unfold Memory.write
    split
    · simp [Memory.read_cons, h]
    · split
      · rename_i h2; subst h2; simp [Memory.read_cons, h]
      · simp [Memory.read_cons, ih]

theorem Memory.read_write (m : Memory w) (a a' : Nat) (b : BitVec w) :
    (m.write a b).read a' = if a' = a then some b else m.read a' := by
  split
  · rename_i h; subst h; simp
  · rename_i h; exact Memory.read_write_other m b h

/-- Writing consecutive cells: those cells hold the values, the others are untouched. -/
theorem Memory.read_writeSeq (bs : List (BitVec w)) (m : Memory w) (a a' : Nat) :
    (m.writeSeq a bs).read a' = if a ≤ a' ∧ a' < a + bs.length then bs[a' - a]? else m.read a' := by
  induction bs generalizing m a with
  | nil => rw [Memory.writeSeq, if_neg]; simp
  | cons b bs ih =>
    rw [Memory.writeSeq, ih, Memory.read_write]
    by_cases h : a' = a
    · subst h; simp
    · by_cases h2 : a + 1 ≤ a' ∧ a' < a + 1 + bs.length
      · rw [if_pos h2, if_pos (by simp; omega)]
        obtain ⟨d, hd⟩ : ∃ d, a' - a = d + 1 := ⟨a' - a - 1, by omega⟩
        rw [hd, List.getElem?_cons_succ]; congr 1; omega
      · rw [if_neg h2, if_neg h, if_neg (by simp; omega)]

theorem Memory.risingFrom_write (m : Memory w) (lo a : Nat) (b : BitVec w) (hm : Memory.risingFrom lo m = true)
    (ha : lo ≤ a) : Memory.risingFrom lo (m.write a b) = true := by
  induction m generalizing lo with
  | nil => simp [Memory.write, Memory.risingFrom, ha]
  | cons e m ih =>
    obtain ⟨k, v⟩ := e
    simp only [Memory.risingFrom, Bool.and_eq_true, decide_eq_true_eq] at hm
    unfold Memory.write
    split
    · simp [Memory.risingFrom, ha, hm.2]; omega
    · split
      · rename_i h; subst h; simp [Memory.risingFrom, ha, hm.2]
      · simp only [Memory.risingFrom, Bool.and_eq_true, decide_eq_true_eq]
        exact ⟨hm.1, ih (k + 1) hm.2 (by omega)⟩

/-- A write keeps the canonical form. -/
theorem Memory.wf_write (m : Memory w) (a : Nat) (b : BitVec w) (hm : m.wf = true) : (m.write a b).wf = true :=
  Memory.risingFrom_write m 0 a b hm (Nat.zero_le a)

/-- Writing a sequence keeps the canonical form. -/
theorem Memory.wf_writeSeq (bs : List (BitVec w)) (m : Memory w) (a : Nat) (hm : m.wf = true) :
    (m.writeSeq a bs).wf = true := by
  induction bs generalizing m a with
  | nil => exact hm
  | cons b bs ih => exact ih (m.write a b) (a + 1) (Memory.wf_write m a b hm)

@[simp] theorem Memory.wf_nil : Memory.wf ([] : Memory w) = true := rfl

theorem Memory.read_below (m : Memory w) (lo a : Nat) (hm : Memory.risingFrom lo m = true) (ha : a < lo) :
    m.read a = none := by
  induction m generalizing lo with
  | nil => rfl
  | cons e m ih =>
    obtain ⟨k, v⟩ := e
    simp only [Memory.risingFrom, Bool.and_eq_true, decide_eq_true_eq] at hm
    rw [Memory.read_cons, if_neg (by omega)]
    exact ih (k + 1) hm.2 (by omega)

theorem Memory.ext_risingFrom (m m' : Memory w) (lo : Nat) (hm : Memory.risingFrom lo m = true)
    (hm' : Memory.risingFrom lo m' = true) (h : ∀ a, m.read a = m'.read a) : m = m' := by
  induction m generalizing lo m' with
  | nil =>
    cases m' with
    | nil => rfl
    | cons e m' => obtain ⟨k, v⟩ := e; have := h k; simp [Memory.read_cons] at this
  | cons e m ih =>
    obtain ⟨k, v⟩ := e
    cases m' with
    | nil => have := h k; simp [Memory.read_cons] at this
    | cons e' m' =>
      obtain ⟨k', v'⟩ := e'
      simp only [Memory.risingFrom, Bool.and_eq_true, decide_eq_true_eq] at hm hm'
      have hk : k = k' := by
        rcases Nat.lt_trichotomy k k' with hlt | heq | hgt
        · have := h k
          rw [Memory.read_cons, if_pos rfl, Memory.read_cons, if_neg (by omega),
            Memory.read_below m' (k' + 1) k hm'.2 (by omega)] at this
          cases this
        · exact heq
        · have := h k'
          rw [Memory.read_cons, if_neg (by omega), Memory.read_cons, if_pos rfl,
            Memory.read_below m (k + 1) k' hm.2 (by omega)] at this
          cases this
      subst hk
      have hv := h k
      simp only [Memory.read_cons, if_true, Option.some.injEq] at hv
      subst hv
      congr 1
      refine ih m' (k + 1) hm.2 hm'.2 fun a => ?_
      by_cases ha : a = k
      · subst ha
        rw [Memory.read_below m (a + 1) a hm.2 (by omega), Memory.read_below m' (a + 1) a hm'.2 (by omega)]
      · have := h a
        rwa [Memory.read_cons, if_neg ha, Memory.read_cons, if_neg ha] at this

/-- Equal memories are equal data: two canonical memories that read alike are the same list. -/
theorem Memory.ext_of_wf (m m' : Memory w) (hm : m.wf = true) (hm' : m'.wf = true)
    (h : ∀ a, m.read a = m'.read a) : m = m' :=
  Memory.ext_risingFrom m m' 0 hm hm' h

end Sys2Proof.Machine
end

