-- ==== Sys2Proof/Laws/State.lean ====
section
/-! SUPPORT. What each named update of the state does to each field: one lemma per field, true by unfolding. -/

namespace Sys2Proof.Machine

/-! Releasing the buffers (10 R47). -/

@[simp] theorem release_done (s : State) : (release s).done = s.done := rfl
@[simp] theorem release_err (s : State) : (release s).err = s.err := rfl
@[simp] theorem release_tblValid (s : State) : (release s).tblValid = s.tblValid := rfl
@[simp] theorem release_phase (s : State) : (release s).phase = s.phase := rfl
@[simp] theorem release_wstate (s : State) : (release s).wstate = s.wstate := rfl
@[simp] theorem release_errReg (s : State) : (release s).errReg = s.errReg := rfl
@[simp] theorem release_width (s : State) : (release s).width = s.width := rfl
@[simp] theorem release_height (s : State) : (release s).height = s.height := rfl
@[simp] theorem release_depth (s : State) : (release s).depth = s.depth := rfl
@[simp] theorem release_cmode (s : State) : (release s).cmode = s.cmode := rfl
@[simp] theorem release_fkind (s : State) : (release s).fkind = s.fkind := rfl
@[simp] theorem release_level (s : State) : (release s).level = s.level := rfl
@[simp] theorem release_crcAcc (s : State) : (release s).crcAcc = s.crcAcc := rfl
@[simp] theorem release_crcOut (s : State) : (release s).crcOut = s.crcOut := rfl
@[simp] theorem release_tbl (s : State) : (release s).tbl = s.tbl := rfl
@[simp] theorem release_ch (s : State) : (release s).ch = s.ch := rfl
@[simp] theorem release_raw (s : State) : (release s).raw = [] := rfl
@[simp] theorem release_filt (s : State) : (release s).filt = [] := rfl
@[simp] theorem release_comp (s : State) : (release s).comp = [] := rfl
@[simp] theorem release_accbuf (s : State) : (release s).accbuf = [] := rfl
@[simp] theorem release_accIdx (s : State) : (release s).accIdx = none := rfl
@[simp] theorem release_accCap (s : State) : (release s).accCap = none := rfl
@[simp] theorem release_compCap (s : State) : (release s).compCap = none := rfl
@[simp] theorem release_compLen (s : State) : (release s).compLen = none := rfl
@[simp] theorem release_sink (s : State) : (release s).sink = s.sink := rfl
@[simp] theorem release_offered (s : State) : (release s).offered = s.offered := rfl
@[simp] theorem release_compCalls (s : State) : (release s).compCalls = s.compCalls := rfl
@[simp] theorem release_sinkDraws (s : State) : (release s).sinkDraws = s.sinkDraws := rfl
@[simp] theorem release_compDraws (s : State) : (release s).compDraws = s.compDraws := rfl
@[simp] theorem release_accCaps (s : State) : (release s).accCaps = s.accCaps := rfl
@[simp] theorem release_compCaps (s : State) : (release s).compCaps = s.compCaps := rfl
@[simp] theorem release_bus (s : State) : (release s).bus = s.bus := rfl
@[simp] theorem release_hostRead (s : State) : (release s).hostRead = s.hostRead := rfl
@[simp] theorem release_seqSlot (s : State) : (release s).seqSlot = s.seqSlot := rfl

/-! Error entry (60 R290). -/

@[simp] theorem errorEntry_done (c : Cause) (s : State) : (errorEntry c s).done = s.done := rfl
@[simp] theorem errorEntry_err (c : Cause) (s : State) : (errorEntry c s).err = true := rfl
@[simp] theorem errorEntry_tblValid (c : Cause) (s : State) : (errorEntry c s).tblValid = s.tblValid := rfl
@[simp] theorem errorEntry_phase (c : Cause) (s : State) : (errorEntry c s).phase = .failed := rfl
@[simp] theorem errorEntry_wstate (c : Cause) (s : State) : (errorEntry c s).wstate = s.wstate := rfl
@[simp] theorem errorEntry_errReg (c : Cause) (s : State) : (errorEntry c s).errReg = errWord c.kind.code s.phase.code c.code s.wstate.code := rfl
@[simp] theorem errorEntry_width (c : Cause) (s : State) : (errorEntry c s).width = s.width := rfl
@[simp] theorem errorEntry_height (c : Cause) (s : State) : (errorEntry c s).height = s.height := rfl
@[simp] theorem errorEntry_depth (c : Cause) (s : State) : (errorEntry c s).depth = s.depth := rfl
@[simp] theorem errorEntry_cmode (c : Cause) (s : State) : (errorEntry c s).cmode = s.cmode := rfl
@[simp] theorem errorEntry_fkind (c : Cause) (s : State) : (errorEntry c s).fkind = s.fkind := rfl
@[simp] theorem errorEntry_level (c : Cause) (s : State) : (errorEntry c s).level = s.level := rfl
@[simp] theorem errorEntry_crcAcc (c : Cause) (s : State) : (errorEntry c s).crcAcc = s.crcAcc := rfl
@[simp] theorem errorEntry_crcOut (c : Cause) (s : State) : (errorEntry c s).crcOut = s.crcOut := rfl
@[simp] theorem errorEntry_tbl (c : Cause) (s : State) : (errorEntry c s).tbl = s.tbl := rfl
@[simp] theorem errorEntry_ch (c : Cause) (s : State) : (errorEntry c s).ch = s.ch := rfl
@[simp] theorem errorEntry_raw (c : Cause) (s : State) : (errorEntry c s).raw = [] := rfl
@[simp] theorem errorEntry_filt (c : Cause) (s : State) : (errorEntry c s).filt = [] := rfl
@[simp] theorem errorEntry_comp (c : Cause) (s : State) : (errorEntry c s).comp = [] := rfl
@[simp] theorem errorEntry_accbuf (c : Cause) (s : State) : (errorEntry c s).accbuf = [] := rfl
@[simp] theorem errorEntry_accIdx (c : Cause) (s : State) : (errorEntry c s).accIdx = none := rfl
@[simp] theorem errorEntry_accCap (c : Cause) (s : State) : (errorEntry c s).accCap = none := rfl
@[simp] theorem errorEntry_compCap (c : Cause) (s : State) : (errorEntry c s).compCap = none := rfl
@[simp] theorem errorEntry_compLen (c : Cause) (s : State) : (errorEntry c s).compLen = none := rfl
@[simp] theorem errorEntry_sink (c : Cause) (s : State) : (errorEntry c s).sink = s.sink := rfl
@[simp] theorem errorEntry_offered (c : Cause) (s : State) : (errorEntry c s).offered = s.offered := rfl
@[simp] theorem errorEntry_compCalls (c : Cause) (s : State) : (errorEntry c s).compCalls = s.compCalls := rfl
@[simp] theorem errorEntry_sinkDraws (c : Cause) (s : State) : (errorEntry c s).sinkDraws = s.sinkDraws := rfl
@[simp] theorem errorEntry_compDraws (c : Cause) (s : State) : (errorEntry c s).compDraws = s.compDraws := rfl
@[simp] theorem errorEntry_accCaps (c : Cause) (s : State) : (errorEntry c s).accCaps = s.accCaps := rfl
@[simp] theorem errorEntry_compCaps (c : Cause) (s : State) : (errorEntry c s).compCaps = s.compCaps := rfl
@[simp] theorem errorEntry_bus (c : Cause) (s : State) : (errorEntry c s).bus = s.bus := rfl
@[simp] theorem errorEntry_hostRead (c : Cause) (s : State) : (errorEntry c s).hostRead = s.hostRead := rfl
@[simp] theorem errorEntry_seqSlot (c : Cause) (s : State) : (errorEntry c s).seqSlot = s.seqSlot := rfl

/-! CommandError (60 R287). -/

@[simp] theorem commandError_done (c : Cause) (s : State) : (commandError c s).done = s.done := rfl
@[simp] theorem commandError_err (c : Cause) (s : State) : (commandError c s).err = true := rfl
@[simp] theorem commandError_tblValid (c : Cause) (s : State) : (commandError c s).tblValid = s.tblValid := rfl
@[simp] theorem commandError_phase (c : Cause) (s : State) : (commandError c s).phase = s.phase := rfl
@[simp] theorem commandError_wstate (c : Cause) (s : State) : (commandError c s).wstate = s.wstate := rfl
@[simp] theorem commandError_errReg (c : Cause) (s : State) : (commandError c s).errReg = errWord c.kind.code 0 c.code 0 := rfl
@[simp] theorem commandError_width (c : Cause) (s : State) : (commandError c s).width = s.width := rfl
@[simp] theorem commandError_height (c : Cause) (s : State) : (commandError c s).height = s.height := rfl
@[simp] theorem commandError_depth (c : Cause) (s : State) : (commandError c s).depth = s.depth := rfl
@[simp] theorem commandError_cmode (c : Cause) (s : State) : (commandError c s).cmode = s.cmode := rfl
@[simp] theorem commandError_fkind (c : Cause) (s : State) : (commandError c s).fkind = s.fkind := rfl
@[simp] theorem commandError_level (c : Cause) (s : State) : (commandError c s).level = s.level := rfl
@[simp] theorem commandError_crcAcc (c : Cause) (s : State) : (commandError c s).crcAcc = s.crcAcc := rfl
@[simp] theorem commandError_crcOut (c : Cause) (s : State) : (commandError c s).crcOut = s.crcOut := rfl
@[simp] theorem commandError_tbl (c : Cause) (s : State) : (commandError c s).tbl = s.tbl := rfl
@[simp] theorem commandError_ch (c : Cause) (s : State) : (commandError c s).ch = s.ch := rfl
@[simp] theorem commandError_raw (c : Cause) (s : State) : (commandError c s).raw = s.raw := rfl
@[simp] theorem commandError_filt (c : Cause) (s : State) : (commandError c s).filt = s.filt := rfl
@[simp] theorem commandError_comp (c : Cause) (s : State) : (commandError c s).comp = s.comp := rfl
@[simp] theorem commandError_accbuf (c : Cause) (s : State) : (commandError c s).accbuf = s.accbuf := rfl
@[simp] theorem commandError_accIdx (c : Cause) (s : State) : (commandError c s).accIdx = s.accIdx := rfl
@[simp] theorem commandError_accCap (c : Cause) (s : State) : (commandError c s).accCap = s.accCap := rfl
@[simp] theorem commandError_compCap (c : Cause) (s : State) : (commandError c s).compCap = s.compCap := rfl
@[simp] theorem commandError_compLen (c : Cause) (s : State) : (commandError c s).compLen = s.compLen := rfl
@[simp] theorem commandError_sink (c : Cause) (s : State) : (commandError c s).sink = s.sink := rfl
@[simp] theorem commandError_offered (c : Cause) (s : State) : (commandError c s).offered = s.offered := rfl
@[simp] theorem commandError_compCalls (c : Cause) (s : State) : (commandError c s).compCalls = s.compCalls := rfl
@[simp] theorem commandError_sinkDraws (c : Cause) (s : State) : (commandError c s).sinkDraws = s.sinkDraws := rfl
@[simp] theorem commandError_compDraws (c : Cause) (s : State) : (commandError c s).compDraws = s.compDraws := rfl
@[simp] theorem commandError_accCaps (c : Cause) (s : State) : (commandError c s).accCaps = s.accCaps := rfl
@[simp] theorem commandError_compCaps (c : Cause) (s : State) : (commandError c s).compCaps = s.compCaps := rfl
@[simp] theorem commandError_bus (c : Cause) (s : State) : (commandError c s).bus = s.bus := rfl
@[simp] theorem commandError_hostRead (c : Cause) (s : State) : (commandError c s).hostRead = s.hostRead := rfl
@[simp] theorem commandError_seqSlot (c : Cause) (s : State) : (commandError c s).seqSlot = s.seqSlot := rfl

/-! The first thing a CMD write does (10 R24). -/

@[simp] theorem clearError_done (s : State) : (clearError s).done = s.done := rfl
@[simp] theorem clearError_err (s : State) : (clearError s).err = false := rfl
@[simp] theorem clearError_tblValid (s : State) : (clearError s).tblValid = s.tblValid := rfl
@[simp] theorem clearError_phase (s : State) : (clearError s).phase = s.phase := rfl
@[simp] theorem clearError_wstate (s : State) : (clearError s).wstate = s.wstate := rfl
@[simp] theorem clearError_errReg (s : State) : (clearError s).errReg = 0 := rfl
@[simp] theorem clearError_width (s : State) : (clearError s).width = s.width := rfl
@[simp] theorem clearError_height (s : State) : (clearError s).height = s.height := rfl
@[simp] theorem clearError_depth (s : State) : (clearError s).depth = s.depth := rfl
@[simp] theorem clearError_cmode (s : State) : (clearError s).cmode = s.cmode := rfl
@[simp] theorem clearError_fkind (s : State) : (clearError s).fkind = s.fkind := rfl
@[simp] theorem clearError_level (s : State) : (clearError s).level = s.level := rfl
@[simp] theorem clearError_crcAcc (s : State) : (clearError s).crcAcc = s.crcAcc := rfl
@[simp] theorem clearError_crcOut (s : State) : (clearError s).crcOut = s.crcOut := rfl
@[simp] theorem clearError_tbl (s : State) : (clearError s).tbl = s.tbl := rfl
@[simp] theorem clearError_ch (s : State) : (clearError s).ch = s.ch := rfl
@[simp] theorem clearError_raw (s : State) : (clearError s).raw = s.raw := rfl
@[simp] theorem clearError_filt (s : State) : (clearError s).filt = s.filt := rfl
@[simp] theorem clearError_comp (s : State) : (clearError s).comp = s.comp := rfl
@[simp] theorem clearError_accbuf (s : State) : (clearError s).accbuf = s.accbuf := rfl
@[simp] theorem clearError_accIdx (s : State) : (clearError s).accIdx = s.accIdx := rfl
@[simp] theorem clearError_accCap (s : State) : (clearError s).accCap = s.accCap := rfl
@[simp] theorem clearError_compCap (s : State) : (clearError s).compCap = s.compCap := rfl
@[simp] theorem clearError_compLen (s : State) : (clearError s).compLen = s.compLen := rfl
@[simp] theorem clearError_sink (s : State) : (clearError s).sink = s.sink := rfl
@[simp] theorem clearError_offered (s : State) : (clearError s).offered = s.offered := rfl
@[simp] theorem clearError_compCalls (s : State) : (clearError s).compCalls = s.compCalls := rfl
@[simp] theorem clearError_sinkDraws (s : State) : (clearError s).sinkDraws = s.sinkDraws := rfl
@[simp] theorem clearError_compDraws (s : State) : (clearError s).compDraws = s.compDraws := rfl
@[simp] theorem clearError_accCaps (s : State) : (clearError s).accCaps = s.accCaps := rfl
@[simp] theorem clearError_compCaps (s : State) : (clearError s).compCaps = s.compCaps := rfl
@[simp] theorem clearError_bus (s : State) : (clearError s).bus = s.bus := rfl
@[simp] theorem clearError_hostRead (s : State) : (clearError s).hostRead = s.hostRead := rfl
@[simp] theorem clearError_seqSlot (s : State) : (clearError s).seqSlot = s.seqSlot := rfl

/-! AccReset (44 R212). -/

@[simp] theorem accReset_done (s : State) : (accReset s).done = s.done := rfl
@[simp] theorem accReset_err (s : State) : (accReset s).err = s.err := rfl
@[simp] theorem accReset_tblValid (s : State) : (accReset s).tblValid = s.tblValid := rfl
@[simp] theorem accReset_phase (s : State) : (accReset s).phase = s.phase := rfl
@[simp] theorem accReset_wstate (s : State) : (accReset s).wstate = s.wstate := rfl
@[simp] theorem accReset_errReg (s : State) : (accReset s).errReg = s.errReg := rfl
@[simp] theorem accReset_width (s : State) : (accReset s).width = s.width := rfl
@[simp] theorem accReset_height (s : State) : (accReset s).height = s.height := rfl
@[simp] theorem accReset_depth (s : State) : (accReset s).depth = s.depth := rfl
@[simp] theorem accReset_cmode (s : State) : (accReset s).cmode = s.cmode := rfl
@[simp] theorem accReset_fkind (s : State) : (accReset s).fkind = s.fkind := rfl
@[simp] theorem accReset_level (s : State) : (accReset s).level = s.level := rfl
@[simp] theorem accReset_crcAcc (s : State) : (accReset s).crcAcc = s.crcAcc := rfl
@[simp] theorem accReset_crcOut (s : State) : (accReset s).crcOut = s.crcOut := rfl
@[simp] theorem accReset_tbl (s : State) : (accReset s).tbl = s.tbl := rfl
@[simp] theorem accReset_ch (s : State) : (accReset s).ch = s.ch := rfl
@[simp] theorem accReset_raw (s : State) : (accReset s).raw = s.raw := rfl
@[simp] theorem accReset_filt (s : State) : (accReset s).filt = s.filt := rfl
@[simp] theorem accReset_comp (s : State) : (accReset s).comp = s.comp := rfl
@[simp] theorem accReset_accbuf (s : State) : (accReset s).accbuf = s.accbuf := rfl
@[simp] theorem accReset_accIdx (s : State) : (accReset s).accIdx = some 0 := rfl
@[simp] theorem accReset_accCap (s : State) : (accReset s).accCap = s.accCap := rfl
@[simp] theorem accReset_compCap (s : State) : (accReset s).compCap = s.compCap := rfl
@[simp] theorem accReset_compLen (s : State) : (accReset s).compLen = s.compLen := rfl
@[simp] theorem accReset_sink (s : State) : (accReset s).sink = s.sink := rfl
@[simp] theorem accReset_offered (s : State) : (accReset s).offered = s.offered := rfl
@[simp] theorem accReset_compCalls (s : State) : (accReset s).compCalls = s.compCalls := rfl
@[simp] theorem accReset_sinkDraws (s : State) : (accReset s).sinkDraws = s.sinkDraws := rfl
@[simp] theorem accReset_compDraws (s : State) : (accReset s).compDraws = s.compDraws := rfl
@[simp] theorem accReset_accCaps (s : State) : (accReset s).accCaps = s.accCaps := rfl
@[simp] theorem accReset_compCaps (s : State) : (accReset s).compCaps = s.compCaps := rfl
@[simp] theorem accReset_bus (s : State) : (accReset s).bus = s.bus := rfl
@[simp] theorem accReset_hostRead (s : State) : (accReset s).hostRead = s.hostRead := rfl
@[simp] theorem accReset_seqSlot (s : State) : (accReset s).seqSlot = s.seqSlot := rfl

/-! The table build (43 R183). -/

@[simp] theorem buildTable_done (s : State) : (buildTable s).done = s.done := rfl
@[simp] theorem buildTable_err (s : State) : (buildTable s).err = s.err := rfl
@[simp] theorem buildTable_tblValid (s : State) : (buildTable s).tblValid = true := rfl
@[simp] theorem buildTable_phase (s : State) : (buildTable s).phase = s.phase := rfl
@[simp] theorem buildTable_wstate (s : State) : (buildTable s).wstate = s.wstate := rfl
@[simp] theorem buildTable_errReg (s : State) : (buildTable s).errReg = s.errReg := rfl
@[simp] theorem buildTable_width (s : State) : (buildTable s).width = s.width := rfl
@[simp] theorem buildTable_height (s : State) : (buildTable s).height = s.height := rfl
@[simp] theorem buildTable_depth (s : State) : (buildTable s).depth = s.depth := rfl
@[simp] theorem buildTable_cmode (s : State) : (buildTable s).cmode = s.cmode := rfl
@[simp] theorem buildTable_fkind (s : State) : (buildTable s).fkind = s.fkind := rfl
@[simp] theorem buildTable_level (s : State) : (buildTable s).level = s.level := rfl
@[simp] theorem buildTable_crcAcc (s : State) : (buildTable s).crcAcc = s.crcAcc := rfl
@[simp] theorem buildTable_crcOut (s : State) : (buildTable s).crcOut = s.crcOut := rfl
@[simp] theorem buildTable_tbl (s : State) : (buildTable s).tbl = tblc := rfl
@[simp] theorem buildTable_ch (s : State) : (buildTable s).ch = s.ch := rfl
@[simp] theorem buildTable_raw (s : State) : (buildTable s).raw = s.raw := rfl
@[simp] theorem buildTable_filt (s : State) : (buildTable s).filt = s.filt := rfl
@[simp] theorem buildTable_comp (s : State) : (buildTable s).comp = s.comp := rfl
@[simp] theorem buildTable_accbuf (s : State) : (buildTable s).accbuf = s.accbuf := rfl
@[simp] theorem buildTable_accIdx (s : State) : (buildTable s).accIdx = s.accIdx := rfl
@[simp] theorem buildTable_accCap (s : State) : (buildTable s).accCap = s.accCap := rfl
@[simp] theorem buildTable_compCap (s : State) : (buildTable s).compCap = s.compCap := rfl
@[simp] theorem buildTable_compLen (s : State) : (buildTable s).compLen = s.compLen := rfl
@[simp] theorem buildTable_sink (s : State) : (buildTable s).sink = s.sink := rfl
@[simp] theorem buildTable_offered (s : State) : (buildTable s).offered = s.offered := rfl
@[simp] theorem buildTable_compCalls (s : State) : (buildTable s).compCalls = s.compCalls := rfl
@[simp] theorem buildTable_sinkDraws (s : State) : (buildTable s).sinkDraws = s.sinkDraws := rfl
@[simp] theorem buildTable_compDraws (s : State) : (buildTable s).compDraws = s.compDraws := rfl
@[simp] theorem buildTable_accCaps (s : State) : (buildTable s).accCaps = s.accCaps := rfl
@[simp] theorem buildTable_compCaps (s : State) : (buildTable s).compCaps = s.compCaps := rfl
@[simp] theorem buildTable_bus (s : State) : (buildTable s).bus = s.bus := rfl
@[simp] theorem buildTable_hostRead (s : State) : (buildTable s).hostRead = s.hostRead := rfl
@[simp] theorem buildTable_seqSlot (s : State) : (buildTable s).seqSlot = s.seqSlot := rfl

/-! The checksum of a sequence (43 R188). -/

@[simp] theorem checksum_done (m : List Byte) (s : State) : (checksum m s).done = s.done := rfl
@[simp] theorem checksum_err (m : List Byte) (s : State) : (checksum m s).err = s.err := rfl
@[simp] theorem checksum_tblValid (m : List Byte) (s : State) : (checksum m s).tblValid = s.tblValid := rfl
@[simp] theorem checksum_phase (m : List Byte) (s : State) : (checksum m s).phase = s.phase := rfl
@[simp] theorem checksum_wstate (m : List Byte) (s : State) : (checksum m s).wstate = s.wstate := rfl
@[simp] theorem checksum_errReg (m : List Byte) (s : State) : (checksum m s).errReg = s.errReg := rfl
@[simp] theorem checksum_width (m : List Byte) (s : State) : (checksum m s).width = s.width := rfl
@[simp] theorem checksum_height (m : List Byte) (s : State) : (checksum m s).height = s.height := rfl
@[simp] theorem checksum_depth (m : List Byte) (s : State) : (checksum m s).depth = s.depth := rfl
@[simp] theorem checksum_cmode (m : List Byte) (s : State) : (checksum m s).cmode = s.cmode := rfl
@[simp] theorem checksum_fkind (m : List Byte) (s : State) : (checksum m s).fkind = s.fkind := rfl
@[simp] theorem checksum_level (m : List Byte) (s : State) : (checksum m s).level = s.level := rfl
@[simp] theorem checksum_crcAcc (m : List Byte) (s : State) : (checksum m s).crcAcc = m.foldl (crcStepWith s.tbl) Config.crcOnes := rfl
@[simp] theorem checksum_crcOut (m : List Byte) (s : State) : (checksum m s).crcOut = m.foldl (crcStepWith s.tbl) Config.crcOnes ^^^ Config.crcOnes := rfl
@[simp] theorem checksum_tbl (m : List Byte) (s : State) : (checksum m s).tbl = s.tbl := rfl
@[simp] theorem checksum_ch (m : List Byte) (s : State) : (checksum m s).ch = s.ch := rfl
@[simp] theorem checksum_raw (m : List Byte) (s : State) : (checksum m s).raw = s.raw := rfl
@[simp] theorem checksum_filt (m : List Byte) (s : State) : (checksum m s).filt = s.filt := rfl
@[simp] theorem checksum_comp (m : List Byte) (s : State) : (checksum m s).comp = s.comp := rfl
@[simp] theorem checksum_accbuf (m : List Byte) (s : State) : (checksum m s).accbuf = s.accbuf := rfl
@[simp] theorem checksum_accIdx (m : List Byte) (s : State) : (checksum m s).accIdx = s.accIdx := rfl
@[simp] theorem checksum_accCap (m : List Byte) (s : State) : (checksum m s).accCap = s.accCap := rfl
@[simp] theorem checksum_compCap (m : List Byte) (s : State) : (checksum m s).compCap = s.compCap := rfl
@[simp] theorem checksum_compLen (m : List Byte) (s : State) : (checksum m s).compLen = s.compLen := rfl
@[simp] theorem checksum_sink (m : List Byte) (s : State) : (checksum m s).sink = s.sink := rfl
@[simp] theorem checksum_offered (m : List Byte) (s : State) : (checksum m s).offered = s.offered := rfl
@[simp] theorem checksum_compCalls (m : List Byte) (s : State) : (checksum m s).compCalls = s.compCalls := rfl
@[simp] theorem checksum_sinkDraws (m : List Byte) (s : State) : (checksum m s).sinkDraws = s.sinkDraws := rfl
@[simp] theorem checksum_compDraws (m : List Byte) (s : State) : (checksum m s).compDraws = s.compDraws := rfl
@[simp] theorem checksum_accCaps (m : List Byte) (s : State) : (checksum m s).accCaps = s.accCaps := rfl
@[simp] theorem checksum_compCaps (m : List Byte) (s : State) : (checksum m s).compCaps = s.compCaps := rfl
@[simp] theorem checksum_bus (m : List Byte) (s : State) : (checksum m s).bus = s.bus := rfl
@[simp] theorem checksum_hostRead (m : List Byte) (s : State) : (checksum m s).hostRead = s.hostRead := rfl
@[simp] theorem checksum_seqSlot (m : List Byte) (s : State) : (checksum m s).seqSlot = s.seqSlot := rfl

/-! PHASE <- p. -/

@[simp] theorem enterPhase_done (p : Phase) (s : State) : (enterPhase p s).done = s.done := rfl
@[simp] theorem enterPhase_err (p : Phase) (s : State) : (enterPhase p s).err = s.err := rfl
@[simp] theorem enterPhase_tblValid (p : Phase) (s : State) : (enterPhase p s).tblValid = s.tblValid := rfl
@[simp] theorem enterPhase_phase (p : Phase) (s : State) : (enterPhase p s).phase = p := rfl
@[simp] theorem enterPhase_wstate (p : Phase) (s : State) : (enterPhase p s).wstate = s.wstate := rfl
@[simp] theorem enterPhase_errReg (p : Phase) (s : State) : (enterPhase p s).errReg = s.errReg := rfl
@[simp] theorem enterPhase_width (p : Phase) (s : State) : (enterPhase p s).width = s.width := rfl
@[simp] theorem enterPhase_height (p : Phase) (s : State) : (enterPhase p s).height = s.height := rfl
@[simp] theorem enterPhase_depth (p : Phase) (s : State) : (enterPhase p s).depth = s.depth := rfl
@[simp] theorem enterPhase_cmode (p : Phase) (s : State) : (enterPhase p s).cmode = s.cmode := rfl
@[simp] theorem enterPhase_fkind (p : Phase) (s : State) : (enterPhase p s).fkind = s.fkind := rfl
@[simp] theorem enterPhase_level (p : Phase) (s : State) : (enterPhase p s).level = s.level := rfl
@[simp] theorem enterPhase_crcAcc (p : Phase) (s : State) : (enterPhase p s).crcAcc = s.crcAcc := rfl
@[simp] theorem enterPhase_crcOut (p : Phase) (s : State) : (enterPhase p s).crcOut = s.crcOut := rfl
@[simp] theorem enterPhase_tbl (p : Phase) (s : State) : (enterPhase p s).tbl = s.tbl := rfl
@[simp] theorem enterPhase_ch (p : Phase) (s : State) : (enterPhase p s).ch = s.ch := rfl
@[simp] theorem enterPhase_raw (p : Phase) (s : State) : (enterPhase p s).raw = s.raw := rfl
@[simp] theorem enterPhase_filt (p : Phase) (s : State) : (enterPhase p s).filt = s.filt := rfl
@[simp] theorem enterPhase_comp (p : Phase) (s : State) : (enterPhase p s).comp = s.comp := rfl
@[simp] theorem enterPhase_accbuf (p : Phase) (s : State) : (enterPhase p s).accbuf = s.accbuf := rfl
@[simp] theorem enterPhase_accIdx (p : Phase) (s : State) : (enterPhase p s).accIdx = s.accIdx := rfl
@[simp] theorem enterPhase_accCap (p : Phase) (s : State) : (enterPhase p s).accCap = s.accCap := rfl
@[simp] theorem enterPhase_compCap (p : Phase) (s : State) : (enterPhase p s).compCap = s.compCap := rfl
@[simp] theorem enterPhase_compLen (p : Phase) (s : State) : (enterPhase p s).compLen = s.compLen := rfl
@[simp] theorem enterPhase_sink (p : Phase) (s : State) : (enterPhase p s).sink = s.sink := rfl
@[simp] theorem enterPhase_offered (p : Phase) (s : State) : (enterPhase p s).offered = s.offered := rfl
@[simp] theorem enterPhase_compCalls (p : Phase) (s : State) : (enterPhase p s).compCalls = s.compCalls := rfl
@[simp] theorem enterPhase_sinkDraws (p : Phase) (s : State) : (enterPhase p s).sinkDraws = s.sinkDraws := rfl
@[simp] theorem enterPhase_compDraws (p : Phase) (s : State) : (enterPhase p s).compDraws = s.compDraws := rfl
@[simp] theorem enterPhase_accCaps (p : Phase) (s : State) : (enterPhase p s).accCaps = s.accCaps := rfl
@[simp] theorem enterPhase_compCaps (p : Phase) (s : State) : (enterPhase p s).compCaps = s.compCaps := rfl
@[simp] theorem enterPhase_bus (p : Phase) (s : State) : (enterPhase p s).bus = s.bus := rfl
@[simp] theorem enterPhase_hostRead (p : Phase) (s : State) : (enterPhase p s).hostRead = s.hostRead := rfl
@[simp] theorem enterPhase_seqSlot (p : Phase) (s : State) : (enterPhase p s).seqSlot = s.seqSlot := rfl

/-! The beginning of ENCODE (45 R252). -/

@[simp] theorem beginEncode_done (s : State) : (beginEncode s).done = false := rfl
@[simp] theorem beginEncode_err (s : State) : (beginEncode s).err = s.err := rfl
@[simp] theorem beginEncode_tblValid (s : State) : (beginEncode s).tblValid = s.tblValid := rfl
@[simp] theorem beginEncode_phase (s : State) : (beginEncode s).phase = s.phase := rfl
@[simp] theorem beginEncode_wstate (s : State) : (beginEncode s).wstate = .start := rfl
@[simp] theorem beginEncode_errReg (s : State) : (beginEncode s).errReg = s.errReg := rfl
@[simp] theorem beginEncode_width (s : State) : (beginEncode s).width = s.width := rfl
@[simp] theorem beginEncode_height (s : State) : (beginEncode s).height = s.height := rfl
@[simp] theorem beginEncode_depth (s : State) : (beginEncode s).depth = s.depth := rfl
@[simp] theorem beginEncode_cmode (s : State) : (beginEncode s).cmode = s.cmode := rfl
@[simp] theorem beginEncode_fkind (s : State) : (beginEncode s).fkind = s.fkind := rfl
@[simp] theorem beginEncode_level (s : State) : (beginEncode s).level = s.level := rfl
@[simp] theorem beginEncode_crcAcc (s : State) : (beginEncode s).crcAcc = s.crcAcc := rfl
@[simp] theorem beginEncode_crcOut (s : State) : (beginEncode s).crcOut = s.crcOut := rfl
@[simp] theorem beginEncode_tbl (s : State) : (beginEncode s).tbl = s.tbl := rfl
@[simp] theorem beginEncode_ch (s : State) : (beginEncode s).ch = s.ch := rfl
@[simp] theorem beginEncode_raw (s : State) : (beginEncode s).raw = [] := rfl
@[simp] theorem beginEncode_filt (s : State) : (beginEncode s).filt = [] := rfl
@[simp] theorem beginEncode_comp (s : State) : (beginEncode s).comp = [] := rfl
@[simp] theorem beginEncode_accbuf (s : State) : (beginEncode s).accbuf = [] := rfl
@[simp] theorem beginEncode_accIdx (s : State) : (beginEncode s).accIdx = none := rfl
@[simp] theorem beginEncode_accCap (s : State) : (beginEncode s).accCap = none := rfl
@[simp] theorem beginEncode_compCap (s : State) : (beginEncode s).compCap = none := rfl
@[simp] theorem beginEncode_compLen (s : State) : (beginEncode s).compLen = none := rfl
@[simp] theorem beginEncode_sink (s : State) : (beginEncode s).sink = s.sink := rfl
@[simp] theorem beginEncode_offered (s : State) : (beginEncode s).offered = s.offered := rfl
@[simp] theorem beginEncode_compCalls (s : State) : (beginEncode s).compCalls = s.compCalls := rfl
@[simp] theorem beginEncode_sinkDraws (s : State) : (beginEncode s).sinkDraws = s.sinkDraws := rfl
@[simp] theorem beginEncode_compDraws (s : State) : (beginEncode s).compDraws = s.compDraws := rfl
@[simp] theorem beginEncode_accCaps (s : State) : (beginEncode s).accCaps = s.accCaps := rfl
@[simp] theorem beginEncode_compCaps (s : State) : (beginEncode s).compCaps = s.compCaps := rfl
@[simp] theorem beginEncode_bus (s : State) : (beginEncode s).bus = s.bus := rfl
@[simp] theorem beginEncode_hostRead (s : State) : (beginEncode s).hostRead = s.hostRead := rfl
@[simp] theorem beginEncode_seqSlot (s : State) : (beginEncode s).seqSlot = s.seqSlot := rfl

/-! The end of ENCODE (45 R252). -/

@[simp] theorem finishEncode_done (s : State) : (finishEncode s).done = true := rfl
@[simp] theorem finishEncode_err (s : State) : (finishEncode s).err = s.err := rfl
@[simp] theorem finishEncode_tblValid (s : State) : (finishEncode s).tblValid = s.tblValid := rfl
@[simp] theorem finishEncode_phase (s : State) : (finishEncode s).phase = .done := rfl
@[simp] theorem finishEncode_wstate (s : State) : (finishEncode s).wstate = s.wstate := rfl
@[simp] theorem finishEncode_errReg (s : State) : (finishEncode s).errReg = s.errReg := rfl
@[simp] theorem finishEncode_width (s : State) : (finishEncode s).width = s.width := rfl
@[simp] theorem finishEncode_height (s : State) : (finishEncode s).height = s.height := rfl
@[simp] theorem finishEncode_depth (s : State) : (finishEncode s).depth = s.depth := rfl
@[simp] theorem finishEncode_cmode (s : State) : (finishEncode s).cmode = s.cmode := rfl
@[simp] theorem finishEncode_fkind (s : State) : (finishEncode s).fkind = s.fkind := rfl
@[simp] theorem finishEncode_level (s : State) : (finishEncode s).level = s.level := rfl
@[simp] theorem finishEncode_crcAcc (s : State) : (finishEncode s).crcAcc = s.crcAcc := rfl
@[simp] theorem finishEncode_crcOut (s : State) : (finishEncode s).crcOut = s.crcOut := rfl
@[simp] theorem finishEncode_tbl (s : State) : (finishEncode s).tbl = s.tbl := rfl
@[simp] theorem finishEncode_ch (s : State) : (finishEncode s).ch = s.ch := rfl
@[simp] theorem finishEncode_raw (s : State) : (finishEncode s).raw = [] := rfl
@[simp] theorem finishEncode_filt (s : State) : (finishEncode s).filt = [] := rfl
@[simp] theorem finishEncode_comp (s : State) : (finishEncode s).comp = [] := rfl
@[simp] theorem finishEncode_accbuf (s : State) : (finishEncode s).accbuf = [] := rfl
@[simp] theorem finishEncode_accIdx (s : State) : (finishEncode s).accIdx = none := rfl
@[simp] theorem finishEncode_accCap (s : State) : (finishEncode s).accCap = none := rfl
@[simp] theorem finishEncode_compCap (s : State) : (finishEncode s).compCap = none := rfl
@[simp] theorem finishEncode_compLen (s : State) : (finishEncode s).compLen = none := rfl
@[simp] theorem finishEncode_sink (s : State) : (finishEncode s).sink = s.sink := rfl
@[simp] theorem finishEncode_offered (s : State) : (finishEncode s).offered = s.offered := rfl
@[simp] theorem finishEncode_compCalls (s : State) : (finishEncode s).compCalls = s.compCalls := rfl
@[simp] theorem finishEncode_sinkDraws (s : State) : (finishEncode s).sinkDraws = s.sinkDraws := rfl
@[simp] theorem finishEncode_compDraws (s : State) : (finishEncode s).compDraws = s.compDraws := rfl
@[simp] theorem finishEncode_accCaps (s : State) : (finishEncode s).accCaps = s.accCaps := rfl
@[simp] theorem finishEncode_compCaps (s : State) : (finishEncode s).compCaps = s.compCaps := rfl
@[simp] theorem finishEncode_bus (s : State) : (finishEncode s).bus = s.bus := rfl
@[simp] theorem finishEncode_hostRead (s : State) : (finishEncode s).hostRead = s.hostRead := rfl
@[simp] theorem finishEncode_seqSlot (s : State) : (finishEncode s).seqSlot = s.seqSlot := rfl

/-! The call of the compressor (45 R257). -/

@[simp] theorem callCompressor_done (input : List Byte) (cap : Word) (s : State) : (callCompressor input cap s).done = s.done := rfl
@[simp] theorem callCompressor_err (input : List Byte) (cap : Word) (s : State) : (callCompressor input cap s).err = s.err := rfl
@[simp] theorem callCompressor_tblValid (input : List Byte) (cap : Word) (s : State) : (callCompressor input cap s).tblValid = s.tblValid := rfl
@[simp] theorem callCompressor_phase (input : List Byte) (cap : Word) (s : State) : (callCompressor input cap s).phase = s.phase := rfl
@[simp] theorem callCompressor_wstate (input : List Byte) (cap : Word) (s : State) : (callCompressor input cap s).wstate = s.wstate := rfl
@[simp] theorem callCompressor_errReg (input : List Byte) (cap : Word) (s : State) : (callCompressor input cap s).errReg = s.errReg := rfl
@[simp] theorem callCompressor_width (input : List Byte) (cap : Word) (s : State) : (callCompressor input cap s).width = s.width := rfl
@[simp] theorem callCompressor_height (input : List Byte) (cap : Word) (s : State) : (callCompressor input cap s).height = s.height := rfl
@[simp] theorem callCompressor_depth (input : List Byte) (cap : Word) (s : State) : (callCompressor input cap s).depth = s.depth := rfl
@[simp] theorem callCompressor_cmode (input : List Byte) (cap : Word) (s : State) : (callCompressor input cap s).cmode = s.cmode := rfl
@[simp] theorem callCompressor_fkind (input : List Byte) (cap : Word) (s : State) : (callCompressor input cap s).fkind = s.fkind := rfl
@[simp] theorem callCompressor_level (input : List Byte) (cap : Word) (s : State) : (callCompressor input cap s).level = s.level := rfl
@[simp] theorem callCompressor_crcAcc (input : List Byte) (cap : Word) (s : State) : (callCompressor input cap s).crcAcc = s.crcAcc := rfl
@[simp] theorem callCompressor_crcOut (input : List Byte) (cap : Word) (s : State) : (callCompressor input cap s).crcOut = s.crcOut := rfl
@[simp] theorem callCompressor_tbl (input : List Byte) (cap : Word) (s : State) : (callCompressor input cap s).tbl = s.tbl := rfl
@[simp] theorem callCompressor_ch (input : List Byte) (cap : Word) (s : State) : (callCompressor input cap s).ch = s.ch := rfl
@[simp] theorem callCompressor_raw (input : List Byte) (cap : Word) (s : State) : (callCompressor input cap s).raw = s.raw := rfl
@[simp] theorem callCompressor_filt (input : List Byte) (cap : Word) (s : State) : (callCompressor input cap s).filt = s.filt := rfl
@[simp] theorem callCompressor_comp (input : List Byte) (cap : Word) (s : State) : (callCompressor input cap s).comp = s.comp := rfl
@[simp] theorem callCompressor_accbuf (input : List Byte) (cap : Word) (s : State) : (callCompressor input cap s).accbuf = s.accbuf := rfl
@[simp] theorem callCompressor_accIdx (input : List Byte) (cap : Word) (s : State) : (callCompressor input cap s).accIdx = s.accIdx := rfl
@[simp] theorem callCompressor_accCap (input : List Byte) (cap : Word) (s : State) : (callCompressor input cap s).accCap = s.accCap := rfl
@[simp] theorem callCompressor_compCap (input : List Byte) (cap : Word) (s : State) : (callCompressor input cap s).compCap = s.compCap := rfl
@[simp] theorem callCompressor_compLen (input : List Byte) (cap : Word) (s : State) : (callCompressor input cap s).compLen = s.compLen := rfl
@[simp] theorem callCompressor_sink (input : List Byte) (cap : Word) (s : State) : (callCompressor input cap s).sink = s.sink := rfl
@[simp] theorem callCompressor_offered (input : List Byte) (cap : Word) (s : State) : (callCompressor input cap s).offered = s.offered := rfl
@[simp] theorem callCompressor_compCalls (input : List Byte) (cap : Word) (s : State) : (callCompressor input cap s).compCalls = s.compCalls ++ [⟨input, cap, s.level⟩] := rfl
@[simp] theorem callCompressor_sinkDraws (input : List Byte) (cap : Word) (s : State) : (callCompressor input cap s).sinkDraws = s.sinkDraws := rfl
@[simp] theorem callCompressor_compDraws (input : List Byte) (cap : Word) (s : State) : (callCompressor input cap s).compDraws = s.compDraws.rest := rfl
@[simp] theorem callCompressor_accCaps (input : List Byte) (cap : Word) (s : State) : (callCompressor input cap s).accCaps = s.accCaps := rfl
@[simp] theorem callCompressor_compCaps (input : List Byte) (cap : Word) (s : State) : (callCompressor input cap s).compCaps = s.compCaps := rfl
@[simp] theorem callCompressor_bus (input : List Byte) (cap : Word) (s : State) : (callCompressor input cap s).bus = s.bus := rfl
@[simp] theorem callCompressor_hostRead (input : List Byte) (cap : Word) (s : State) : (callCompressor input cap s).hostRead = s.hostRead := rfl
@[simp] theorem callCompressor_seqSlot (input : List Byte) (cap : Word) (s : State) : (callCompressor input cap s).seqSlot = s.seqSlot := rfl

/-! The lazy table build (43 R184). -/

@[simp] theorem ensureTable_done (s : State) : (ensureTable s).done = s.done := by
  unfold ensureTable; split <;> rfl
@[simp] theorem ensureTable_err (s : State) : (ensureTable s).err = s.err := by
  unfold ensureTable; split <;> rfl
@[simp] theorem ensureTable_phase (s : State) : (ensureTable s).phase = s.phase := by
  unfold ensureTable; split <;> rfl
@[simp] theorem ensureTable_wstate (s : State) : (ensureTable s).wstate = s.wstate := by
  unfold ensureTable; split <;> rfl
@[simp] theorem ensureTable_errReg (s : State) : (ensureTable s).errReg = s.errReg := by
  unfold ensureTable; split <;> rfl
@[simp] theorem ensureTable_width (s : State) : (ensureTable s).width = s.width := by
  unfold ensureTable; split <;> rfl
@[simp] theorem ensureTable_height (s : State) : (ensureTable s).height = s.height := by
  unfold ensureTable; split <;> rfl
@[simp] theorem ensureTable_depth (s : State) : (ensureTable s).depth = s.depth := by
  unfold ensureTable; split <;> rfl
@[simp] theorem ensureTable_cmode (s : State) : (ensureTable s).cmode = s.cmode := by
  unfold ensureTable; split <;> rfl
@[simp] theorem ensureTable_fkind (s : State) : (ensureTable s).fkind = s.fkind := by
  unfold ensureTable; split <;> rfl
@[simp] theorem ensureTable_level (s : State) : (ensureTable s).level = s.level := by
  unfold ensureTable; split <;> rfl
@[simp] theorem ensureTable_crcAcc (s : State) : (ensureTable s).crcAcc = s.crcAcc := by
  unfold ensureTable; split <;> rfl
@[simp] theorem ensureTable_crcOut (s : State) : (ensureTable s).crcOut = s.crcOut := by
  unfold ensureTable; split <;> rfl
@[simp] theorem ensureTable_ch (s : State) : (ensureTable s).ch = s.ch := by
  unfold ensureTable; split <;> rfl
@[simp] theorem ensureTable_raw (s : State) : (ensureTable s).raw = s.raw := by
  unfold ensureTable; split <;> rfl
@[simp] theorem ensureTable_filt (s : State) : (ensureTable s).filt = s.filt := by
  unfold ensureTable; split <;> rfl
@[simp] theorem ensureTable_comp (s : State) : (ensureTable s).comp = s.comp := by
  unfold ensureTable; split <;> rfl
@[simp] theorem ensureTable_accbuf (s : State) : (ensureTable s).accbuf = s.accbuf := by
  unfold ensureTable; split <;> rfl
@[simp] theorem ensureTable_accIdx (s : State) : (ensureTable s).accIdx = s.accIdx := by
  unfold ensureTable; split <;> rfl
@[simp] theorem ensureTable_accCap (s : State) : (ensureTable s).accCap = s.accCap := by
  unfold ensureTable; split <;> rfl
@[simp] theorem ensureTable_compCap (s : State) : (ensureTable s).compCap = s.compCap := by
  unfold ensureTable; split <;> rfl
@[simp] theorem ensureTable_compLen (s : State) : (ensureTable s).compLen = s.compLen := by
  unfold ensureTable; split <;> rfl
@[simp] theorem ensureTable_sink (s : State) : (ensureTable s).sink = s.sink := by
  unfold ensureTable; split <;> rfl
@[simp] theorem ensureTable_offered (s : State) : (ensureTable s).offered = s.offered := by
  unfold ensureTable; split <;> rfl
@[simp] theorem ensureTable_compCalls (s : State) : (ensureTable s).compCalls = s.compCalls := by
  unfold ensureTable; split <;> rfl
@[simp] theorem ensureTable_sinkDraws (s : State) : (ensureTable s).sinkDraws = s.sinkDraws := by
  unfold ensureTable; split <;> rfl
@[simp] theorem ensureTable_compDraws (s : State) : (ensureTable s).compDraws = s.compDraws := by
  unfold ensureTable; split <;> rfl
@[simp] theorem ensureTable_accCaps (s : State) : (ensureTable s).accCaps = s.accCaps := by
  unfold ensureTable; split <;> rfl
@[simp] theorem ensureTable_compCaps (s : State) : (ensureTable s).compCaps = s.compCaps := by
  unfold ensureTable; split <;> rfl
@[simp] theorem ensureTable_bus (s : State) : (ensureTable s).bus = s.bus := by
  unfold ensureTable; split <;> rfl
@[simp] theorem ensureTable_hostRead (s : State) : (ensureTable s).hostRead = s.hostRead := by
  unfold ensureTable; split <;> rfl
@[simp] theorem ensureTable_seqSlot (s : State) : (ensureTable s).seqSlot = s.seqSlot := by
  unfold ensureTable; split <;> rfl
@[simp] theorem ensureTable_tblValid (s : State) : (ensureTable s).tblValid = true := by
  unfold ensureTable; split
  · assumption
  · rfl
@[simp] theorem ensureTable_tbl (s : State) : (ensureTable s).tbl = if s.tblValid then s.tbl else tblc := by
  unfold ensureTable; split <;> rfl

end Sys2Proof.Machine
end

