-- ==== Sys2Proof/Laws/Ops.lean ====
section
/-! SUPPORT. What the shared operations can do, said once each: binding results, loops, reading cells, the draws, `SinkWrite`
and the `Put` forms. -/

namespace Sys2Proof.Machine

/-! ## Results -/

/-- A result meets a pair of postconditions: one for a normal end, one for the state after an error raised. Faults and
refusals meet every pair. -/
def Meets {α : Type} (r : Res α) (q : α → Prop) (e : State → Prop) : Prop :=
  match r with
  | .ok a => q a
  | .error (.raised t) => e t
  | .error (.fault _) => True
  | .error (.refused _) => True

theorem Meets.bind {α β : Type} {r : Res α} {f : α → Res β} {q : α → Prop} {q' : β → Prop} {e : State → Prop}
    (h : Meets r q e) (hf : ∀ a, q a → Meets (f a) q' e) : Meets (r.bind f) q' e := by
  match r, h with
  | .ok a, h => exact hf a h
  | .error (.raised t), h => exact h
  | .error (.fault _), _ => trivial
  | .error (.refused _), _ => trivial

theorem Meets.mono {α : Type} {r : Res α} {q q' : α → Prop} {e e' : State → Prop} (h : Meets r q e)
    (hq : ∀ a, q a → q' a) (he : ∀ t, e t → e' t) : Meets r q' e' := by
  match r, h with
  | .ok a, h => exact hq a h
  | .error (.raised t), h => exact he t h
  | .error (.fault _), _ => trivial
  | .error (.refused _), _ => trivial

/-- An operation's next state comes from a normal end or from an error raised. -/
theorem Meets.of_next {r : Res State} {q e : State → Prop} {t : State} (h : Meets r q e) (ht : outcome r = .next t) :
    q t ∨ e t := by
  match r, h with
  | .ok a, h => cases ht; exact .inl h
  | .error (.raised a), h => cases ht; exact .inr h
  | .error (.fault _), _ => cases ht
  | .error (.refused _), _ => cases ht

@[simp] theorem bind_ok {α β : Type} (a : α) (f : α → Res β) : (Except.ok a : Res α).bind f = f a := rfl
@[simp] theorem bind_error {α β : Type} (e : Stop) (f : α → Res β) : (Except.error e : Res α).bind f = .error e := rfl
@[simp] theorem bind_raise {α β : Type} (c : Cause) (s : State) (f : α → Res β) :
    (raise c s : Res α).bind f = raise c s := rfl
@[simp] theorem outcome_ok (s : State) : outcome (.ok s) = .next s := rfl
@[simp] theorem outcome_raise (c : Cause) (s : State) : outcome (raise c s) = .next (errorEntry c s) := rfl
@[simp] theorem outcome_fault (f : Fault) : outcome (.error (.fault f)) = .fault f := rfl
@[simp] theorem outcome_refused (r : Refusal) : outcome (.error (.refused r)) = .refused r := rfl
@[simp] theorem meets_raise {α : Type} (c : Cause) (s : State) (q : α → Prop) (e : State → Prop) :
    Meets (raise c s : Res α) q e ↔ e (errorEntry c s) := Iff.rfl
@[simp] theorem meets_ok {α : Type} (a : α) (q : α → Prop) (e : State → Prop) : Meets (.ok a) q e ↔ q a := Iff.rfl
@[simp] theorem meets_fault {α : Type} (f : Fault) (q : α → Prop) (e : State → Prop) :
    Meets (.error (.fault f)) q e ↔ True := Iff.rfl
@[simp] theorem meets_refused {α : Type} (f : Refusal) (q : α → Prop) (e : State → Prop) :
    Meets (.error (.refused f)) q e ↔ True := Iff.rfl

/-- Where a bound computation stops, its first part stopped or its second did. -/
theorem bind_eq_error {α β : Type} {r : Res α} {f : α → Res β} {e : Stop} (h : r.bind f = .error e) :
    r = .error e ∨ ∃ a, r = .ok a ∧ f a = .error e := by
  match r with
  | .ok a => exact .inr ⟨a, rfl, h⟩
  | .error e' => cases h; exact .inl rfl

/-- Where a bound computation ends normally, both parts did. -/
theorem bind_eq_ok {α β : Type} {r : Res α} {f : α → Res β} {b : β} (h : r.bind f = .ok b) :
    ∃ a, r = .ok a ∧ f a = .ok b := by
  match r with
  | .ok a => exact ⟨a, rfl, h⟩
  | .error e' => cases h

/-! ## Loops -/

@[simp] theorem loop_zero {α : Type} (body : Nat → α → Res α) (a : α) : loop 0 body a = .ok a := rfl
theorem loop_succ {α : Type} (n : Nat) (body : Nat → α → Res α) (a : α) :
    loop (n + 1) body a = (loop n body a).bind (body n) := rfl

/-- A loop whose body always goes on carries its invariant to the end. -/
theorem loop_ok {α : Type} {n : Nat} {body : Nat → α → Res α} {a : α} (P : Nat → α → Prop) (h0 : P 0 a)
    (hs : ∀ i < n, ∀ x, P i x → ∃ y, body i x = .ok y ∧ P (i + 1) y) : ∃ y, loop n body a = .ok y ∧ P n y := by
  induction n with
  | zero => exact ⟨a, rfl, h0⟩
  | succ n ih =>
    obtain ⟨x, hx, hp⟩ := ih fun i hi => hs i (by omega)
    obtain ⟨y, hy, hq⟩ := hs n (by omega) x hp
    exact ⟨y, by rw [loop_succ, hx, bind_ok, hy], hq⟩

/-- A loop that ends normally has carried its invariant to the end. -/
theorem loop_inv {α : Type} {n : Nat} {body : Nat → α → Res α} {a y : α} (h : loop n body a = .ok y)
    (P : Nat → α → Prop) (h0 : P 0 a) (hs : ∀ i < n, ∀ x z, P i x → body i x = .ok z → P (i + 1) z) : P n y := by
  induction n generalizing y with
  | zero => cases h; exact h0
  | succ n ih =>
    obtain ⟨x, hx, hy⟩ := bind_eq_ok h
    exact hs n (by omega) x y (ih hx fun i hi => hs i (by omega)) hy

/-- A loop that stops, stops in one of its rounds. -/
theorem loop_error {α : Type} {n : Nat} {body : Nat → α → Res α} {a : α} {e : Stop} (h : loop n body a = .error e) :
    ∃ i < n, ∃ x, body i x = .error e := by
  induction n with
  | zero => cases h
  | succ n ih =>
    rcases bind_eq_error h with h | ⟨x, _, h⟩
    · obtain ⟨i, hi, x, hx⟩ := ih h
      exact ⟨i, by omega, x, hx⟩
    · exact ⟨n, by omega, x, h⟩

/-- A loop one of whose rounds always stops with `e`, and whose rounds stop with nothing else, stops with `e`. -/
theorem loop_stops {α : Type} {n : Nat} {body : Nat → α → Res α} {a : α} {e : Stop}
    (hall : ∀ i < n, ∀ x e', body i x = .error e' → e' = e) (hone : ∃ i < n, ∀ x, body i x = .error e) :
    loop n body a = .error e := by
  match h : loop n body a with
  | .error e' =>
    obtain ⟨i, hi, x, hx⟩ := loop_error h
    rw [hall i hi x e' hx]
  | .ok y =>
    obtain ⟨i, hi, hx⟩ := hone
    have hle : n ≤ i := loop_inv h (fun j _ => j ≤ i) (Nat.zero_le i) fun j _ x z hj hz => by
      rcases Nat.lt_or_eq_of_le hj with hlt | heq
      · exact hlt
      · subst heq; rw [hx x] at hz; cases hz
    omega

/-- Loops with bodies that agree agree. -/
theorem loop_congr {α : Type} {n : Nat} {body body' : Nat → α → Res α} (a : α)
    (h : ∀ i < n, ∀ x, body i x = body' i x) : loop n body a = loop n body' a := by
  induction n with
  | zero => rfl
  | succ n ih =>
    rw [loop_succ, loop_succ, ih fun i hi => h i (by omega)]
    match loop n body' a with
    | .ok x => exact h n (by omega) x
    | .error e => rfl

/-! ## Reading cells and registers -/

theorem readCell_of_some {m : Memory 8} {a : Nat} {b : Byte} (h : m.read a = some b) : readCell m a = .ok b := by
  unfold readCell; rw [h]

theorem readCell_of_none {m : Memory 8} {a : Nat} (h : m.read a = none) :
    readCell m a = .error (.fault .unwrittenBufferCell) := by
  unfold readCell; rw [h]

theorem readCell_eq_ok {m : Memory 8} {a : Nat} {b : Byte} : readCell m a = .ok b ↔ m.read a = some b := by
  unfold readCell
  split <;> simp_all

theorem readCell_eq_error {m : Memory 8} {a : Nat} {e : Stop} (h : readCell m a = .error e) :
    e = .fault .unwrittenBufferCell ∧ m.read a = none := by
  unfold readCell at h
  split at h
  · cases h
  · cases h; exact ⟨rfl, by assumption⟩

/-- Reading consecutive cells gives the sequence they hold. -/
theorem readCells_eq_ok {m : Memory 8} {a n : Nat} {l : List Byte} :
    readCells m a n = .ok l ↔ l.length = n ∧ ∀ i < n, m.read (a + i) = l[i]? := by
  induction n generalizing a l with
  | zero => simp [readCells, eq_comm (a := ([] : List Byte))]
  | succ n ih =>
    constructor
    · intro h
      obtain ⟨b, hb, h⟩ := bind_eq_ok h
      obtain ⟨bs, hbs, h⟩ := bind_eq_ok h
      cases h
      rw [ih] at hbs
      rw [readCell_eq_ok] at hb
      refine ⟨by simp [hbs.1], fun i hi => ?_⟩
      cases i with
      | zero => simpa using hb
      | succ i =>
        rw [List.getElem?_cons_succ, ← hbs.2 i (by omega)]
        congr 1; omega
    · rintro ⟨hl, h⟩
      cases l with
      | nil => simp at hl
      | cons b bs =>
        have hb : readCell m a = .ok b := readCell_eq_ok.2 (by simpa using h 0 (by omega))
        have hbs : readCells m (a + 1) n = .ok bs :=
          ih.2 ⟨by simpa using hl, fun i hi => by
            have := h (i + 1) (by omega)
            rw [List.getElem?_cons_succ] at this
            rw [← this]; congr 1; omega⟩
        rw [readCells, hb, bind_ok, hbs]; rfl

/-- Reading consecutive cells stops only at a cell that holds no value. -/
theorem readCells_eq_error {m : Memory 8} {a n : Nat} {e : Stop} (h : readCells m a n = .error e) :
    e = .fault .unwrittenBufferCell ∧ ∃ i < n, m.read (a + i) = none := by
  induction n generalizing a with
  | zero => cases h
  | succ n ih =>
    rcases bind_eq_error h with h | ⟨b, _, h⟩
    · exact ⟨(readCell_eq_error h).1, 0, by omega, (readCell_eq_error h).2⟩
    · rcases bind_eq_error h with h | ⟨bs, _, h⟩
      · obtain ⟨he, i, hi, hr⟩ := ih h
        exact ⟨he, i + 1, by omega, by rw [← hr]; congr 1; omega⟩
      · cases h

/-- Reading consecutive cells one of which holds no value stops. -/
theorem readCells_of_none {m : Memory 8} {a n : Nat} (h : ∃ i < n, m.read (a + i) = none) :
    readCells m a n = .error (.fault .unwrittenBufferCell) := by
  match hr : readCells m a n with
  | .ok l =>
    obtain ⟨i, hi, hn⟩ := h
    obtain ⟨hl, hall⟩ := readCells_eq_ok.1 hr
    have := hall i hi
    rw [hn, eq_comm, List.getElem?_eq_none_iff] at this
    omega
  | .error e => rw [(readCells_eq_error hr).1]

@[simp] theorem readReg_some (w : Word) : readReg (some w) = .ok w := rfl
@[simp] theorem readReg_none : readReg none = .error (.fault .releasedRegister) := rfl

theorem readReg_eq_ok {v : Option Word} {w : Word} : readReg v = .ok w ↔ v = some w := by
  cases v <;> simp

/-! ## Draws -/

variable {α : Type}

theorem Draws.head_eq_answer (d : Draws α) : d.head = d.answer 0 := by
  obtain ⟨l, x⟩ := d
  cases l <;> rfl

theorem Draws.rest_eq_drop (d : Draws α) : d.rest = d.drop 1 := by
  obtain ⟨l, x⟩ := d
  cases l <;> rfl

@[simp] theorem Draws.drop_zero (d : Draws α) : d.drop 0 = d := rfl

@[simp] theorem Draws.answer_drop (d : Draws α) (n k : Nat) : (d.drop n).answer k = d.answer (n + k) := by
  obtain ⟨l, x⟩ := d
  simp [Draws.drop, Draws.answer, List.getD_eq_getElem?_getD]

@[simp] theorem Draws.drop_drop (d : Draws α) (n k : Nat) : (d.drop n).drop k = d.drop (n + k) := by
  obtain ⟨l, x⟩ := d
  simp [Draws.drop]

/-! ## The sink -/

/-- The state after `bytes` have been accepted by the sink. -/
def sent (bytes : List Byte) (s : State) : State :=
  { s with
    sink := s.sink ++ bytes, offered := s.offered ++ bytes, sinkDraws := s.sinkDraws.drop bytes.length }

/-- The state in which a write is rejected: `bytes` accepted, then one byte offered. -/
def sentThenOffered (bytes : List Byte) (b : Byte) (s : State) : State :=
  { s with
    sink := s.sink ++ bytes, offered := s.offered ++ bytes ++ [b], sinkDraws := s.sinkDraws.drop (bytes.length + 1) }

@[simp] theorem sent_nil (s : State) : sent [] s = s := by simp [sent]

@[simp] theorem sent_sinkDraws (u : List Byte) (s : State) : (sent u s).sinkDraws = s.sinkDraws.drop u.length := rfl
@[simp] theorem sent_accIdx (u : List Byte) (s : State) : (sent u s).accIdx = s.accIdx := rfl
@[simp] theorem sent_accCap (u : List Byte) (s : State) : (sent u s).accCap = s.accCap := rfl

theorem sent_append (u v : List Byte) (s : State) : sent (u ++ v) s = sent v (sent u s) := by
  simp [sent, List.append_assoc]

theorem sentThenOffered_append (u v : List Byte) (b : Byte) (s : State) :
    sentThenOffered (u ++ v) b s = sentThenOffered v b (sent u s) := by
  simp [sent, sentThenOffered, List.append_assoc, Nat.add_assoc]

/-- The state after `bytes` have been mirrored from ACC_IDX = `idx` on. -/
def mirrored (idx : Word) (bytes : List Byte) (s : State) : State :=
  { s with
    accbuf := s.accbuf.writeSeq idx.toNat bytes, accIdx := some (idx + BitVec.ofNat 32 bytes.length) }

/-- `SinkWrite`, by the sink's answer (20 R70). -/
theorem sinkWrite_accept {b : Byte} {s : State} (h : s.sinkDraws.answer 0 = .accept) :
    sinkWrite b s = .ok (sent [b] s) := by
  simp only [sinkWrite, Draws.head_eq_answer, h]
  simp [sent, Draws.rest_eq_drop]

theorem sinkWrite_reject {b : Byte} {s : State} (h : s.sinkDraws.answer 0 = .reject) :
    sinkWrite b s = raise .sinkRejected (sentThenOffered [] b s) := by
  simp only [sinkWrite, Draws.head_eq_answer, h]
  simp [sentThenOffered, Draws.rest_eq_drop]

theorem sinkWrite_silent {b : Byte} {s : State} (h : s.sinkDraws.answer 0 = .silent) :
    sinkWrite b s = .error (.fault .sinkNeverAnswers) := by
  simp only [sinkWrite, Draws.head_eq_answer, h]

/-- `Mirror` below the capacity (44 R214). -/
theorem mirror_ok {b : Byte} {s : State} {idx cap : Word} (hi : s.accIdx = some idx) (hc : s.accCap = some cap)
    (h : idx.toNat < cap.toNat) :
    mirror b s = .ok (mirrored idx [b] s) := by
  simp only [mirror, hi, hc, readReg_some, bind_ok]
  rw [if_neg (by omega)]
  simp [mirrored, Memory.writeSeq, hc]

/-- `Mirror` at the capacity (44 R214). -/
theorem mirror_full {b : Byte} {s : State} {idx cap : Word} (hi : s.accIdx = some idx) (hc : s.accCap = some cap)
    (h : cap.toNat ≤ idx.toNat) : mirror b s = raise .accumulatorOverflow s := by
  simp only [mirror, hi, hc, readReg_some, bind_ok]
  rw [if_pos h]

/-- `PutRawSeq` with every write accepted. -/
theorem putRawSeq_accept {bs : List Byte} {s : State} (h : ∀ k < bs.length, s.sinkDraws.answer k = .accept) :
    putRawSeq bs s = .ok (sent bs s) := by
  induction bs generalizing s with
  | nil => simp [putRawSeq]
  | cons b bs ih =>
    rw [putRawSeq, putRaw, sinkWrite_accept (h 0 (by simp)), bind_ok, ih]
    · rw [← sent_append]; rfl
    · intro k hk
      have := h (k + 1) (by simp; omega)
      simpa [Nat.add_comm] using this

/-- `PutRawSeq` whose write number `k` is rejected. -/
theorem putRawSeq_reject {bs : List Byte} {s : State} {k : Nat} (hk : k < bs.length)
    (h : ∀ m < k, s.sinkDraws.answer m = .accept) (hr : s.sinkDraws.answer k = .reject) :
    putRawSeq bs s = raise .sinkRejected (sentThenOffered (bs.take k) (bs[k]) s) := by
  induction bs generalizing s k with
  | nil => simp at hk
  | cons b bs ih =>
    cases k with
    | zero => rw [putRawSeq, putRaw, sinkWrite_reject hr]; rfl
    | succ k =>
      rw [putRawSeq, putRaw, sinkWrite_accept (h 0 (by omega)), bind_ok, ih (k := k) (by simpa using hk)]
      · rw [← sentThenOffered_append]; rfl
      · intro m hm
        have := h (m + 1) (by omega)
        simpa [Nat.add_comm] using this
      · simpa [Nat.add_comm] using hr

/-- `PutRawSeq` whose write number `k` is never answered. -/
theorem putRawSeq_silent {bs : List Byte} {s : State} {k : Nat} (hk : k < bs.length)
    (h : ∀ m < k, s.sinkDraws.answer m = .accept) (hr : s.sinkDraws.answer k = .silent) :
    putRawSeq bs s = .error (.fault .sinkNeverAnswers) := by
  induction bs generalizing s k with
  | nil => simp at hk
  | cons b bs ih =>
    cases k with
    | zero => rw [putRawSeq, putRaw, sinkWrite_silent hr]; rfl
    | succ k =>
      rw [putRawSeq, putRaw, sinkWrite_accept (h 0 (by omega)), bind_ok, ih (k := k) (by simpa using hk)]
      · intro m hm
        have := h (m + 1) (by omega)
        simpa [Nat.add_comm] using this
      · simpa [Nat.add_comm] using hr

/-! ## Sending and mirroring -/

theorem add_one_toNat {idx cap : Word} (h : idx.toNat < cap.toNat) : (idx + 1).toNat = idx.toNat + 1 := by
  have := cap.isLt
  rw [BitVec.toNat_add]
  simp
  omega

theorem mirrored_nil {idx : Word} {s : State} (hi : s.accIdx = some idx) : mirrored idx [] s = s := by
  obtain ⟨_⟩ := s
  simp_all [mirrored, Memory.writeSeq]

theorem mirrored_cons {idx cap : Word} (h : idx.toNat < cap.toNat) (b : Byte) (bs : List Byte) (s : State) :
    mirrored idx (b :: bs) s = mirrored (idx + 1) bs (mirrored idx [b] s) := by
  have hl : idx + BitVec.ofNat 32 (bs.length + 1) = idx + 1 + BitVec.ofNat 32 bs.length := by
    apply BitVec.eq_of_toNat_eq
    simp [BitVec.toNat_add, BitVec.toNat_ofNat]
    omega
  simp only [mirrored, Memory.writeSeq, add_one_toNat h, List.length_cons, hl]

theorem sent_cons (b : Byte) (bs : List Byte) (s : State) : sent (b :: bs) s = sent bs (sent [b] s) :=
  sent_append [b] bs s

@[simp] theorem mirrored_sinkDraws (idx : Word) (u : List Byte) (s : State) :
    (mirrored idx u s).sinkDraws = s.sinkDraws := rfl
@[simp] theorem mirrored_accCap (idx : Word) (u : List Byte) (s : State) : (mirrored idx u s).accCap = s.accCap := rfl
theorem mirrored_accIdx (idx : Word) (u : List Byte) (s : State) :
    (mirrored idx u s).accIdx = some (idx + BitVec.ofNat 32 u.length) := rfl
theorem mirrored_one_accIdx (idx : Word) (b : Byte) (s : State) : (mirrored idx [b] s).accIdx = some (idx + 1) := rfl

theorem sent_mirrored (u v : List Byte) (idx : Word) (s : State) :
    sent u (mirrored idx v s) = mirrored idx v (sent u s) := rfl

theorem sentThenOffered_mirrored (u v : List Byte) (b : Byte) (idx : Word) (s : State) :
    sentThenOffered u b (mirrored idx v s) = mirrored idx v (sentThenOffered u b s) := rfl

theorem sentThenOffered_cons (c : Byte) (u : List Byte) (b : Byte) (s : State) :
    sentThenOffered (c :: u) b s = sentThenOffered u b (sent [c] s) :=
  sentThenOffered_append [c] u b s

/-- `PutMir` with the write accepted and room for the byte. -/
theorem putMir_accept {b : Byte} {s : State} {idx cap : Word} (hi : s.accIdx = some idx) (hc : s.accCap = some cap)
    (hlt : idx.toNat < cap.toNat) (h : s.sinkDraws.answer 0 = .accept) :
    putMir b s = .ok (mirrored idx [b] (sent [b] s)) := by
  rw [putMir, sinkWrite_accept h, bind_ok, mirror_ok (s := sent [b] s) hi hc hlt]

/-- `PutMirSeq` with every write accepted and room for every byte. -/
theorem putMirSeq_accept {bs : List Byte} {s : State} {idx cap : Word} (hi : s.accIdx = some idx)
    (hc : s.accCap = some cap) (hroom : idx.toNat + bs.length ≤ cap.toNat)
    (h : ∀ k < bs.length, s.sinkDraws.answer k = .accept) :
    putMirSeq bs s = .ok (mirrored idx bs (sent bs s)) := by
  induction bs generalizing s idx with
  | nil => rw [putMirSeq, sent_nil, mirrored_nil hi]
  | cons b bs ih =>
    rw [List.length_cons] at hroom
    have hlt : idx.toNat < cap.toNat := by omega
    rw [putMirSeq, putMir_accept hi hc hlt (h 0 (by simp)), bind_ok,
      ih (s := mirrored idx [b] (sent [b] s)) (idx := idx + 1)
        (mirrored_one_accIdx _ _ _) hc]
    · rw [mirrored_cons hlt b bs, sent_cons b bs, sent_mirrored]
    · rw [add_one_toNat hlt]; omega
    · intro k hk
      have := h (k + 1) (by simp; omega)
      simpa [Nat.add_comm] using this

/-- `PutMirSeq` whose write number `k` is rejected, the bytes before it having room. -/
theorem putMirSeq_reject {bs : List Byte} {s : State} {idx cap : Word} {k : Nat} (hi : s.accIdx = some idx)
    (hc : s.accCap = some cap) (hk : k < bs.length) (hroom : idx.toNat + k ≤ cap.toNat)
    (h : ∀ m < k, s.sinkDraws.answer m = .accept) (hr : s.sinkDraws.answer k = .reject) :
    putMirSeq bs s = raise .sinkRejected (sentThenOffered (bs.take k) bs[k] (mirrored idx (bs.take k) s)) := by
  induction bs generalizing s idx k with
  | nil => simp at hk
  | cons b bs ih =>
    cases k with
    | zero => rw [putMirSeq, putMir, sinkWrite_reject hr]; simp [mirrored_nil hi]
    | succ k =>
      have hlt : idx.toNat < cap.toNat := by omega
      rw [putMirSeq, putMir_accept hi hc hlt (h 0 (by omega)), bind_ok,
        ih (s := mirrored idx [b] (sent [b] s)) (idx := idx + 1) (k := k)
          (mirrored_one_accIdx _ _ _) hc (by simpa using hk)]
      · rw [List.take_succ_cons, mirrored_cons hlt b (bs.take k), sentThenOffered_cons b (bs.take k), sent_mirrored,
          sent_mirrored,
          List.getElem_cons_succ]
      · rw [add_one_toNat hlt]; omega
      · intro m hm
        have := h (m + 1) (by omega)
        simpa [Nat.add_comm] using this
      · simpa [Nat.add_comm] using hr

/-- `PutMirSeq` whose write number `k` is never answered, the bytes before it having room. -/
theorem putMirSeq_silent {bs : List Byte} {s : State} {idx cap : Word} {k : Nat} (hi : s.accIdx = some idx)
    (hc : s.accCap = some cap) (hk : k < bs.length) (hroom : idx.toNat + k ≤ cap.toNat)
    (h : ∀ m < k, s.sinkDraws.answer m = .accept) (hr : s.sinkDraws.answer k = .silent) :
    putMirSeq bs s = .error (.fault .sinkNeverAnswers) := by
  induction bs generalizing s idx k with
  | nil => simp at hk
  | cons b bs ih =>
    cases k with
    | zero => rw [putMirSeq, putMir, sinkWrite_silent hr]; rfl
    | succ k =>
      have hlt : idx.toNat < cap.toNat := by omega
      rw [putMirSeq, putMir_accept hi hc hlt (h 0 (by omega)), bind_ok,
        ih (s := mirrored idx [b] (sent [b] s)) (idx := idx + 1) (k := k)
          (mirrored_one_accIdx _ _ _) hc (by simpa using hk)]
      · rw [add_one_toNat hlt]; omega
      · intro m hm
        have := h (m + 1) (by omega)
        simpa [Nat.add_comm] using this
      · simpa [Nat.add_comm] using hr

/-- `PutMirSeq` with more bytes than room, every write accepted up to the byte that overflows: that byte is in SINK. -/
theorem putMirSeq_full {bs : List Byte} {s : State} {idx cap : Word} {k : Nat} (hi : s.accIdx = some idx)
    (hc : s.accCap = some cap) (hk : k < bs.length) (hroom : idx.toNat + k = cap.toNat)
    (h : ∀ m ≤ k, s.sinkDraws.answer m = .accept) :
    putMirSeq bs s = raise .accumulatorOverflow (sent (bs.take (k + 1)) (mirrored idx (bs.take k) s)) := by
  induction bs generalizing s idx k with
  | nil => simp at hk
  | cons b bs ih =>
    cases k with
    | zero =>
      rw [putMirSeq, putMir, sinkWrite_accept (h 0 (by omega)), bind_ok,
        mirror_full (s := sent [b] s) hi hc (by omega), bind_raise]
      simp [mirrored_nil hi]
    | succ k =>
      have hlt : idx.toNat < cap.toNat := by omega
      rw [putMirSeq, putMir_accept hi hc hlt (h 0 (by omega)), bind_ok,
        ih (s := mirrored idx [b] (sent [b] s)) (idx := idx + 1) (k := k)
          (mirrored_one_accIdx _ _ _) hc (by simpa using hk)]
      · rw [List.take_succ_cons, List.take_succ_cons, mirrored_cons hlt b (bs.take k),
          sent_cons b (bs.take (k + 1))]
        simp only [sent_mirrored]
      · rw [add_one_toNat hlt]; omega
      · intro m hm
        have := h (m + 1) (by omega)
        simpa [Nat.add_comm] using this

end Sys2Proof.Machine
end

