-- ==== Sys2Proof/Laws/Checksum.lean ====
section
/-! SUPPORT. What the Checksum Engine's shared operations do: the lazy table build under the invariant of TBL_VALID, the
checksum of a byte sequence, and what CRC.BUF can do. -/

namespace Sys2Proof.Machine

/-- With TBL_VALID = 1 implying TBL = TBLC, `EnsureTable` leaves the built table. -/
theorem ensureTable_of_tblOk {s : State} (h : s.tblOk) : ensureTable s = { s with tbl := tblc, tblValid := true } := by
  unfold ensureTable
  split
  · rename_i hv
    have := h hv
    cases s
    simp_all
  · rfl

theorem ensureTable_tbl_of_tblOk {s : State} (h : s.tblOk) : (ensureTable s).tbl = tblc := by
  rw [ensureTable_of_tblOk h]

@[simp] theorem ensureTable_valid (s : State) : (ensureTable s).tblValid = true := by
  unfold ensureTable buildTable
  split <;> simp_all

theorem ensureTable_tblOk {s : State} (h : s.tblOk) : (ensureTable s).tblOk :=
  fun _ => ensureTable_tbl_of_tblOk h

theorem crcStepWith_tblc : crcStepWith tblc = crcStep := rfl

/-- The checksum with the table built, in terms of `CrcStep` and `Crc32`. -/
theorem checksum_of_tblOk {s : State} (h : s.tblOk) (bytes : List Byte) :
    checksum bytes (ensureTable s) = { s with
      tbl := tblc
      tblValid := true
      crcAcc := bytes.foldl crcStep Config.crcOnes
      crcOut := crc32 bytes } := by
  rw [ensureTable_of_tblOk h]
  rfl

/-- CRC.BUF where ACC_IDX and the cells below it hold values. -/
theorem opCrcBuf_ok {s : State} {idx : Word} {bytes : List Byte} (hi : s.accIdx = some idx)
    (hl : bytes.length = idx.toNat) (hb : ∀ a < idx.toNat, s.accbuf.read a = bytes[a]?) :
    opCrcBuf s = .ok (checksum bytes (ensureTable s)) := by
  have hr : readCells s.accbuf 0 idx.toNat = .ok bytes :=
    readCells_eq_ok.2 ⟨hl, fun i hi => by simpa using hb i hi⟩
  simp [opCrcBuf, hi, hr]

theorem opCrcBuf_no_index {s : State} (h : s.accIdx = none) : opCrcBuf s = .error (.fault .releasedRegister) := by
  simp [opCrcBuf, h]

theorem opCrcBuf_no_cell {s : State} {idx : Word} (hi : s.accIdx = some idx)
    (h : ∃ a < idx.toNat, s.accbuf.read a = none) : opCrcBuf s = .error (.fault .unwrittenBufferCell) := by
  have hr : readCells s.accbuf 0 idx.toNat = .error (.fault .unwrittenBufferCell) :=
    readCells_of_none (by simpa using h)
  simp [opCrcBuf, hi, hr]

/-- Everything CRC.BUF can do when it ends normally. -/
theorem opCrcBuf_eq_ok {s t : State} (h : opCrcBuf s = .ok t) :
    ∃ idx bytes, s.accIdx = some idx ∧ bytes.length = idx.toNat ∧ (∀ a < idx.toNat, s.accbuf.read a = bytes[a]?) ∧
      t = checksum bytes (ensureTable s) := by
  obtain ⟨idx, hi, h⟩ := bind_eq_ok h
  obtain ⟨bytes, hb, h⟩ := bind_eq_ok h
  cases h
  rw [readCells_eq_ok] at hb
  exact ⟨idx, bytes, readReg_eq_ok.1 hi, hb.1, fun a ha => by simpa using hb.2 a ha, rfl⟩

/-- CRC.BUF raises no error. -/
theorem opCrcBuf_eq_error {s : State} {e : Stop} (h : opCrcBuf s = .error e) :
    (e = .fault .releasedRegister ∧ s.accIdx = none) ∨
    (e = .fault .unwrittenBufferCell ∧ ∃ idx, s.accIdx = some idx ∧ ∃ a < idx.toNat, s.accbuf.read a = none) := by
  match hi : s.accIdx with
  | none => rw [opCrcBuf_no_index hi] at h; cases h; exact .inl ⟨rfl, rfl⟩
  | some idx =>
    rw [opCrcBuf, hi, readReg_some, bind_ok] at h
    rcases bind_eq_error h with h | ⟨bytes, _, h⟩
    · obtain ⟨he, a, ha, hr⟩ := readCells_eq_error h
      exact .inr ⟨he, idx, rfl, a, ha, by simpa using hr⟩
    · cases h

end Sys2Proof.Machine
end

