-- ==== Sys2Proof/Laws/Decode.lean ====
section
/-! SUPPORT. What the decoder answers, in terms of the three fields of a word; the fields of an encoded operation. -/

namespace Sys2Proof

/-- A word is its three fields. -/
theorem word_of_fields (w : Word) : (w.extractLsb' 16 16 ++ w.extractLsb' 8 8) ++ w.extractLsb' 0 8 = w := by
  apply BitVec.eq_of_getLsbD_eq
  intro i hi
  simp only [BitVec.getLsbD_append, BitVec.getLsbD_extractLsb']
  by_cases h8 : i < 8
  · simp [h8]
  · by_cases h16 : i - 8 < 8
    · simp [h8, h16]; congr 1; omega
    · simp [h8, h16]
      rw [show 16 + (i - 8 - 8) = i by omega]
      simp; omega

/-- The fields of a word put together from three. -/
theorem fields_of_word (h : BitVec 16) (f o : Byte) :
    ((h ++ f) ++ o).extractLsb' 16 16 = h ∧ ((h ++ f) ++ o).extractLsb' 8 8 = f ∧ ((h ++ f) ++ o).extractLsb' 0 8 = o := by
  refine ⟨?_, ?_, ?_⟩ <;> apply BitVec.eq_of_getLsbD_eq <;> intro j hj <;>
    simp only [BitVec.getLsbD_append, BitVec.getLsbD_extractLsb']
  · have h1 : ¬ 16 + j < 8 := by omega
    have h2 : ¬ 16 + j - 8 < 8 := by omega
    have h3 : 16 + j - 8 - 8 = j := by omega
    simp [hj, h1, h2, h3]
  · have h1 : ¬ 8 + j < 8 := by omega
    have h2 : 8 + j - 8 = j := by omega
    simp [hj, h1, h2]
  · simp [hj]

theorem encode_high (i : Instr) : (encode i).extractLsb' 16 16 = 0 := (fields_of_word 0 i.field i.opcode).1
theorem encode_field (i : Instr) : (encode i).extractLsb' 8 8 = i.field := (fields_of_word 0 i.field i.opcode).2.1
theorem encode_opcode (i : Instr) : (encode i).extractLsb' 0 8 = i.opcode := (fields_of_word 0 i.field i.opcode).2.2

/-- An operation is its opcode and its field. -/
theorem Instr.eq_of_opcode_field {i j : Instr} (ho : i.opcode = j.opcode) (hf : i.field = j.field) : i = j := by
  cases i <;> cases j <;> simp_all [Instr.opcode, Instr.field]

/-- Every row of the operation map makes operations with its own opcode and format. -/
theorem opRows_sound : ∀ row ∈ opRows, ∀ f : Byte,
    (row.instr f).opcode = row.opcode ∧ (row.instr f).format = row.format ∧
      (row.format = .cmd8 → (row.instr f).field = f) ∧ (row.format = .cmd0 → (row.instr f).field = 0) := by
  intro row h f
  simp only [opRows, opRowsLow, opRowsHigh, List.cons_append, List.nil_append, List.mem_cons, List.not_mem_nil,
    or_false] at h
  rcases h with rfl | rfl | rfl | rfl | rfl | rfl | rfl | rfl | rfl | rfl | rfl | rfl | rfl | rfl | rfl | rfl | rfl |
    rfl | rfl <;> simp [Instr.opcode, Instr.format, Instr.field]

/-- The map has the row of every operation. -/
theorem opRows_find (i : Instr) : ∃ row, opRows.find? (fun row => row.opcode == i.opcode) = some row ∧
    row.format = i.format ∧ row.instr i.field = i := by
  cases i <;> exact ⟨_, rfl, rfl, rfl⟩

theorem field_of_cmd0 {i : Instr} (h : i.format = .cmd0) : i.field = 0 := by
  cases i <;> first | rfl | cases h

/-- The decoder answers an operation exactly where the word's fields are the operation's. -/
theorem decode_eq_ok {w : Word} {i : Instr} :
    decode w = .ok i ↔
      w.extractLsb' 16 16 = 0 ∧ w.extractLsb' 8 8 = i.field ∧ w.extractLsb' 0 8 = i.opcode := by
  constructor
  · intro h
    unfold decode at h
    split at h
    · cases h
    rename_i h16
    refine ⟨not_not.1 h16, ?_⟩
    split at h
    · cases h
    rename_i row hrow
    have hmem := List.mem_of_find?_eq_some hrow
    have hop : row.opcode = w.extractLsb' 0 8 := by simpa using List.find?_some hrow
    split at h
    · rename_i hfmt
      cases h
      obtain ⟨h1, _, h2, _⟩ := opRows_sound row hmem (w.extractLsb' 8 8)
      exact ⟨(h2 hfmt).symm, by rw [h1, hop]⟩
    · rename_i hfmt
      split at h
      · cases h
      · rename_i h8
        cases h
        obtain ⟨h1, _, _, h2⟩ := opRows_sound row hmem 0
        exact ⟨by rw [h2 hfmt]; exact not_not.1 h8, by rw [h1, hop]⟩
  · rintro ⟨h16, h8, h0⟩
    obtain ⟨row, hrow, hfmt, hi⟩ := opRows_find i
    rw [decode, if_neg (not_not.2 h16), h0, hrow]
    dsimp only
    match hf : row.format with
    | .cmd8 => simp only [h8, hi]
    | .cmd0 =>
      have : i.field = 0 := field_of_cmd0 (by rw [← hfmt, hf])
      simp only
      rw [if_neg (by rw [h8, this]; exact not_not.2 rfl)]
      rw [this] at hi
      rw [hi]

end Sys2Proof
end

