-- ==== Sys2Proof/Laws/Scanline.lean ====
section
/-! SUPPORT. The derived quantities for legal descriptors, and what SLB.BUILD does: every raw byte at its place, cells outside
the frame untouched, the canonical form kept; and where it stops. -/

namespace Sys2Proof.Machine

/-! ## The derived quantities -/

/-- DEPTH and CMODE are legal. -/
def State.formatOk (s : State) : Prop :=
  (s.depth = 8 ∨ s.depth = 16) ∧ (s.cmode = Config.cmodeRgb ∨ s.cmode = Config.cmodeRgba)

theorem State.bps_of_formatOk {s : State} (h : s.formatOk) :
    (s.depth = 8 ∧ s.bps = 1) ∨ (s.depth = 16 ∧ s.bps = 2) := by
  rcases h.1 with h | h <;> simp [State.bps, h]

theorem State.nch_of_formatOk {s : State} (h : s.formatOk) : s.nch = 3 ∨ s.nch = 4 := by
  rcases h.2 with h | h <;> simp [State.nch, h, Config.cmodeRgb, Config.cmodeRgba]

theorem State.pstride_pos {s : State} (h : s.formatOk) : 0 < s.pstride := by
  rcases State.bps_of_formatOk h with ⟨_, hb⟩ | ⟨_, hb⟩ <;> rcases State.nch_of_formatOk h with hn | hn <;>
    simp [State.pstride, hb, hn]

theorem State.stride_pos (s : State) : 0 < s.stride := Nat.succ_pos _

/-- The cells of row `r` lie below the frame's end. -/
theorem State.rowIndex_lt {s : State} {r j : Nat} (hr : r < s.height.toNat) (hj : j < s.stride) :
    s.rowIndex r j < s.frameSize := by
  have : (r + 1) * s.stride ≤ s.height.toNat * s.stride := Nat.mul_le_mul_right _ hr
  rw [State.frameSize, Nat.mul_comm s.stride]
  rw [Nat.add_mul] at this
  unfold State.rowIndex
  omega

/-- Every cell of the frame is a position of a row. -/
theorem State.exists_rowIndex {s : State} {a : Nat} (ha : a < s.frameSize) :
    ∃ r j, r < s.height.toNat ∧ j < s.stride ∧ a = s.rowIndex r j := by
  refine ⟨a / s.stride, a % s.stride, ?_, Nat.mod_lt _ s.stride_pos, ?_⟩
  · rw [Nat.div_lt_iff_lt_mul s.stride_pos, Nat.mul_comm]
    exact ha
  · rw [State.rowIndex, Nat.mul_comm]
    exact (Nat.div_add_mod a s.stride).symm

theorem State.sampleIndex_lt {s : State} {r c : Nat} (hr : r < s.height.toNat) (hc : c < s.width.toNat) :
    s.sampleIndex r c < s.width.toNat * s.height.toNat := by
  have : (r + 1) * s.width.toNat ≤ s.height.toNat * s.width.toNat := Nat.mul_le_mul_right _ hr
  rw [Nat.mul_comm s.width.toNat]
  rw [Nat.add_mul] at this
  unfold State.sampleIndex
  omega

theorem State.exists_sampleIndex {s : State} {i : Nat} (hi : i < s.width.toNat * s.height.toNat) :
    ∃ r c, r < s.height.toNat ∧ c < s.width.toNat ∧ i = s.sampleIndex r c := by
  have hw : 0 < s.width.toNat := by
    rcases Nat.eq_zero_or_pos s.width.toNat with h | h
    · rw [h, Nat.zero_mul] at hi; omega
    · exact h
  refine ⟨i / s.width.toNat, i % s.width.toNat, ?_, Nat.mod_lt _ hw, ?_⟩
  · rw [Nat.div_lt_iff_lt_mul hw, Nat.mul_comm]
    exact hi
  · rw [State.sampleIndex, Nat.mul_comm]
    exact (Nat.div_add_mod i s.width.toNat).symm

/-! ## The raw bytes -/

theorem rawByte_tag (s : State) (r : Nat) : rawByte s r 0 = some s.fkind := rfl

/-- `RawByte` at the position of byte `i` of a sample (41 R131 and R132 agree). -/
theorem rawByte_sample {s : State} (h : s.formatOk) {r c k i : Nat} (hk : k < s.nch) (hi : i < s.bps) :
    rawByte s r (s.samplePosition c k i) =
      (s.channelCell k (s.sampleIndex r c)).map fun v => sampleByte s.depth v i := by
  have hlt : k * s.bps + i < s.pstride := by
    have : (k + 1) * s.bps ≤ s.nch * s.bps := Nat.mul_le_mul_right _ hk
    rw [Nat.add_mul] at this
    unfold State.pstride
    omega
  have hpos : 0 < s.pstride := by omega
  have hj : s.samplePosition c k i = c * s.pstride + (k * s.bps + i) + 1 := by unfold State.samplePosition; omega
  have hdiv : (c * s.pstride + (k * s.bps + i)) / s.pstride = c := by
    rw [Nat.mul_comm, Nat.mul_add_div hpos, Nat.div_eq_of_lt hlt, Nat.add_zero]
  have hoff : c * s.pstride + (k * s.bps + i) - c * s.pstride = k * s.bps + i := by omega
  rw [rawByte, if_neg (by omega), hj]
  simp only [Nat.add_sub_cancel, hdiv, hoff]
  rcases State.bps_of_formatOk h with ⟨hd, hb⟩ | ⟨hd, hb⟩
  · rw [hb] at hi ⊢
    obtain rfl : i = 0 := by omega
    simp [hd, sampleByte]
  · rw [hb] at hi ⊢
    have h1 : (k * 2 + i) / 2 = k := by omega
    have h2 : i % 2 = 0 ↔ i = 0 := by omega
    simp [hd, sampleByte, h1, h2]

/-- Where the host has written every cell SLB.BUILD reads, every raw byte of the frame has a value. -/
theorem rawByte_eq_rawAt {s : State} (hf : s.formatOk) (hw : s.channelsWritten) {r j : Nat}
    (hr : r < s.height.toNat) (hj : j < s.stride) : rawByte s r j = some (rawAt s r j) := by
  suffices h : (rawByte s r j).isSome by
    obtain ⟨b, hb⟩ := Option.isSome_iff_exists.1 h
    simp [rawAt, hb]
  by_cases h0 : j = 0
  · subst h0; rfl
  have hpos := State.pstride_pos hf
  have hc : (j - 1) / s.pstride < s.width.toNat := by
    rw [Nat.div_lt_iff_lt_mul hpos]
    unfold State.stride at hj
    omega
  have ho : j - 1 - (j - 1) / s.pstride * s.pstride < s.pstride := by
    rw [Nat.mul_comm, ← Nat.mod_eq_sub_mul_div]
    exact Nat.mod_lt _ hpos
  have hcell : ∀ k < s.nch, (s.channelCell k (s.sampleIndex r ((j - 1) / s.pstride))).isSome := fun k hk =>
    hw k _ hk (State.sampleIndex_lt hr hc)
  have hp : s.pstride = s.nch * s.bps := rfl
  unfold rawByte
  rw [if_neg h0]
  dsimp only
  rcases State.bps_of_formatOk hf with ⟨hd, hb⟩ | ⟨hd, hb⟩
  · rw [if_pos hd, Option.isSome_map]
    rw [hb] at hp
    exact hcell _ (by omega)
  · rw [if_neg (by simp [hd]), Option.isSome_map]
    rw [hb] at hp
    exact hcell _ (by omega)

theorem readChannel_eq {s : State} {k i : Nat} {v : Sample} (h : s.channelCell k i = some v) :
    readChannel s k i = .ok v := by
  unfold State.channelCell at h
  unfold readChannel
  split at h
  · rename_i hk; rw [dif_pos hk, h]
  · cases h

theorem readChannel_none {s : State} {k i : Nat} (hk : k < 4) (h : s.channelCell k i = none) :
    readChannel s k i = .error (.fault .unwrittenChannelCell) := by
  unfold State.channelCell at h
  unfold readChannel
  rw [dif_pos hk] at h ⊢
  rw [h]

theorem readChannel_eq_error {s : State} {k i : Nat} {e : Stop} (hk : k < 4) (h : readChannel s k i = .error e) :
    e = .fault .unwrittenChannelCell := by
  unfold readChannel at h
  rw [dif_pos hk] at h
  split at h
  · cases h
  · cases h; rfl

/-! ## Rows of a frame -/

/-- The first `n` positions of row `r` hold `f` in `m`, and outside the row `m` is as `m₀`. -/
structure RowHolds (s : State) (r : Nat) (f : Nat → Option Byte) (m₀ : Memory 8) (n : Nat) (m : Memory 8) : Prop where
  bytes : ∀ j < n, m.read (s.rowIndex r j) = f j
  others : ∀ a, a < s.rowIndex r 0 ∨ s.rowIndex (r + 1) 0 ≤ a → m.read a = m₀.read a
  wf : m₀.wf = true → m.wf = true

theorem RowHolds.start (s : State) (r : Nat) (f : Nat → Option Byte) (m : Memory 8) : RowHolds s r f m 0 m :=
  ⟨fun j hj => absurd hj (Nat.not_lt_zero j), fun _ _ => rfl, id⟩

theorem RowHolds.write {s : State} {r n : Nat} {f : Nat → Option Byte} {m₀ m : Memory 8} {b : Byte}
    (h : RowHolds s r f m₀ n m) (hn : n < s.stride) (hb : f n = some b) :
    RowHolds s r f m₀ (n + 1) (m.write (s.rowIndex r n) b) where
  bytes j hj := by
    rw [Memory.read_write]
    by_cases hjn : j = n
    · subst hjn; rw [if_pos rfl, hb]
    · rw [if_neg (by unfold State.rowIndex; omega)]
      exact h.bytes j (by omega)
  others a ha := by
    rw [Memory.read_write_other, h.others a ha]
    unfold State.rowIndex at ha ⊢
    rw [Nat.add_mul] at ha
    omega
  wf hw := Memory.wf_write _ _ _ (h.wf hw)

/-- A loop over the rows, each of which leaves its row holding `f`, leaves the frame holding `f` and other cells alone. -/
theorem loop_rows {s : State} {body : Nat → Memory 8 → Res (Memory 8)} {f : Nat → Nat → Option Byte} {m₀ : Memory 8}
    (hrow : ∀ r < s.height.toNat, ∀ m, ∃ m', body r m = .ok m' ∧ RowHolds s r (f r) m s.stride m') :
    ∃ m, loop s.height.toNat body m₀ = .ok m ∧
      (∀ r j, r < s.height.toNat → j < s.stride → m.read (s.rowIndex r j) = f r j) ∧
      (∀ a, s.frameSize ≤ a → m.read a = m₀.read a) ∧ (m₀.wf = true → m.wf = true) := by
  obtain ⟨m, hm, hb, ho, hwf⟩ := loop_ok (n := s.height.toNat) (body := body) (a := m₀)
    (fun n m => (∀ r j, r < n → j < s.stride → m.read (s.rowIndex r j) = f r j) ∧
      (∀ a, s.rowIndex n 0 ≤ a → m.read a = m₀.read a) ∧ (m₀.wf = true → m.wf = true))
    ⟨fun r j hr => absurd hr (Nat.not_lt_zero r), fun _ _ => rfl, id⟩
    (fun r hr m ⟨hb, ho, hwf⟩ => by
      obtain ⟨m', hm', h'⟩ := hrow r hr m
      refine ⟨m', hm', fun r' j hr' hj => ?_, fun a ha => ?_, h'.wf ∘ hwf⟩
      · rcases Nat.lt_or_eq_of_le (Nat.le_of_lt_succ hr') with hlt | heq
        · rw [h'.others, hb r' j hlt hj]
          have : (r' + 1) * s.stride ≤ r * s.stride := Nat.mul_le_mul_right _ hlt
          rw [Nat.add_mul] at this
          unfold State.rowIndex
          omega
        · subst heq; exact h'.bytes j hj
      · rw [h'.others a (.inr ha), ho a]
        unfold State.rowIndex at ha ⊢
        rw [Nat.add_mul] at ha
        omega)
  refine ⟨m, hm, hb, fun a ha => ho a ?_, hwf⟩
  unfold State.frameSize at ha
  rw [Nat.mul_comm] at ha
  exact ha

/-! ## SLB.BUILD -/

theorem stride_eq (s : State) : s.stride = s.samplePosition s.width.toNat 0 0 := by
  simp [State.stride, State.samplePosition, Nat.add_comm]

theorem samplePosition_lt {s : State} {c k i : Nat} (hc : c < s.width.toNat) (hk : k < s.nch) (hi : i < s.bps) :
    s.samplePosition c k i < s.stride := by
  have h1 : (c + 1) * s.pstride ≤ s.width.toNat * s.pstride := Nat.mul_le_mul_right _ hc
  have h2 : (k + 1) * s.bps ≤ s.nch * s.bps := Nat.mul_le_mul_right _ hk
  have h3 : s.pstride = s.nch * s.bps := rfl
  rw [Nat.add_mul] at h1 h2
  unfold State.samplePosition State.stride
  omega

/-- One sample built: its bytes continue the row. -/
theorem buildSample_built {s : State} (hf : s.formatOk) {r c k : Nat} {m₀ m : Memory 8}
    (hc : c < s.width.toNat) (hk : k < s.nch) (hw : (s.channelCell k (s.sampleIndex r c)).isSome)
    (h : RowHolds s r (rawByte s r) m₀ (s.samplePosition c k 0) m) :
    ∃ m', buildSample s r c k m = .ok m' ∧ RowHolds s r (rawByte s r) m₀ (s.samplePosition c (k + 1) 0) m' := by
  obtain ⟨v, hv⟩ := Option.isSome_iff_exists.1 hw
  rw [buildSample, readChannel_eq hv, bind_ok]
  have hend : s.samplePosition c (k + 1) 0 = s.samplePosition c k s.bps := by
    simp [State.samplePosition, Nat.add_mul, Nat.add_assoc]
  rw [hend]
  refine loop_ok (fun i m' => RowHolds s r (rawByte s r) m₀ (s.samplePosition c k i) m') h fun i hi m' hm' => ⟨_, rfl, ?_⟩
  exact hm'.write (samplePosition_lt hc hk hi) (by rw [rawByte_sample hf hk hi, hv]; rfl)

/-- One row built. -/
theorem buildRow_built {s : State} (hf : s.formatOk) {r : Nat} (m₀ : Memory 8)
    (hw : ∀ c k, c < s.width.toNat → k < s.nch → (s.channelCell k (s.sampleIndex r c)).isSome) :
    ∃ m', buildRow s r m₀ = .ok m' ∧ RowHolds s r (rawByte s r) m₀ s.stride m' := by
  have h0 : RowHolds s r (rawByte s r) m₀ (s.samplePosition 0 0 0) (m₀.write (s.rowIndex r 0) s.fkind) := by
    have := (RowHolds.start s r (rawByte s r) m₀).write s.stride_pos (rawByte_tag s r)
    simpa [State.samplePosition] using this
  rw [buildRow, stride_eq]
  refine loop_ok (fun c m => RowHolds s r (rawByte s r) m₀ (s.samplePosition c 0 0) m) h0 fun c hc m hm => ?_
  have hend : s.samplePosition (c + 1) 0 0 = s.samplePosition c s.nch 0 := by
    simp [State.samplePosition, Nat.add_mul, Nat.add_assoc, State.pstride]
  rw [hend]
  exact loop_ok (fun k m => RowHolds s r (rawByte s r) m₀ (s.samplePosition c k 0) m) hm fun k hk m hm =>
    buildSample_built hf hc hk (hw c k hc hk) hm

/-- SLB.BUILD where the host has written every cell it reads: RAW holds the frame, other cells are untouched. -/
theorem opSlbBuild_built {s : State} (hf : s.formatOk) (hw : s.channelsWritten) :
    ∃ m, opSlbBuild s = .ok { s with raw := m } ∧
      (∀ r j, r < s.height.toNat → j < s.stride → m.read (s.rowIndex r j) = rawByte s r j) ∧
      (∀ a, s.frameSize ≤ a → m.read a = s.raw.read a) ∧ (s.raw.wf = true → m.wf = true) := by
  obtain ⟨m, hm, h⟩ := loop_rows (body := buildRow s) (m₀ := s.raw) fun r hr m =>
    buildRow_built hf m fun c k hc hk => hw k _ hk (State.sampleIndex_lt hr hc)
  exact ⟨m, by rw [opSlbBuild, hm, bind_ok], h⟩

theorem buildSample_eq_error {s : State} (hf : s.formatOk) {r c k : Nat} {m : Memory 8} {e : Stop} (hk : k < s.nch)
    (h : buildSample s r c k m = .error e) : e = .fault .unwrittenChannelCell := by
  have hk4 : k < 4 := by rcases State.nch_of_formatOk hf with hn | hn <;> omega
  rcases bind_eq_error h with h | ⟨v, _, h⟩
  · exact readChannel_eq_error hk4 h
  · obtain ⟨i, _, x, hx⟩ := loop_error h
    cases hx

theorem buildRow_eq_error {s : State} (hf : s.formatOk) {r : Nat} {m : Memory 8} {e : Stop}
    (h : buildRow s r m = .error e) : e = .fault .unwrittenChannelCell := by
  obtain ⟨c, _, x, hx⟩ := loop_error h
  obtain ⟨k, hk, y, hy⟩ := loop_error hx
  exact buildSample_eq_error hf hk hy

/-- SLB.BUILD where a cell it reads holds no value. -/
theorem opSlbBuild_unwritten {s : State} (hf : s.formatOk) (hw : ¬ s.channelsWritten) :
    opSlbBuild s = .error (.fault .unwrittenChannelCell) := by
  simp only [State.channelsWritten, not_forall, Option.not_isSome_iff_eq_none] at hw
  obtain ⟨k, i, hk, hi, hn⟩ := hw
  obtain ⟨r, c, hr, hc, rfl⟩ := State.exists_sampleIndex hi
  have hk4 : k < 4 := by rcases State.nch_of_formatOk hf with hn | hn <;> omega
  have hsample : ∀ m, buildSample s r c k m = .error (.fault .unwrittenChannelCell) := fun m => by
    rw [buildSample, readChannel_none hk4 hn, bind_error]
  have hrow : ∀ m, buildRow s r m = .error (.fault .unwrittenChannelCell) := fun m =>
    loop_stops
      (fun c _ x e h => by
        obtain ⟨k, hk, y, hy⟩ := loop_error h
        exact buildSample_eq_error hf hk hy)
      ⟨c, hc, fun x => loop_stops (fun k hk x e h => buildSample_eq_error hf hk h) ⟨k, hk, hsample⟩⟩
  rw [opSlbBuild, loop_stops (fun r _ x e h => buildRow_eq_error hf h) ⟨r, hr, hrow⟩, bind_error]

/-- Everything SLB.BUILD can do on a legal descriptor. -/
theorem opSlbBuild_cases {s : State} (hf : s.formatOk) :
    (s.channelsWritten ∧ ∃ m, opSlbBuild s = .ok { s with raw := m } ∧
      (∀ r j, r < s.height.toNat → j < s.stride → m.read (s.rowIndex r j) = rawByte s r j)) ∨
    (¬ s.channelsWritten ∧ opSlbBuild s = .error (.fault .unwrittenChannelCell)) := by
  by_cases hw : s.channelsWritten
  · obtain ⟨m, hm, hb, _⟩ := opSlbBuild_built hf hw
    exact .inl ⟨hw, m, hm, hb⟩
  · exact .inr ⟨hw, opSlbBuild_unwritten hf hw⟩

/-- The frame of SLB.BUILD on every descriptor: RAW alone changes, in canonical form. It raises no error. -/
theorem opSlbBuild_frame (s : State) :
    Meets (opSlbBuild s) (fun t => t = { s with raw := t.raw } ∧ (s.raw.wf = true → t.raw.wf = true))
      fun _ => False := by
  match h : loop s.height.toNat (buildRow s) s.raw with
  | .ok m =>
    rw [opSlbBuild, h, bind_ok]
    refine ⟨rfl, fun hwf => ?_⟩
    refine loop_inv h (fun _ m => m.wf = true) hwf fun r _ x y hx hy => ?_
    refine loop_inv hy (fun _ m => m.wf = true) (Memory.wf_write _ _ _ hx) fun c _ x y hx hy => ?_
    refine loop_inv hy (fun _ m => m.wf = true) hx fun k _ x y hx hy => ?_
    obtain ⟨v, _, hy⟩ := bind_eq_ok hy
    refine loop_inv hy (fun _ m => m.wf = true) hx fun i _ x y hx hy => ?_
    cases hy
    exact Memory.wf_write _ _ _ hx
  | .error e =>
    rw [opSlbBuild, h, bind_error]
    obtain ⟨r, _, x, hx⟩ := loop_error h
    obtain ⟨c, _, x, hx⟩ := loop_error hx
    obtain ⟨k, _, x, hx⟩ := loop_error hx
    rcases bind_eq_error hx with hx | ⟨v, _, hx⟩
    · unfold readChannel at hx
      split at hx
      · split at hx
        · cases hx
        · cases hx; trivial
      · cases hx; trivial
    · obtain ⟨i, _, x, hx⟩ := loop_error hx
      cases hx

end Sys2Proof.Machine
end

