-- ==== Sys2Proof/Laws/Filter.lean ====
section
/-! SUPPORT. What `Filter(kind)` does: every byte of the frame replaced by its difference from the predictor, cells outside
untouched, the canonical form kept; and where it stops. -/

namespace Sys2Proof.Machine

/-- `FiltByte` of R154 as a function of the raw bytes. -/
def filterAt (kind : FilterKind) (s : State) (raw : Nat → Nat → Byte) (r j : Nat) : Byte :=
  if j = 0 then raw r 0
  else
    raw r j -
      predictor kind
        (if s.pstride < j then raw r (j - s.pstride) else 0)
        (if 1 ≤ r then raw (r - 1) j else 0)
        (if 1 ≤ r ∧ s.pstride < j then raw (r - 1) (j - s.pstride) else 0)

theorem filtAt_eq (kind : FilterKind) (s : State) : filtAt kind s = filterAt kind s (rawAt s) := rfl

/-- RAW holds the frame `raw`. -/
def State.rawHolds (s : State) (raw : Nat → Nat → Byte) : Prop :=
  ∀ r j, r < s.height.toNat → j < s.stride → s.raw.read (s.rowIndex r j) = some (raw r j)

theorem neighbour_true {s : State} {i : Nat} {b : Byte} (h : s.raw.read i = some b) : neighbour s true i = .ok b :=
  readCell_of_some h

@[simp] theorem neighbour_false (s : State) (i : Nat) : neighbour s false i = .ok 0 := rfl

theorem neighbour_eq_error {s : State} {p : Bool} {i : Nat} {e : Stop} (h : neighbour s p i = .error e) :
    e = .fault .unwrittenBufferCell := by
  cases p
  · cases h
  · exact (readCell_eq_error h).1

theorem neighbour_ok {s : State} {p : Prop} [Decidable p] {i : Nat} {b : Byte} (h : p → s.raw.read i = some b) :
    neighbour s (decide p) i = .ok (if p then b else 0) := by
  by_cases hp : p
  · rw [if_pos hp, decide_eq_true hp, neighbour_true (h hp)]
  · rw [if_neg hp, decide_eq_false hp, neighbour_false]

/-- One filtered byte where the frame is written. -/
theorem filterByte_ok {kind : FilterKind} {s : State} {raw : Nat → Nat → Byte} (h : s.rawHolds raw) {r j : Nat}
    (hr : r < s.height.toNat) (hj : j < s.stride) (h0 : j ≠ 0) :
    filterByte kind s r j = .ok (filterAt kind s raw r j) := by
  rw [filterByte, readCell_of_some (h r j hr hj), bind_ok,
    neighbour_ok fun _ => h r (j - s.pstride) hr (by omega), bind_ok,
    neighbour_ok fun _ => h (r - 1) j (by omega) hj, bind_ok, ← Bool.decide_and,
    neighbour_ok fun _ => h (r - 1) (j - s.pstride) (by omega) (by omega), bind_ok, filterAt, if_neg h0]

theorem filterByte_eq_error {kind : FilterKind} {s : State} {r j : Nat} {e : Stop}
    (h : filterByte kind s r j = .error e) : e = .fault .unwrittenBufferCell := by
  rcases bind_eq_error h with h | ⟨_, _, h⟩
  · exact (readCell_eq_error h).1
  rcases bind_eq_error h with h | ⟨_, _, h⟩
  · exact neighbour_eq_error h
  rcases bind_eq_error h with h | ⟨_, _, h⟩
  · exact neighbour_eq_error h
  rcases bind_eq_error h with h | ⟨_, _, h⟩
  · exact neighbour_eq_error h
  · cases h

theorem filterRow_ok {kind : FilterKind} {s : State} {raw : Nat → Nat → Byte} (h : s.rawHolds raw) {r : Nat}
    (hr : r < s.height.toNat) (m : Memory 8) :
    ∃ m', filterRow kind s r m = .ok m' ∧ RowHolds s r (fun j => some (filterAt kind s raw r j)) m s.stride m' := by
  rw [filterRow, readCell_of_some (h r 0 hr s.stride_pos), bind_ok]
  obtain ⟨m', hm', h'⟩ := loop_ok (n := s.stride - 1)
    (body := fun j' m => (filterByte kind s r (j' + 1)).bind fun b => .ok (m.write (s.rowIndex r (j' + 1)) b))
    (a := m.write (s.rowIndex r 0) (raw r 0))
    (fun j m' => RowHolds s r (fun j => some (filterAt kind s raw r j)) m (j + 1) m')
    ((RowHolds.start s r _ m).write s.stride_pos (by simp [filterAt]))
    (fun j hj m' hm' => by
      refine ⟨_, by rw [filterByte_ok h hr (by omega) (by omega), bind_ok], ?_⟩
      exact hm'.write (by omega) rfl)
  have hs := s.stride_pos
  rw [Nat.sub_add_cancel hs] at h'
  exact ⟨m', hm', h'⟩

theorem filterRow_eq_error {kind : FilterKind} {s : State} {r : Nat} {m : Memory 8} {e : Stop}
    (h : filterRow kind s r m = .error e) : e = .fault .unwrittenBufferCell := by
  rcases bind_eq_error h with h | ⟨_, _, h⟩
  · exact (readCell_eq_error h).1
  · obtain ⟨j, _, x, h⟩ := loop_error h
    rcases bind_eq_error h with h | ⟨_, _, h⟩
    · exact filterByte_eq_error h
    · cases h

/-- `Filter(kind)` where every cell of the frame is written. -/
theorem opFilter_ok (kind : FilterKind) {s : State} {raw : Nat → Nat → Byte} (h : s.rawHolds raw) :
    ∃ m, opFilter kind s = .ok { s with filt := m } ∧
      (∀ r j, r < s.height.toNat → j < s.stride → m.read (s.rowIndex r j) = some (filterAt kind s raw r j)) ∧
      (∀ a, s.frameSize ≤ a → m.read a = s.filt.read a) ∧ (s.filt.wf = true → m.wf = true) := by
  obtain ⟨m, hm, h⟩ := loop_rows (body := filterRow kind s) (m₀ := s.filt) fun r hr m => filterRow_ok h hr m
  exact ⟨m, by rw [opFilter, hm, bind_ok], h⟩

/-- `Filter(kind)` where a cell of the frame holds no value. -/
theorem opFilter_unwritten (kind : FilterKind) {s : State} (h : ∃ a < s.frameSize, s.raw.read a = none) :
    opFilter kind s = .error (.fault .unwrittenBufferCell) := by
  obtain ⟨a, ha, hn⟩ := h
  obtain ⟨r, j, hr, hj, rfl⟩ := State.exists_rowIndex ha
  have hrow : ∀ m, filterRow kind s r m = .error (.fault .unwrittenBufferCell) := fun m => by
    match h0 : readCell s.raw (s.rowIndex r 0) with
    | .error e => rw [filterRow, h0, bind_error, (readCell_eq_error h0).1]
    | .ok tag =>
      rw [filterRow, h0, bind_ok]
      have hj0 : j ≠ 0 := by
        rintro rfl
        rw [readCell_of_none hn] at h0
        cases h0
      refine loop_stops (fun j _ x e h => ?_) ⟨j - 1, by omega, fun x => ?_⟩
      · rcases bind_eq_error h with h | ⟨_, _, h⟩
        · exact filterByte_eq_error h
        · cases h
      · rw [Nat.sub_add_cancel (by omega), filterByte, readCell_of_none hn, bind_error, bind_error]
  rw [opFilter, loop_stops (fun r _ x e h => filterRow_eq_error h) ⟨r, hr, hrow⟩, bind_error]

/-- A frame whose cells are all written. -/
theorem rawHolds_of_isSome {s : State} (h : ∀ a < s.frameSize, (s.raw.read a).isSome) :
    s.rawHolds fun r j => (s.raw.read (s.rowIndex r j)).getD 0 := by
  intro r j hr hj
  obtain ⟨b, hb⟩ := Option.isSome_iff_exists.1 (h _ (State.rowIndex_lt hr hj))
  simp [hb]

/-- The frame of `Filter(kind)`: FILT alone changes, in canonical form. It raises no error. -/
theorem opFilter_frame (kind : FilterKind) (s : State) :
    Meets (opFilter kind s) (fun t => t = { s with filt := t.filt } ∧ (s.filt.wf = true → t.filt.wf = true))
      fun _ => False := by
  by_cases h : ∃ a < s.frameSize, s.raw.read a = none
  · rw [opFilter_unwritten kind h]; trivial
  · obtain ⟨m, hm, _, _, hwf⟩ := opFilter_ok kind (rawHolds_of_isSome fun a ha => by
      rw [Option.isSome_iff_ne_none]; exact fun hn => h ⟨a, ha, hn⟩)
    rw [hm]
    exact ⟨rfl, hwf⟩

end Sys2Proof.Machine
end

