-- ==== Sys2Proof/Laws/Writer.lean ====
section
/-! SUPPORT. What `WriteChunk` can do: every write accepted, a write rejected, a write never answered, the accumulator full;
and the frame of every writer operation, whatever the sink answers. -/

namespace Sys2Proof.Machine

theorem putRawSeq_append (u v : List Byte) (s : State) :
    putRawSeq (u ++ v) s = (putRawSeq u s).bind (putRawSeq v) := by
  induction u generalizing s with
  | nil => rfl
  | cons b u ih =>
    simp only [List.cons_append, putRawSeq]
    match putRaw b s with
    | .ok t => exact ih t
    | .error e => rfl

theorem putMirSeq_append (u v : List Byte) (s : State) :
    putMirSeq (u ++ v) s = (putMirSeq u s).bind (putMirSeq v) := by
  induction u generalizing s with
  | nil => rfl
  | cons b u ih =>
    simp only [List.cons_append, putMirSeq]
    match putMir b s with
    | .ok t => exact ih t
    | .error e => rfl

@[simp] theorem be32_length (v : Word) : (be32 v).length = 4 := rfl

theorem chunk_length (tag data : List Byte) : (chunk tag data).length = 8 + (tag.length + data.length) := by
  simp [chunk]; omega

/-- `WriteChunk` with tag and data as one mirrored sequence. -/
theorem writeChunk_eq (tag data : List Byte) (s : State) :
    writeChunk tag data s =
      (putRawSeq (be32 (BitVec.ofNat 32 data.length)) s).bind fun s =>
      (putMirSeq (tag ++ data) (accReset s)).bind fun s =>
      (opCrcBuf s).bind fun s => putRawSeq (be32 s.crcOut) s := by
  rw [writeChunk, putRaw32]
  congr 1
  funext t
  rw [putMirSeq_append]
  match putMirSeq tag (accReset t) with
  | .ok u => rfl
  | .error e => rfl

/-- The state after a chunk's length has been sent and the mirroring restarted. -/
def chunkStart (data : List Byte) (s : State) : State := accReset (sent (be32 (BitVec.ofNat 32 data.length)) s)

/-- The state after a chunk's tag and data have been sent and mirrored too. -/
def chunkMirrored (tag data : List Byte) (s : State) : State :=
  mirrored 0 (tag ++ data) (sent (tag ++ data) (chunkStart data s))

/-- The state after a chunk's checksum has been taken too. -/
def chunkBody (tag data : List Byte) (s : State) : State :=
  checksum (tag ++ data) (ensureTable (chunkMirrored tag data s))

@[simp] theorem chunkStart_accIdx (data : List Byte) (s : State) : (chunkStart data s).accIdx = some 0 := rfl
@[simp] theorem chunkStart_accCap (data : List Byte) (s : State) : (chunkStart data s).accCap = s.accCap := rfl
@[simp] theorem chunkStart_sinkDraws (data : List Byte) (s : State) :
    (chunkStart data s).sinkDraws = s.sinkDraws.drop 4 := rfl
@[simp] theorem chunkBody_sinkDraws (tag data : List Byte) (s : State) :
    (chunkBody tag data s).sinkDraws = s.sinkDraws.drop (4 + (tag.length + data.length)) := by
  simp [chunkBody, chunkMirrored]

theorem chunkBody_of_tblOk {tag data : List Byte} {s : State} (h : s.tblOk) :
    chunkBody tag data s = { chunkMirrored tag data s with
      tbl := tblc
      tblValid := true
      crcAcc := (tag ++ data).foldl crcStep Config.crcOnes
      crcOut := crc32 (tag ++ data) } := by
  have h' : (chunkMirrored tag data s).tblOk := h
  exact checksum_of_tblOk h' _

theorem writeSeq_read (m : Memory 8) (bs : List Byte) (a : Nat) (h : a < bs.length) :
    (m.writeSeq 0 bs).read a = bs[a]? := by
  rw [Memory.read_writeSeq, if_pos (by omega), Nat.sub_zero]

/-- A chunk's length field accepted. -/
theorem writeChunk_start {tag data : List Byte} {s : State} (h : ∀ k < 4, s.sinkDraws.answer k = .accept) :
    writeChunk tag data s =
      (putMirSeq (tag ++ data) (chunkStart data s)).bind fun s =>
      (opCrcBuf s).bind fun s => putRawSeq (be32 s.crcOut) s := by
  rw [writeChunk_eq, putRawSeq_accept (fun k hk => h k (by simpa using hk)), bind_ok, chunkStart]

/-- A chunk's writes accepted up to its checksum. -/
theorem writeChunk_body {tag data : List Byte} {s : State} {cap : Word} (hc : s.accCap = some cap)
    (hroom : tag.length + data.length ≤ cap.toNat)
    (h : ∀ k < 4 + (tag.length + data.length), s.sinkDraws.answer k = .accept) :
    writeChunk tag data s = putRawSeq (be32 (chunkBody tag data s).crcOut) (chunkBody tag data s) := by
  have hlt := cap.isLt
  have hn : (BitVec.ofNat 32 (tag ++ data).length).toNat = (tag ++ data).length := by
    rw [BitVec.toNat_ofNat, Nat.mod_eq_of_lt]
    simp; omega
  have hm : putMirSeq (tag ++ data) (chunkStart data s) = .ok (chunkMirrored tag data s) :=
    putMirSeq_accept (chunkStart_accIdx _ _) hc (by simpa using hroom) fun k hk => by
      have := h (4 + k) (by simp at hk; omega)
      simpa using this
  have hb : opCrcBuf (chunkMirrored tag data s) = .ok (chunkBody tag data s) :=
    opCrcBuf_ok (idx := BitVec.ofNat 32 (tag ++ data).length)
      (by rw [chunkMirrored, mirrored_accIdx]; simp) hn.symm fun a ha => writeSeq_read _ _ a (by rwa [hn] at ha)
  rw [writeChunk_start (fun k hk => h k (by omega)), hm, bind_ok, hb, bind_ok]

/-- `WriteChunk` with every write accepted and room for the tag and the data. -/
theorem writeChunk_accept {tag data : List Byte} {s : State} {cap : Word} (ht : s.tblOk) (hc : s.accCap = some cap)
    (hroom : tag.length + data.length ≤ cap.toNat)
    (h : ∀ k < (chunk tag data).length, s.sinkDraws.answer k = .accept) :
    writeChunk tag data s = .ok { s with
      sink := s.sink ++ chunk tag data
      offered := s.offered ++ chunk tag data
      sinkDraws := s.sinkDraws.drop (chunk tag data).length
      accIdx := some (BitVec.ofNat 32 (tag ++ data).length)
      accbuf := s.accbuf.writeSeq 0 (tag ++ data)
      tbl := tblc
      tblValid := true
      crcAcc := (tag ++ data).foldl crcStep Config.crcOnes
      crcOut := crc32 (tag ++ data) } := by
  rw [chunk_length] at h
  rw [writeChunk_body hc hroom fun k hk => h k (by omega), putRawSeq_accept]
  · rw [chunkBody_of_tblOk ht, chunk_length]
    have hlen : 4 + (tag.length + data.length) + 4 = 8 + (tag.length + data.length) := by omega
    simp [sent, chunkMirrored, chunkStart, mirrored, accReset, chunk, ← Nat.add_assoc, ← hlen]
  · intro k hk
    have := h (4 + (tag.length + data.length) + k) (by simp at hk; omega)
    simpa using this

theorem sentThenOffered_at {bytes : List Byte} {k : Nat} (hk : k < bytes.length) (s : State) :
    sentThenOffered (bytes.take k) bytes[k] s = { s with
      sink := s.sink ++ bytes.take k
      offered := s.offered ++ bytes.take (k + 1)
      sinkDraws := s.sinkDraws.drop (k + 1) } := by
  have hmin : min k bytes.length = k := by omega
  rw [sentThenOffered, List.take_succ_eq_append_getElem hk, List.length_take, hmin, List.append_assoc]

/-- A write rejected within `v`, `u` having been sent, is a write rejected within `u ∥ v`. -/
theorem sentThenOffered_shift {u v : List Byte} {j : Nat} (hj : j < v.length) (s : State) :
    sentThenOffered (v.take j) v[j] (sent u s) = { s with
      sink := s.sink ++ (u ++ v).take (u.length + j)
      offered := s.offered ++ (u ++ v).take (u.length + j + 1)
      sinkDraws := s.sinkDraws.drop (u.length + j + 1) } := by
  rw [sentThenOffered_at hj, Nat.add_assoc, List.take_length_add_append, List.take_length_add_append]
  simp [sent]

/-- The state in which a chunk's write number `k` is rejected: the bytes before it are in the sink; past the data the
checksum has been taken. -/
theorem writeChunk_reject {tag data : List Byte} {s : State} {cap : Word} {k : Nat} (ht : s.tblOk)
    (hc : s.accCap = some cap) (hroom : tag.length + data.length ≤ cap.toNat ∨ k ≤ 4 + cap.toNat)
    (hk : k < (chunk tag data).length) (h : ∀ m < k, s.sinkDraws.answer m = .accept)
    (hr : s.sinkDraws.answer k = .reject) :
    ∃ t, writeChunk tag data s = raise .sinkRejected t ∧
      t = { s with
        sink := s.sink ++ (chunk tag data).take k
        offered := s.offered ++ (chunk tag data).take (k + 1)
        sinkDraws := s.sinkDraws.drop (k + 1)
        accIdx := t.accIdx, accbuf := t.accbuf
        tbl := if k < 4 + (tag.length + data.length) then s.tbl else tblc
        tblValid := if k < 4 + (tag.length + data.length) then s.tblValid else true
        crcAcc := if k < 4 + (tag.length + data.length) then s.crcAcc
          else (tag ++ data).foldl crcStep Config.crcOnes
        crcOut := if k < 4 + (tag.length + data.length) then s.crcOut else crc32 (tag ++ data) } := by
  rw [chunk_length] at hk
  have hsplit : chunk tag data =
      be32 (BitVec.ofNat 32 data.length) ++ ((tag ++ data) ++ be32 (crc32 (tag ++ data))) := by
    simp [chunk]
  by_cases h4 : k < 4
  · rw [writeChunk_eq, putRawSeq_reject (by simpa using h4) h hr, bind_raise]
    refine ⟨_, rfl, ?_⟩
    have hlt : k < 4 + (tag.length + data.length) := by omega
    simp only [hlt, if_true]
    rw [sentThenOffered_at, hsplit, List.take_append_of_le_length (by simp; omega),
      List.take_append_of_le_length (by simp; omega)]
  · obtain ⟨j, rfl⟩ : ∃ j, k = 4 + j := ⟨k - 4, by omega⟩
    by_cases hb : j < tag.length + data.length
    · have hcap : j ≤ cap.toNat := by omega
      rw [writeChunk_start (fun m hm => h m (by omega)),
        putMirSeq_reject (k := j) (chunkStart_accIdx _ _) hc (by simpa using hb) (by simpa using hcap)
          (fun m hm => by have := h (4 + m) (by omega); simpa using this) (by simpa using hr), bind_raise]
      refine ⟨_, rfl, ?_⟩
      have hlt : 4 + j < 4 + (tag.length + data.length) := by omega
      have hpre : ∀ m ≤ 4 + j + 1, (chunk tag data).take m =
          (be32 (BitVec.ofNat 32 data.length) ++ (tag ++ data)).take m := fun m hm => by
        rw [hsplit, ← List.append_assoc, List.take_append_of_le_length (by simp; omega)]
      simp only [hlt, if_true]
      rw [chunkStart, sentThenOffered_mirrored,
        show ∀ u b v t, sentThenOffered u b (accReset (sent v t)) = accReset (sentThenOffered u b (sent v t)) from
          fun _ _ _ _ => rfl,
        sentThenOffered_shift, be32_length, hpre _ (by omega), hpre _ (by omega)]
      rfl
    · obtain ⟨i, rfl⟩ : ∃ i, j = tag.length + data.length + i := ⟨j - (tag.length + data.length), by omega⟩
      have hi : i < 4 := by omega
      have hcap : tag.length + data.length ≤ cap.toNat := by omega
      rw [writeChunk_body hc hcap (fun m hm => h m (by omega)),
        putRawSeq_reject (k := i) (by simpa using hi)
          (fun m hm => by have := h (4 + (tag.length + data.length) + m) (by omega); simpa using this)
          (by simpa [Nat.add_assoc] using hr)]
      refine ⟨_, rfl, ?_⟩
      have hlt : ¬ 4 + (tag.length + data.length + i) < 4 + (tag.length + data.length) := by omega
      simp only [hlt, if_false]
      have hcat : chunk tag data = (be32 (BitVec.ofNat 32 data.length) ++ (tag ++ data)) ++
          be32 (crc32 (tag ++ data)) := by simp [hsplit]
      have hn : (be32 (BitVec.ofNat 32 data.length) ++ (tag ++ data)).length = 4 + (tag.length + data.length) := by
        simp
      rw [hcat, show 4 + (tag.length + data.length + i) =
        (be32 (BitVec.ofNat 32 data.length) ++ (tag ++ data)).length + i by rw [hn]; omega,
        sentThenOffered_at, chunkBody_of_tblOk ht, Nat.add_assoc _ i 1, List.take_length_add_append,
        List.take_length_add_append, hn]
      simp [chunkMirrored, mirrored, sent, chunkStart, accReset, Nat.add_assoc]

/-- `WriteChunk` whose write number `k` is never answered. -/
theorem writeChunk_silent {tag data : List Byte} {s : State} {cap : Word} {k : Nat} (hc : s.accCap = some cap)
    (hroom : tag.length + data.length ≤ cap.toNat ∨ k ≤ 4 + cap.toNat) (hk : k < (chunk tag data).length)
    (h : ∀ m < k, s.sinkDraws.answer m = .accept) (hr : s.sinkDraws.answer k = .silent) :
    writeChunk tag data s = .error (.fault .sinkNeverAnswers) := by
  rw [chunk_length] at hk
  by_cases h4 : k < 4
  · rw [writeChunk_eq, putRawSeq_silent (by simpa using h4) h hr, bind_error]
  · obtain ⟨j, rfl⟩ : ∃ j, k = 4 + j := ⟨k - 4, by omega⟩
    by_cases hb : j < tag.length + data.length
    · have hcap : j ≤ cap.toNat := by omega
      rw [writeChunk_start (fun m hm => h m (by omega)),
        putMirSeq_silent (k := j) (chunkStart_accIdx _ _) hc (by simpa using hb) (by simpa using hcap)
          (fun m hm => by have := h (4 + m) (by omega); simpa using this) (by simpa using hr), bind_error]
    · obtain ⟨i, rfl⟩ : ∃ i, j = tag.length + data.length + i := ⟨j - (tag.length + data.length), by omega⟩
      rw [writeChunk_body hc (by omega) (fun m hm => h m (by omega)),
        putRawSeq_silent (k := i) (by simp; omega)
          (fun m hm => by have := h (4 + (tag.length + data.length) + m) (by omega); simpa using this)
          (by simpa [Nat.add_assoc] using hr)]

/-- `WriteChunk` with too little room: the error is raised at mirrored byte number ACC_CAP + 1, which the sink has. -/
theorem writeChunk_full {tag data : List Byte} {s : State} {cap : Word} (hc : s.accCap = some cap)
    (hfull : cap.toNat < tag.length + data.length)
    (h : ∀ m < 4 + cap.toNat + 1, s.sinkDraws.answer m = .accept) :
    ∃ t, writeChunk tag data s = raise .accumulatorOverflow t ∧
      t = { s with
        sink := s.sink ++ (chunk tag data).take (4 + cap.toNat + 1)
        offered := s.offered ++ (chunk tag data).take (4 + cap.toNat + 1)
        sinkDraws := s.sinkDraws.drop (4 + cap.toNat + 1)
        accIdx := t.accIdx, accbuf := t.accbuf } := by
  rw [writeChunk_start (fun m hm => h m (by omega)),
    putMirSeq_full (k := cap.toNat) (chunkStart_accIdx _ _) hc (by simpa using hfull) (by simp)
      (fun m hm => by have := h (4 + m) (by omega); simpa using this), bind_raise]
  refine ⟨_, rfl, ?_⟩
  have hpre : (chunk tag data).take (4 + cap.toNat + 1) =
      be32 (BitVec.ofNat 32 data.length) ++ (tag ++ data).take (cap.toNat + 1) := by
    have : chunk tag data =
        be32 (BitVec.ofNat 32 data.length) ++ ((tag ++ data) ++ be32 (crc32 (tag ++ data))) := by
      simp [chunk]
    have hn : (be32 (BitVec.ofNat 32 data.length)).length = 4 := rfl
    rw [this, Nat.add_assoc, ← hn, List.take_length_add_append, List.take_append_of_le_length (by simp; omega)]
  rw [hpre]
  have hmin : min (cap.toNat + 1) (tag.length + data.length) = cap.toNat + 1 := by omega
  simp [sent, mirrored, chunkStart, accReset, hmin, Nat.add_assoc]

/-- `WriteChunk` where ACC_CAP holds no value. -/
theorem writeChunk_no_capacity {b : Byte} {tag data : List Byte} {s : State} (hc : s.accCap = none)
    (h : ∀ k < 5, s.sinkDraws.answer k = .accept) :
    writeChunk (b :: tag) data s = .error (.fault .releasedRegister) := by
  have h4 : (chunkStart data s).sinkDraws.answer 0 = .accept := by simpa using h 4 (by omega)
  rw [writeChunk_start (fun k hk => h k (by omega)), List.cons_append, putMirSeq, putMir, sinkWrite_accept h4, bind_ok,
    mirror]
  simp [hc]

/-! ## The frame of the writer's operations -/

/-- What a part of a writer operation can change: the sink and its draws, the accumulator's index and bytes, the table and
the checksum registers; the sink only grows, and the machine's invariant is kept. -/
structure WriterFrame (s t : State) : Prop where
  frame : t = { s with
    sink := t.sink, offered := t.offered, sinkDraws := t.sinkDraws, accIdx := t.accIdx, accbuf := t.accbuf
    tbl := t.tbl, tblValid := t.tblValid, crcAcc := t.crcAcc, crcOut := t.crcOut }
  sink : s.sink <+: t.sink
  offered : s.offered <+: t.offered
  valid : s.tblValid = true → t.tblValid = true
  table : s.tblOk → t.tblOk
  wf : s.accbuf.wf = true → t.accbuf.wf = true
  accumulator : accumulatorOk s → accumulatorOk t
  index : s.accIdx.isSome → t.accIdx.isSome

theorem WriterFrame.refl (s : State) : WriterFrame s s where
  frame := rfl
  sink := List.prefix_rfl
  offered := List.prefix_rfl
  valid := id
  table := id
  wf := id
  accumulator := id
  index := id

theorem WriterFrame.trans {s t u : State} (h : WriterFrame s t) (h' : WriterFrame t u) : WriterFrame s u where
  frame := by rw [h'.frame, h.frame]
  sink := h.sink.trans h'.sink
  offered := h.offered.trans h'.offered
  valid := h'.valid ∘ h.valid
  table := h'.table ∘ h.table
  wf := h'.wf ∘ h.wf
  accumulator := h'.accumulator ∘ h.accumulator
  index := h'.index ∘ h.index

/-- A part of a writer operation: it ends within the frame, or raises one of the writer's two errors within it. -/
def WriterPart (s : State) (r : Res State) : Prop :=
  Meets r (WriterFrame s) fun t =>
    ∃ u c, WriterFrame s u ∧ t = errorEntry c u ∧ (c = .sinkRejected ∨ c = .accumulatorOverflow)

theorem WriterPart.bind {s : State} {r : Res State} {f : State → Res State} (h : WriterPart s r)
    (hf : ∀ t, WriterFrame s t → WriterPart t (f t)) : WriterPart s (r.bind f) :=
  Meets.bind h fun t ht => (hf t ht).mono (fun _ => ht.trans) fun _ ⟨u, c, hu, h⟩ => ⟨u, c, ht.trans hu, h⟩

theorem sinkWrite_part (b : Byte) (s : State) : WriterPart s (sinkWrite b s) := by
  unfold sinkWrite WriterPart
  dsimp only
  split
  · exact ⟨rfl, List.prefix_append _ _, List.prefix_append _ _, id, id, id, id, id⟩
  · exact ⟨{ s with sinkDraws := s.sinkDraws.rest, offered := s.offered ++ [b] }, _,
      ⟨rfl, List.prefix_rfl, List.prefix_append _ _, id, id, id, id, id⟩, rfl, .inl rfl⟩
  · trivial

theorem mirror_part (b : Byte) (s : State) : WriterPart s (mirror b s) := by
  unfold mirror WriterPart
  match hi : s.accIdx, hc : s.accCap with
  | none, _ => trivial
  | some _, none => trivial
  | some idx, some cap =>
    simp only [readReg_some, bind_ok]
    split
    · exact ⟨s, _, .refl s, rfl, .inr rfl⟩
    · rename_i hlt
      have hadd := add_one_toNat (idx := idx) (cap := cap) (by omega)
      refine ⟨by simp [hc], List.prefix_rfl, List.prefix_rfl, id, id, fun h => Memory.wf_write _ _ _ h,
        fun ⟨_, h⟩ => ⟨?_, ?_⟩, fun _ => rfl⟩
      · intro i c hi' hc'
        cases hi'
        cases hc'
        omega
      · intro i hi' a ha
        simp only [Option.some.injEq] at hi'
        subst hi'
        rw [Memory.read_write]
        split
        · rfl
        · exact h idx hi a (by omega)

theorem putMir_part (b : Byte) (s : State) : WriterPart s (putMir b s) :=
  (sinkWrite_part b s).bind fun t _ => mirror_part b t

theorem putRawSeq_part (bs : List Byte) (s : State) : WriterPart s (putRawSeq bs s) := by
  induction bs generalizing s with
  | nil => exact WriterFrame.refl s
  | cons b bs ih => exact (sinkWrite_part b s).bind fun t _ => ih t

theorem putMirSeq_part (bs : List Byte) (s : State) : WriterPart s (putMirSeq bs s) := by
  induction bs generalizing s with
  | nil => exact WriterFrame.refl s
  | cons b bs ih => exact (putMir_part b s).bind fun t _ => ih t

theorem accReset_frame (s : State) : WriterFrame s (accReset s) := by
  refine ⟨rfl, List.prefix_rfl, List.prefix_rfl, id, id, id, fun _ => ⟨?_, ?_⟩, fun _ => rfl⟩
  · intro i c hi _
    cases hi
    exact Nat.zero_le _
  · intro i hi a ha
    cases hi
    exact absurd ha (Nat.not_lt_zero a)

theorem checksum_frame (bytes : List Byte) (s : State) : WriterFrame s (checksum bytes (ensureTable s)) := by
  unfold ensureTable
  split
  · exact ⟨rfl, List.prefix_rfl, List.prefix_rfl, id, id, id, id, id⟩
  · exact ⟨rfl, List.prefix_rfl, List.prefix_rfl, fun _ => rfl, fun _ _ => rfl, id, id, id⟩

theorem opCrcBuf_part (s : State) : WriterPart s (opCrcBuf s) := by
  match h : opCrcBuf s with
  | .ok t =>
    obtain ⟨_, bytes, _, _, _, rfl⟩ := opCrcBuf_eq_ok h
    exact checksum_frame bytes s
  | .error e =>
    rcases opCrcBuf_eq_error h with ⟨rfl, _⟩ | ⟨rfl, _⟩ <;> trivial

/-- The frame of `WriteChunk`, whatever the sink answers and wherever it stops. -/
theorem writeChunk_part (tag data : List Byte) (s : State) : WriterPart s (writeChunk tag data s) := by
  rw [writeChunk_eq]
  refine (putRawSeq_part _ s).bind fun t _ => WriterPart.bind ?_ fun u _ => (opCrcBuf_part u).bind fun v _ =>
    putRawSeq_part _ v
  exact (putMirSeq_part _ (accReset t)).mono (fun _ => (accReset_frame t).trans)
    fun _ ⟨u, c, hu, h⟩ => ⟨u, c, (accReset_frame t).trans hu, h⟩

/-! ## Where the writer's operations can stop -/

/-- A stop that the writer's operations can come to where ACC_CAP holds a value. -/
def WriterStop (e : Stop) : Prop := (∃ t, e = .raised t) ∨ e = .fault .sinkNeverAnswers

/-- ACC_IDX and ACC_CAP hold values, and the first ACC_IDX bytes of ACCBUF are valid. -/
structure MirrorReady (s : State) : Prop where
  index : s.accIdx.isSome
  capacity : s.accCap.isSome
  accumulator : accumulatorOk s

theorem MirrorReady.step {s t : State} (h : MirrorReady s) (ht : WriterFrame s t) : MirrorReady t :=
  ⟨ht.index h.index, by rw [ht.frame]; exact h.capacity, ht.accumulator h.accumulator⟩

theorem WriterPart.of_ok {s t : State} {r : Res State} (h : WriterPart s r) (ht : r = .ok t) : WriterFrame s t := by
  subst ht; exact h

theorem sinkWrite_stop {b : Byte} {s : State} {e : Stop} (h : sinkWrite b s = .error e) : WriterStop e := by
  unfold sinkWrite at h
  dsimp only at h
  split at h
  · cases h
  · cases h; exact .inl ⟨_, rfl⟩
  · cases h; exact .inr rfl

theorem mirror_stop {b : Byte} {s : State} {e : Stop} (hs : MirrorReady s) (h : mirror b s = .error e) :
    WriterStop e := by
  obtain ⟨idx, hi⟩ := Option.isSome_iff_exists.1 hs.index
  obtain ⟨cap, hc⟩ := Option.isSome_iff_exists.1 hs.capacity
  simp only [mirror, hi, hc, readReg_some, bind_ok] at h
  split at h
  · cases h; exact .inl ⟨_, rfl⟩
  · cases h

theorem putRawSeq_stop {bs : List Byte} {s : State} {e : Stop} (h : putRawSeq bs s = .error e) : WriterStop e := by
  induction bs generalizing s with
  | nil => cases h
  | cons b bs ih =>
    rcases bind_eq_error h with h | ⟨t, _, h⟩
    · exact sinkWrite_stop h
    · exact ih h

theorem putMirSeq_stop {bs : List Byte} {s : State} {e : Stop} (hs : MirrorReady s) (h : putMirSeq bs s = .error e) :
    WriterStop e := by
  induction bs generalizing s with
  | nil => cases h
  | cons b bs ih =>
    rcases bind_eq_error h with h | ⟨t, ht, h⟩
    · rcases bind_eq_error h with h | ⟨t, ht, h⟩
      · exact sinkWrite_stop h
      · exact mirror_stop (hs.step ((sinkWrite_part b s).of_ok ht)) h
    · exact ih (hs.step ((putMir_part b s).of_ok ht)) h

theorem opCrcBuf_stop {s : State} {e : Stop} (hs : MirrorReady s) (h : opCrcBuf s = .error e) : WriterStop e := by
  rcases opCrcBuf_eq_error h with ⟨_, hn⟩ | ⟨_, idx, hi, a, ha, hn⟩
  · have := hs.index
    rw [hn] at this
    cases this
  · have := hs.accumulator.2 idx hi a ha
    rw [hn] at this
    cases this

theorem writeChunk_stop {tag data : List Byte} {s : State} {e : Stop} (hc : s.accCap.isSome)
    (h : writeChunk tag data s = .error e) : WriterStop e := by
  rw [writeChunk_eq] at h
  rcases bind_eq_error h with h | ⟨t, ht, h⟩
  · exact putRawSeq_stop h
  have hready : MirrorReady (accReset t) := by
    refine ⟨rfl, ?_, fun i c hi _ => ?_, fun i hi a ha => ?_⟩
    · rw [accReset_accCap, ((putRawSeq_part _ s).of_ok ht).frame]; exact hc
    · cases hi; exact Nat.zero_le _
    · cases hi; exact absurd ha (Nat.not_lt_zero a)
  rcases bind_eq_error h with h | ⟨u, hu, h⟩
  · exact putMirSeq_stop hready h
  rcases bind_eq_error h with h | ⟨v, _, h⟩
  · exact opCrcBuf_stop (hready.step ((putMirSeq_part _ _).of_ok hu)) h
  · exact putRawSeq_stop h

end Sys2Proof.Machine
end

