-- ==== Sys2Proof/Laws/Sequencer.lean ====
section
/-! SUPPORT. What CFG.CHK, CMP.CALL and the writer's operations do, and ENCODE taken apart: where it stops before the
compressor, and what it hands to the compressor and to the writer. -/

namespace Sys2Proof.Machine

/-! ## CFG.CHK -/

/-- The first cause CFG.CHK finds, in the order of 45 R254. -/
def configCause (s : State) : Cause :=
  if s.depth ≠ 8 ∧ s.depth ≠ 16 then .badDepth
  else if s.cmode ≠ Config.cmodeRgb ∧ s.cmode ≠ Config.cmodeRgba then .badChannelMode
  else .badFilterKind

theorem State.formatOk_of_configOk {s : State} (h : s.configOk) : s.formatOk := ⟨h.1, h.2.1⟩

theorem opCfgChk_ok {s : State} (h : s.configOk) : opCfgChk s = .ok s := by
  obtain ⟨h1, h2, h3⟩ := h
  rw [opCfgChk, if_neg (by rcases h1 with h | h <;> simp [h]),
    if_neg (by rcases h2 with h | h <;> simp [h]), if_neg (by omega)]

theorem opCfgChk_raise {s : State} (h : ¬ s.configOk) : opCfgChk s = raise (configCause s) s := by
  unfold opCfgChk configCause
  split
  · rfl
  split
  · rfl
  · rename_i h1 h2
    rw [if_pos]
    by_contra h3
    refine h ⟨?_, ?_, by omega⟩
    · by_contra h4; exact h1 (not_or.1 h4)
    · by_contra h4; exact h2 (not_or.1 h4)

/-! ## CMP.CALL -/

/-- The state after the compressor has been called with `input`. -/
def compressorCalled (input : List Byte) (s : State) : State :=
  callCompressor input s.compCapParam { s with compCap := some s.compCapParam }

/-- FILT holds the bytes `input`, all F of them. -/
def State.filtHolds (s : State) (input : List Byte) : Prop :=
  input.length = s.frameSize ∧ ∀ a < s.frameSize, s.filt.read a = input[a]?

theorem readCells_of_filtHolds {s : State} {input : List Byte} (h : s.filtHolds input) :
    readCells s.filt 0 s.frameSize = .ok input :=
  readCells_eq_ok.2 ⟨h.1, fun i hi => by rw [Nat.zero_add]; exact h.2 i hi⟩

theorem opCmpCall_ok {s : State} {input z : List Byte} (h : s.filtHolds input) (hz : s.compDraws.head = .ok z)
    (hc : z.length ≤ s.compCapParam.toNat) :
    opCmpCall s = .ok { compressorCalled input s with
      comp := s.comp.writeSeq 0 z, compLen := some (BitVec.ofNat 32 z.length) } := by
  rw [opCmpCall, readCells_of_filtHolds h, bind_ok]
  simp only [hz]
  rw [if_neg (by omega)]
  rfl

theorem opCmpCall_overrun {s : State} {input z : List Byte} (h : s.filtHolds input) (hz : s.compDraws.head = .ok z)
    (hc : s.compCapParam.toNat < z.length) : opCmpCall s = .error (.refused .compressorOverran) := by
  rw [opCmpCall, readCells_of_filtHolds h, bind_ok]
  simp only [hz]
  rw [if_pos hc]

theorem opCmpCall_fail {s : State} {input : List Byte} {f : CompFailure} (h : s.filtHolds input)
    (hf : s.compDraws.head = .fail f) : opCmpCall s = raise f.cause (compressorCalled input s) := by
  rw [opCmpCall, readCells_of_filtHolds h, bind_ok]
  simp only [hf]
  rfl

theorem opCmpCall_silent {s : State} {input : List Byte} (h : s.filtHolds input) (hf : s.compDraws.head = .silent) :
    opCmpCall s = .error (.fault .compressorNeverAnswers) := by
  rw [opCmpCall, readCells_of_filtHolds h, bind_ok]
  simp only [hf]

theorem opCmpCall_unwritten {s : State} (h : ∃ a < s.frameSize, s.filt.read a = none) :
    opCmpCall s = .error (.fault .unwrittenBufferCell) := by
  rw [opCmpCall, readCells_of_none (by simpa using h), bind_error]

/-- FILT written in all F cells holds some bytes. -/
theorem State.exists_filtHolds {s : State} (h : ∀ a < s.frameSize, (s.filt.read a).isSome) :
    ∃ input, s.filtHolds input := by
  refine ⟨List.ofFn fun a : Fin s.frameSize => (s.filt.read a).getD 0, by simp, fun a ha => ?_⟩
  obtain ⟨b, hb⟩ := Option.isSome_iff_exists.1 (h a ha)
  rw [List.getElem?_ofFn, dif_pos ha]
  simp [hb]

/-- Everything CMP.CALL can do. -/
theorem opCmpCall_cases (s : State) :
    ((∃ a < s.frameSize, s.filt.read a = none) ∧ opCmpCall s = .error (.fault .unwrittenBufferCell)) ∨
    ∃ input, s.filtHolds input ∧
      ((∃ z, s.compDraws.head = .ok z ∧ z.length ≤ s.compCapParam.toNat ∧
          opCmpCall s = .ok { compressorCalled input s with
            comp := s.comp.writeSeq 0 z, compLen := some (BitVec.ofNat 32 z.length) }) ∨
        (∃ z, s.compDraws.head = .ok z ∧ s.compCapParam.toNat < z.length ∧
          opCmpCall s = .error (.refused .compressorOverran)) ∨
        (∃ f, s.compDraws.head = .fail f ∧ opCmpCall s = raise f.cause (compressorCalled input s)) ∨
        (s.compDraws.head = .silent ∧ opCmpCall s = .error (.fault .compressorNeverAnswers))) := by
  by_cases hn : ∃ a < s.frameSize, s.filt.read a = none
  · exact .inl ⟨hn, opCmpCall_unwritten hn⟩
  · obtain ⟨input, hi⟩ := State.exists_filtHolds (s := s) fun a ha => by
      rw [Option.isSome_iff_ne_none]; exact fun h => hn ⟨a, ha, h⟩
    refine .inr ⟨input, hi, ?_⟩
    match hd : s.compDraws.head with
    | .ok z =>
      by_cases hc : z.length ≤ s.compCapParam.toNat
      · exact .inl ⟨z, rfl, hc, opCmpCall_ok hi hd hc⟩
      · exact .inr (.inl ⟨z, rfl, by omega, opCmpCall_overrun hi hd (by omega)⟩)
    | .fail f => exact .inr (.inr (.inl ⟨f, rfl, opCmpCall_fail hi hd⟩))
    | .silent => exact .inr (.inr (.inr ⟨rfl, opCmpCall_silent hi hd⟩))

/-! ## The chunk operations -/

/-- WR.IHDR, WR.IDAT and WR.IEND are `WriteChunk` of their tag and data, then their writer state. -/
theorem exec_of_sendsChunk {s : State} {i : Instr} {tag data : List Byte} (h : sendsChunk s i tag data) :
    (∃ w, exec i s = outcome ((writeChunk tag data s).bind fun s => .ok { s with wstate := w })) ∧ tag.length = 4 := by
  rcases h with ⟨rfl, rfl, rfl⟩ | ⟨rfl, rfl, hn, hlt, hb⟩ | ⟨rfl, rfl, rfl⟩
  · exact ⟨⟨_, rfl⟩, rfl⟩
  · have hd : (BitVec.ofNat 32 data.length).toNat = data.length := by
      rw [BitVec.toNat_ofNat, Nat.mod_eq_of_lt hlt]
    have hr : readCells s.comp 0 (BitVec.ofNat 32 data.length).toNat = .ok data :=
      readCells_eq_ok.2 ⟨hd.symm, fun a ha => by rw [Nat.zero_add]; exact hb a (by omega)⟩
    exact ⟨⟨.dataWritten, by rw [exec, execWrIdat, opWrIdat, hn, readReg_some, bind_ok, hr, bind_ok]⟩, rfl⟩
  · exact ⟨⟨_, rfl⟩, rfl⟩

/-! ## Rows as one list -/

theorem rows_length (f : Nat → Nat → Byte) (h w : Nat) :
    ((List.range h).flatMap fun r => (List.range w).map (f r)).length = h * w := by
  induction h with
  | zero => simp
  | succ h ih => rw [List.range_succ, List.flatMap_append, List.length_append, ih]; simp [Nat.add_mul]

theorem rows_getElem? (f : Nat → Nat → Byte) {h w r j : Nat} (hr : r < h) (hj : j < w) :
    ((List.range h).flatMap fun r => (List.range w).map (f r))[r * w + j]? = some (f r j) := by
  induction h with
  | zero => omega
  | succ h ih =>
    rw [List.range_succ, List.flatMap_append]
    rcases Nat.lt_or_eq_of_le (Nat.le_of_lt_succ hr) with hlt | heq
    · rw [List.getElem?_append_left, ih hlt]
      rw [rows_length]
      have : (r + 1) * w ≤ h * w := Nat.mul_le_mul_right _ hlt
      rw [Nat.add_mul] at this
      omega
    · subst heq
      rw [List.getElem?_append_right (by rw [rows_length]; omega), rows_length, Nat.add_sub_cancel_left]
      simp [hj]

theorem filteredFrame_length (kind : FilterKind) (s : State) : (filteredFrame kind s).length = s.frameSize := by
  rw [filteredFrame, rows_length, State.frameSize, Nat.mul_comm]

/-! ## ENCODE up to the compressor -/

theorem FilterKind.ofCode_isSome {v : Byte} (h : v.toNat ≤ 4) : ∃ kind, FilterKind.ofCode v = some kind := by
  unfold FilterKind.ofCode
  match hv : v.toNat with
  | 0 => exact ⟨_, rfl⟩
  | 1 => exact ⟨_, rfl⟩
  | 2 => exact ⟨_, rfl⟩
  | 3 => exact ⟨_, rfl⟩
  | 4 => exact ⟨_, rfl⟩
  | n + 5 => omega

/-- The state in which ENCODE calls the compressor, RAW and FILT being `raw` and `filt`. -/
def atCompressor (raw filt : Memory 8) (s : State) : State :=
  { beginEncode s with phase := .compress, raw := raw, filt := filt }

theorem opEncode_config {s : State} (h : ¬ s.configOk) :
    opEncode s = raise (configCause s) (enterPhase .config (beginEncode s)) := by
  have h' : ¬ (enterPhase .config (beginEncode s)).configOk := h
  rw [opEncode, opCfgChk_raise h', bind_raise]
  rfl

theorem requireAdmitted_ok {s : State} (h : s.admitted = true) : requireAdmitted s = .ok s := if_pos h

theorem requireAdmitted_refused {s : State} (h : ¬ s.admitted = true) :
    requireAdmitted s = .error (.refused .descriptorNotAdmitted) := if_neg h

theorem opEncode_not_admitted {s : State} (h : s.configOk) (ha : ¬ s.admitted = true) :
    opEncode s = .error (.refused .descriptorNotAdmitted) := by
  have h' : (enterPhase .config (beginEncode s)).configOk := h
  have ha' : ¬ (enterPhase .config (beginEncode s)).admitted = true := ha
  rw [opEncode, opCfgChk_ok h', bind_ok, requireAdmitted_refused ha', bind_error]

/-- ENCODE past CFG.CHK and the admission test. -/
theorem opEncode_admitted {s : State} (h : s.configOk) (ha : s.admitted = true) :
    opEncode s =
      (opSlbBuild (enterPhase .build (enterPhase .config (beginEncode s)))).bind fun s =>
      (opFltSelected (enterPhase .filter s)).bind fun s =>
      (opCmpCall (enterPhase .compress s)).bind fun s =>
      (encodeWrite s).bind fun s => .ok (finishEncode s) := by
  have h' : (enterPhase .config (beginEncode s)).configOk := h
  have ha' : (enterPhase .config (beginEncode s)).admitted = true := ha
  rw [opEncode, opCfgChk_ok h', bind_ok, requireAdmitted_ok ha', bind_ok]

theorem opEncode_unwritten {s : State} (h : s.configOk) (ha : s.admitted = true) (hw : ¬ s.channelsWritten) :
    opEncode s = .error (.fault .unwrittenChannelCell) := by
  have h' : (enterPhase .build (enterPhase .config (beginEncode s))).formatOk := State.formatOk_of_configOk h
  have hw' : ¬ (enterPhase .build (enterPhase .config (beginEncode s))).channelsWritten := hw
  rw [opEncode_admitted h ha, opSlbBuild_unwritten h' hw', bind_error]

/-- ENCODE reaches the compressor with FILT holding the filtered frame. -/
theorem opEncode_compress {s : State} {kind : FilterKind} (h : s.configOk) (ha : s.admitted = true)
    (hw : s.channelsWritten) (hk : FilterKind.ofCode s.fkind = some kind) :
    ∃ raw filt, (atCompressor raw filt s).filtHolds (filteredFrame kind s) ∧ raw.wf = true ∧ filt.wf = true ∧
      opEncode s = (opCmpCall (atCompressor raw filt s)).bind fun s =>
        (encodeWrite s).bind fun s => .ok (finishEncode s) := by
  have hf : s.formatOk := State.formatOk_of_configOk h
  obtain ⟨raw, hraw, hrb, _, hrw⟩ :=
    opSlbBuild_built (s := enterPhase .build (enterPhase .config (beginEncode s))) hf hw
  have hh : (enterPhase .filter { enterPhase .build (enterPhase .config (beginEncode s)) with raw := raw }).rawHolds
      (rawAt s) := by
    intro r j hr hj
    exact (hrb r j hr hj).trans (rawByte_eq_rawAt hf hw hr hj)
  obtain ⟨filt, hfilt, hfb, _, hfw⟩ := opFilter_ok kind hh
  refine ⟨raw, filt, ⟨filteredFrame_length kind s, fun a hlt => ?_⟩, hrw rfl, hfw rfl, ?_⟩
  · obtain ⟨r, j, hr, hj, rfl⟩ := State.exists_rowIndex (s := s) hlt
    exact (hfb r j hr hj).trans (rows_getElem? (filtAt kind s) hr hj).symm
  · have hsel : opFltSelected
        (enterPhase .filter { enterPhase .build (enterPhase .config (beginEncode s)) with raw := raw }) =
        opFilter kind (enterPhase .filter { enterPhase .build (enterPhase .config (beginEncode s)) with raw := raw }) := by
      unfold opFltSelected
      rw [show (enterPhase .filter { enterPhase .build (enterPhase .config (beginEncode s)) with raw := raw }).fkind =
        s.fkind from rfl, hk]
    rw [opEncode_admitted h ha, hraw, bind_ok, hsel, hfilt, bind_ok]
    rfl

end Sys2Proof.Machine
end

