-- ==== Sys2Proof/Laws/Encode.lean ====
section
/-! SUPPORT. The Write phase of ENCODE, stage by stage: every write accepted, a write rejected or never answered, the
accumulator full; and a case analysis that says everything it can do. -/

namespace Sys2Proof.Machine

/-- COMP holds the bytes `z`, all COMP_LEN of them. -/
def State.compHolds (s : State) (z : List Byte) : Prop :=
  s.compLen = some (BitVec.ofNat 32 z.length) ∧ z.length < 2 ^ 32 ∧ ∀ a < z.length, s.comp.read a = z[a]?

/-- The state after the Write phase has begun and ACCBUF has its capacity. -/
def afterSize (s : State) : State :=
  { s with phase := .write, accCap := some s.accCapParam, accIdx := some 0 }

/-- The state after the signature too. -/
def afterSig (s : State) : State := { sent Config.sig (afterSize s) with wstate := .signatureWritten }

/-- The state after a chunk has been sent. -/
def afterChunk (tag data : List Byte) (w : WState) (s : State) : State :=
  { s with
    sink := s.sink ++ chunk tag data
    offered := s.offered ++ chunk tag data
    sinkDraws := s.sinkDraws.drop (chunk tag data).length
    accIdx := some (BitVec.ofNat 32 (tag ++ data).length)
    accbuf := s.accbuf.writeSeq 0 (tag ++ data)
    tbl := tblc
    tblValid := true
    crcAcc := (tag ++ data).foldl crcStep Config.crcOnes
    crcOut := crc32 (tag ++ data)
    wstate := w }

/-- The state after the header chunk too. -/
def afterIhdr (s : State) : State := afterChunk Config.tagIhdr (ihdrData s) .headerWritten (afterSig s)

/-- The state after the data chunk too. -/
def afterIdat (z : List Byte) (s : State) : State := afterChunk Config.tagIdat z .dataWritten (afterIhdr s)

/-- The state after the trailer chunk too. -/
def afterIend (z : List Byte) (s : State) : State := afterChunk Config.tagIend [] .trailerWritten (afterIdat z s)

@[simp] theorem ihdr_chunk_length (s : State) : (chunk Config.tagIhdr (ihdrData s)).length = 25 := by
  rw [chunk_length]; rfl
@[simp] theorem idat_chunk_length (z : List Byte) : (chunk Config.tagIdat z).length = 12 + z.length := by
  rw [chunk_length, show Config.tagIdat.length = 4 from rfl]; omega
@[simp] theorem iend_chunk_length : (chunk Config.tagIend []).length = 12 := rfl

theorem encodeStream_length (s : State) (z : List Byte) : (encodeStream s z).length = 57 + z.length := by
  simp only [encodeStream, List.length_append, ihdr_chunk_length, idat_chunk_length, iend_chunk_length,
    show Config.sig.length = 8 from rfl]
  omega

@[simp] theorem afterSig_sinkDraws (s : State) : (afterSig s).sinkDraws = s.sinkDraws.drop 8 := rfl
@[simp] theorem afterIhdr_sinkDraws (s : State) : (afterIhdr s).sinkDraws = s.sinkDraws.drop 33 := by
  simp [afterIhdr, afterChunk]
@[simp] theorem afterIdat_sinkDraws (z : List Byte) (s : State) :
    (afterIdat z s).sinkDraws = s.sinkDraws.drop (45 + z.length) := by
  simp only [afterIdat, afterChunk, afterIhdr_sinkDraws, idat_chunk_length, Draws.drop_drop]
  congr 1; omega

theorem afterSig_tblOk {s : State} (h : s.tblOk) : (afterSig s).tblOk := h
theorem afterIhdr_tblOk (s : State) : (afterIhdr s).tblOk := fun _ => rfl
theorem afterIdat_tblOk (z : List Byte) (s : State) : (afterIdat z s).tblOk := fun _ => rfl

theorem encodeWrite_eq (s : State) :
    encodeWrite s = (opWrSig (afterSize s)).bind fun s =>
      (opWrIhdr s).bind fun s => (opWrIdat s).bind opWrIend := rfl

theorem encodeWrite_sig {s : State} (h : ∀ k < 8, s.sinkDraws.answer k = .accept) :
    encodeWrite s = (opWrIhdr (afterSig s)).bind fun s => (opWrIdat s).bind opWrIend := by
  rw [encodeWrite_eq, opWrSig, putRawSeq_accept (bs := Config.sig) (s := afterSize s) h]
  rfl

theorem opWrIdat_eq {s : State} {z : List Byte} (h : s.compHolds z) :
    opWrIdat s = (writeChunk Config.tagIdat z s).bind fun s => .ok { s with wstate := .dataWritten } := by
  have hd : (BitVec.ofNat 32 z.length).toNat = z.length := by rw [BitVec.toNat_ofNat, Nat.mod_eq_of_lt h.2.1]
  have hr : readCells s.comp 0 (BitVec.ofNat 32 z.length).toNat = .ok z :=
    readCells_eq_ok.2 ⟨hd.symm, fun a ha => by rw [Nat.zero_add]; exact h.2.2 a (by omega)⟩
  rw [opWrIdat, h.1, readReg_some, bind_ok, hr, bind_ok]

/-- A chunk operation with every write accepted and room in ACCBUF. -/
theorem chunkOp_accept {tag data : List Byte} {s : State} {cap : Word} (w : WState) (ht : s.tblOk)
    (hc : s.accCap = some cap) (hroom : tag.length + data.length ≤ cap.toNat)
    (h : ∀ k < (chunk tag data).length, s.sinkDraws.answer k = .accept) :
    ((writeChunk tag data s).bind fun s => .ok { s with wstate := w }) = .ok (afterChunk tag data w s) := by
  rw [writeChunk_accept ht hc hroom h, bind_ok, afterChunk]

@[simp] theorem afterSig_accCap (s : State) : (afterSig s).accCap = some s.accCapParam := rfl
@[simp] theorem afterIhdr_accCap (s : State) : (afterIhdr s).accCap = some s.accCapParam := rfl
@[simp] theorem afterIdat_accCap (z : List Byte) (s : State) : (afterIdat z s).accCap = some s.accCapParam := rfl
theorem afterIhdr_compHolds {s : State} {z : List Byte} (h : s.compHolds z) : (afterIhdr s).compHolds z :=
  ⟨h.1, h.2.1, h.2.2⟩

theorem encodeWrite_ihdr {s : State} (ht : s.tblOk) (hc : 17 ≤ s.accCapParam.toNat)
    (h : ∀ k < 33, s.sinkDraws.answer k = .accept) :
    encodeWrite s = (opWrIdat (afterIhdr s)).bind opWrIend := by
  rw [encodeWrite_sig fun k hk => h k (by omega), opWrIhdr,
    chunkOp_accept (tag := Config.tagIhdr) (data := ihdrData (afterSig s)) _ (afterSig_tblOk ht) (afterSig_accCap s) hc fun k hk => by
      rw [ihdr_chunk_length] at hk
      have := h (8 + k) (by omega)
      simpa using this, bind_ok]
  rfl

theorem encodeWrite_idat {s : State} {z : List Byte} (ht : s.tblOk) (hz : s.compHolds z)
    (hc : 17 ≤ s.accCapParam.toNat) (hc' : 4 + z.length ≤ s.accCapParam.toNat)
    (h : ∀ k < 45 + z.length, s.sinkDraws.answer k = .accept) : encodeWrite s = opWrIend (afterIdat z s) := by
  rw [encodeWrite_ihdr ht hc fun k hk => h k (by omega), opWrIdat_eq (afterIhdr_compHolds hz),
    chunkOp_accept (tag := Config.tagIdat) (data := z) _ (afterIhdr_tblOk s) (afterIhdr_accCap s) hc' fun k hk => by
      rw [idat_chunk_length] at hk
      have := h (33 + k) (by omega)
      simpa using this, bind_ok, afterIdat]

/-- The Write phase with every write accepted and room in ACCBUF. -/
theorem encodeWrite_accept {s : State} {z : List Byte} (ht : s.tblOk) (hz : s.compHolds z)
    (hc : 17 ≤ s.accCapParam.toNat) (hc' : 4 + z.length ≤ s.accCapParam.toNat)
    (h : ∀ k < 57 + z.length, s.sinkDraws.answer k = .accept) : encodeWrite s = .ok (afterIend z s) := by
  rw [encodeWrite_idat ht hz hc hc' fun k hk => h k (by omega), opWrIend,
    chunkOp_accept (tag := Config.tagIend) (data := []) _ (afterIdat_tblOk z s) (afterIdat_accCap z s) (Nat.le_trans (by decide) hc) fun k hk => by
      rw [iend_chunk_length] at hk
      have := h (45 + z.length + k) (by omega)
      simpa using this, afterIend]

/-- The number of writes the Write phase makes if the sink accepts them all. -/
def writesMade (s : State) (z : List Byte) : Nat :=
  if s.accCapParam.toNat < 17 then 13 + s.accCapParam.toNat
  else if s.accCapParam.toNat < 4 + z.length then 38 + s.accCapParam.toNat
  else 57 + z.length

/-- The writer state in which write number `k` is made. -/
def writerAt (z : List Byte) (k : Nat) : WState :=
  if k < 8 then .start else if k < 33 then .signatureWritten
  else if k < 45 + z.length then .headerWritten else .dataWritten

/-- What is sent by the time of write number `k` of the Write phase, begun in writer state Start. -/
theorem take_stream_sig (s : State) (z : List Byte) {k : Nat} (h : k ≤ 8) :
    (encodeStream s z).take k = Config.sig.take k := by
  rw [encodeStream, List.append_assoc, List.append_assoc, List.take_append_of_le_length h]

theorem take_stream_ihdr (s : State) (z : List Byte) {j : Nat} (h : j ≤ 25) :
    (encodeStream s z).take (8 + j) = Config.sig ++ (chunk Config.tagIhdr (ihdrData s)).take j := by
  rw [encodeStream, List.append_assoc, List.append_assoc, show 8 + j = Config.sig.length + j from rfl,
    List.take_length_add_append, List.take_append_of_le_length (by rw [ihdr_chunk_length]; exact h)]

theorem take_stream_idat (s : State) (z : List Byte) {j : Nat} (h : j ≤ 12 + z.length) :
    (encodeStream s z).take (33 + j) =
      Config.sig ++ chunk Config.tagIhdr (ihdrData s) ++ (chunk Config.tagIdat z).take j := by
  have hn : (Config.sig ++ chunk Config.tagIhdr (ihdrData s)).length = 33 := by
    rw [List.length_append, ihdr_chunk_length]; rfl
  rw [encodeStream, List.append_assoc, ← hn, List.take_length_add_append,
    List.take_append_of_le_length (by rw [idat_chunk_length]; exact h)]

theorem take_stream_iend (s : State) (z : List Byte) (j : Nat) :
    (encodeStream s z).take (45 + z.length + j) =
      Config.sig ++ chunk Config.tagIhdr (ihdrData s) ++ chunk Config.tagIdat z ++ (chunk Config.tagIend []).take j := by
  have hn : (Config.sig ++ chunk Config.tagIhdr (ihdrData s) ++ chunk Config.tagIdat z).length = 45 + z.length := by
    rw [List.length_append, List.length_append, ihdr_chunk_length, idat_chunk_length]
    simp only [show Config.sig.length = 8 from rfl]; omega
  rw [encodeStream, ← hn, List.take_length_add_append]

/-- A state of the Write phase stopped at write number `k`: the prefix sent, the writer state, what else may differ. -/
structure StoppedAt (s : State) (z : List Byte) (sentCount offeredCount : Nat) (w : WState) (t : State) : Prop where
  frame : t = { s with
    phase := .write, wstate := w
    sink := s.sink ++ (encodeStream s z).take sentCount
    offered := s.offered ++ (encodeStream s z).take offeredCount
    sinkDraws := s.sinkDraws.drop offeredCount
    accCap := t.accCap, accIdx := t.accIdx, accbuf := t.accbuf, tbl := t.tbl, tblValid := t.tblValid
    crcAcc := t.crcAcc, crcOut := t.crcOut }

/-- Which stage of the Write phase makes write number `k`, and the room it has in ACCBUF by then. -/
theorem stage_cases {s : State} {z : List Byte} {k : Nat} (hk : k < writesMade s z) :
    (k < 8) ∨
    (∃ j < 25, k = 8 + j ∧ (17 ≤ s.accCapParam.toNat ∨ j ≤ 4 + s.accCapParam.toNat)) ∨
    (∃ j < 12 + z.length, k = 33 + j ∧ 17 ≤ s.accCapParam.toNat ∧
      (4 + z.length ≤ s.accCapParam.toNat ∨ j ≤ 4 + s.accCapParam.toNat)) ∨
    (∃ j < 12, k = 45 + z.length + j ∧ 17 ≤ s.accCapParam.toNat ∧ 4 + z.length ≤ s.accCapParam.toNat) := by
  unfold writesMade at hk
  by_cases h8 : k < 8
  · exact .inl h8
  by_cases h33 : k < 33
  · exact .inr (.inl ⟨k - 8, by omega, by omega, by split at hk <;> omega⟩)
  have h17 : 17 ≤ s.accCapParam.toNat := by split at hk <;> omega
  rw [if_neg (by omega)] at hk
  by_cases h45 : k < 45 + z.length
  · exact .inr (.inr (.inl ⟨k - 33, by omega, by omega, h17, by split at hk <;> omega⟩))
  · exact .inr (.inr (.inr ⟨k - (45 + z.length), by split at hk <;> omega, by omega, h17, by split at hk <;> omega⟩))

/-- The Write phase with write number `k` rejected. -/
theorem encodeWrite_reject {s : State} {z : List Byte} {k : Nat} (ht : s.tblOk) (hz : s.compHolds z)
    (hw : s.wstate = .start) (hk : k < writesMade s z) (h : ∀ m < k, s.sinkDraws.answer m = .accept)
    (hr : s.sinkDraws.answer k = .reject) :
    ∃ t, encodeWrite s = raise .sinkRejected t ∧ StoppedAt s z k (k + 1) (writerAt z k) t := by
  rcases stage_cases hk with h8 | ⟨j, hj, rfl, hroom⟩ | ⟨j, hj, rfl, hcap, hroom⟩ | ⟨j, hj, rfl, hcap, hcap'⟩
  · have h8' : k < Config.sig.length := h8
    rw [encodeWrite_eq, opWrSig, putRawSeq_reject (bs := Config.sig) (s := afterSize s) h8' h hr,
      sentThenOffered_at h8']
    refine ⟨_, rfl, ⟨?_⟩⟩
    rw [writerAt, if_pos h8, take_stream_sig s z (by omega), take_stream_sig s z (by omega), ← hw]
    rfl
  · obtain ⟨t, hwc, hT⟩ := writeChunk_reject (tag := Config.tagIhdr) (data := ihdrData (afterSig s)) (k := j)
      (afterSig_tblOk ht) (afterSig_accCap s) hroom (by rw [ihdr_chunk_length]; exact hj)
      (fun m hm => by have := h (8 + m) (by omega); simpa using this) (by simpa using hr)
    rw [encodeWrite_sig fun k hk => h k (by omega), opWrIhdr, hwc]
    refine ⟨t, rfl, ⟨?_⟩⟩
    rw [writerAt, if_neg (by omega), if_pos (by omega), Nat.add_assoc 8 j 1, take_stream_ihdr s z (by omega),
      take_stream_ihdr s z (by omega), hT, afterSig_sinkDraws, Draws.drop_drop]
    simp [afterSig, afterSize, sent, ihdrData]
  · obtain ⟨t, hwc, hT⟩ := writeChunk_reject (tag := Config.tagIdat) (data := z) (k := j)
      (afterIhdr_tblOk s) (afterIhdr_accCap s) hroom (by rw [idat_chunk_length]; exact hj)
      (fun m hm => by have := h (33 + m) (by omega); simpa using this) (by simpa using hr)
    rw [encodeWrite_ihdr ht hcap fun k hk => h k (by omega), opWrIdat_eq (afterIhdr_compHolds hz), hwc]
    refine ⟨t, rfl, ⟨?_⟩⟩
    rw [writerAt, if_neg (by omega), if_neg (by omega), if_pos (by omega), Nat.add_assoc 33 j 1,
      take_stream_idat s z (by omega), take_stream_idat s z (by omega), hT, afterIhdr_sinkDraws, Draws.drop_drop]
    simp [afterIhdr, afterChunk, afterSig, afterSize, sent, ihdrData]
  · obtain ⟨t, hwc, hT⟩ := writeChunk_reject (tag := Config.tagIend) (data := []) (k := j)
      (afterIdat_tblOk z s) (afterIdat_accCap z s) (.inl (Nat.le_trans (by decide) hcap)) hj
      (fun m hm => by have := h (45 + z.length + m) (by omega); simpa using this) (by simpa using hr)
    rw [encodeWrite_idat ht hz hcap hcap' fun k hk => h k (by omega), opWrIend, hwc]
    refine ⟨t, rfl, ⟨?_⟩⟩
    rw [writerAt, if_neg (by omega), if_neg (by omega), if_neg (by omega), Nat.add_assoc _ j 1, take_stream_iend,
      take_stream_iend, hT, afterIdat_sinkDraws, Draws.drop_drop]
    simp [afterIdat, afterIhdr, afterChunk, afterSig, afterSize, sent, ihdrData]

/-- The Write phase with write number `k` never answered. -/
theorem encodeWrite_silent {s : State} {z : List Byte} {k : Nat} (ht : s.tblOk) (hz : s.compHolds z)
    (hk : k < writesMade s z) (h : ∀ m < k, s.sinkDraws.answer m = .accept) (hr : s.sinkDraws.answer k = .silent) :
    encodeWrite s = .error (.fault .sinkNeverAnswers) := by
  rcases stage_cases hk with h8 | ⟨j, hj, rfl, hroom⟩ | ⟨j, hj, rfl, hcap, hroom⟩ | ⟨j, hj, rfl, hcap, hcap'⟩
  · rw [encodeWrite_eq, opWrSig, putRawSeq_silent (bs := Config.sig) (s := afterSize s) h8 h hr]
    rfl
  · rw [encodeWrite_sig fun k hk => h k (by omega), opWrIhdr, writeChunk_silent (tag := Config.tagIhdr) (data := ihdrData (afterSig s)) (k := j)
        (afterSig_accCap s) hroom
      (by rw [ihdr_chunk_length]; exact hj) (fun m hm => by have := h (8 + m) (by omega); simpa using this)
      (by simpa using hr)]
    rfl
  · rw [encodeWrite_ihdr ht hcap fun k hk => h k (by omega), opWrIdat_eq (afterIhdr_compHolds hz),
      writeChunk_silent (tag := Config.tagIdat) (data := z) (k := j) (afterIhdr_accCap s) hroom (by rw [idat_chunk_length]; exact hj)
        (fun m hm => by have := h (33 + m) (by omega); simpa using this) (by simpa using hr)]
    rfl
  · rw [encodeWrite_idat ht hz hcap hcap' fun k hk => h k (by omega), opWrIend,
      writeChunk_silent (tag := Config.tagIend) (data := []) (k := j) (afterIdat_accCap z s) (.inl (Nat.le_trans (by decide) hcap)) hj
        (fun m hm => by have := h (45 + z.length + m) (by omega); simpa using this) (by simpa using hr)]
    rfl

/-- The Write phase with every write accepted and too little room in ACCBUF: the error is raised at the header chunk or at
the data chunk. -/
theorem encodeWrite_full {s : State} {z : List Byte} (ht : s.tblOk) (hz : s.compHolds z)
    (hfull : s.accCapParam.toNat < 17 ∨ s.accCapParam.toNat < 4 + z.length)
    (h : ∀ m < writesMade s z, s.sinkDraws.answer m = .accept) :
    ∃ t, encodeWrite s = raise .accumulatorOverflow t ∧
      StoppedAt s z (writesMade s z) (writesMade s z)
        (if s.accCapParam.toNat < 17 then .signatureWritten else .headerWritten) t ∧
      (s.accCapParam.toNat < 17 → t.crcAcc = s.crcAcc ∧ t.crcOut = s.crcOut ∧ t.tbl = s.tbl ∧ t.tblValid = s.tblValid) ∧
      (17 ≤ s.accCapParam.toNat → t.crcOut = crc32 (Config.tagIhdr ++ ihdrData s)) := by
  by_cases h17 : s.accCapParam.toNat < 17
  · have hn : writesMade s z = 8 + (4 + s.accCapParam.toNat + 1) := by rw [writesMade, if_pos h17]; omega
    rw [hn] at h ⊢
    obtain ⟨t, hwc, hT⟩ := writeChunk_full (tag := Config.tagIhdr) (data := ihdrData (afterSig s)) (afterSig_accCap s)
      h17 (fun m hm => by have := h (8 + m) (by omega); simpa using this)
    rw [encodeWrite_sig fun k hk => h k (by omega), opWrIhdr, hwc]
    refine ⟨t, rfl, ⟨?_⟩, fun _ => ?_, fun h => absurd h (by omega)⟩
    · rw [if_pos h17, take_stream_ihdr s z (by omega), hT, afterSig_sinkDraws, Draws.drop_drop]
      simp [afterSig, afterSize, sent, ihdrData]
    · rw [hT]; exact ⟨rfl, rfl, rfl, rfl⟩
  · have hc : s.accCapParam.toNat < 4 + z.length := by omega
    have hn : writesMade s z = 33 + (4 + s.accCapParam.toNat + 1) := by
      rw [writesMade, if_neg h17, if_pos hc]; omega
    rw [hn] at h ⊢
    obtain ⟨t, hwc, hT⟩ := writeChunk_full (tag := Config.tagIdat) (data := z) (afterIhdr_accCap s)
      hc (fun m hm => by have := h (33 + m) (by omega); simpa using this)
    rw [encodeWrite_ihdr ht (by omega) fun k hk => h k (by omega), opWrIdat_eq (afterIhdr_compHolds hz), hwc]
    refine ⟨t, rfl, ⟨?_⟩, fun h => absurd h h17, fun _ => ?_⟩
    · rw [if_neg h17, take_stream_idat s z (by omega), hT, afterIhdr_sinkDraws, Draws.drop_drop]
      simp [afterIhdr, afterChunk, afterSig, afterSize, sent, ihdrData]
    · rw [hT]; rfl

/-- Either every one of the first `n` answers accepts, or there is a first that does not. -/
theorem first_not_accepted (d : Draws SinkAnswer) (n : Nat) :
    (∀ m < n, d.answer m = .accept) ∨
    ∃ k < n, (∀ m < k, d.answer m = .accept) ∧ (d.answer k = .reject ∨ d.answer k = .silent) := by
  induction n with
  | zero => exact .inl fun m hm => absurd hm (Nat.not_lt_zero m)
  | succ n ih =>
    rcases ih with h | ⟨k, hk, h⟩
    · match hn : d.answer n with
      | .accept =>
        refine .inl fun m hm => ?_
        rcases Nat.lt_or_eq_of_le (Nat.le_of_lt_succ hm) with hlt | heq
        · exact h m hlt
        · rw [heq, hn]
      | .reject => exact .inr ⟨n, by omega, h, .inl hn⟩
      | .silent => exact .inr ⟨n, by omega, h, .inr hn⟩
    · exact .inr ⟨k, by omega, h⟩

/-- The Write phase stops only with an error raised or where the sink never answers. -/
theorem encodeWrite_stop {s : State} {z : List Byte} {e : Stop} (hz : s.compHolds z)
    (h : encodeWrite s = .error e) : WriterStop e := by
  rw [encodeWrite_eq] at h
  have hcap : ∀ {u t : State} {r : Res State} {w : WState}, u.accCap.isSome → WriterPart u r →
      (r.bind fun s => .ok { s with wstate := w }) = .ok t → t.accCap.isSome ∧ t.compLen = u.compLen ∧ t.comp = u.comp := by
    intro u t r w hu hr ht
    obtain ⟨v, hv, ht⟩ := bind_eq_ok ht
    cases ht
    have hf := (hr.of_ok hv).frame
    exact ⟨by rw [hf]; exact hu, by rw [hf], by rw [hf]⟩
  rcases bind_eq_error h with h | ⟨t, ht, h⟩
  · rcases bind_eq_error h with h | ⟨t, _, h⟩
    · exact putRawSeq_stop h
    · cases h
  obtain ⟨ht1, ht2, ht3⟩ := hcap (u := afterSize s) rfl (putRawSeq_part _ _) ht
  rcases bind_eq_error h with h | ⟨u, hu, h⟩
  · rcases bind_eq_error h with h | ⟨t, _, h⟩
    · exact writeChunk_stop ht1 h
    · cases h
  obtain ⟨hu1, hu2, hu3⟩ := hcap ht1 (writeChunk_part _ _ t) hu
  have hz' : u.compHolds z := ⟨by rw [hu2, ht2]; exact hz.1, hz.2.1, by rw [hu3, ht3]; exact hz.2.2⟩
  rcases bind_eq_error h with h | ⟨v, hv, h⟩
  · rw [opWrIdat_eq hz'] at h
    rcases bind_eq_error h with h | ⟨t, _, h⟩
    · exact writeChunk_stop hu1 h
    · cases h
  rw [opWrIdat_eq hz'] at hv
  obtain ⟨hv1, _⟩ := hcap hu1 (writeChunk_part _ _ u) hv
  rcases bind_eq_error h with h | ⟨t, _, h⟩
  · exact writeChunk_stop hv1 h
  · cases h

/-! ## ENCODE as a whole -/

/-- The state in which an ENCODE begins its Write phase, the compressor having answered `z`. -/
def atWrite (raw filt : Memory 8) (kind : FilterKind) (z : List Byte) (s : State) : State :=
  { compressorCalled (filteredFrame kind s) (atCompressor raw filt s) with
    comp := Memory.writeSeq [] 0 z, compLen := some (BitVec.ofNat 32 z.length) }

theorem atWrite_compHolds {raw filt : Memory 8} {kind : FilterKind} {z : List Byte} {s : State}
    (hc : z.length ≤ s.compCapParam.toNat) : (atWrite raw filt kind z s).compHolds z :=
  ⟨rfl, Nat.lt_of_le_of_lt hc s.compCapParam.isLt, fun a ha => writeSeq_read _ _ a ha⟩

@[simp] theorem atWrite_accCapParam (raw filt : Memory 8) (kind : FilterKind) (z : List Byte) (s : State) :
    (atWrite raw filt kind z s).accCapParam = s.accCapParam := rfl
@[simp] theorem atWrite_sinkDraws (raw filt : Memory 8) (kind : FilterKind) (z : List Byte) (s : State) :
    (atWrite raw filt kind z s).sinkDraws = s.sinkDraws := rfl

/-- Where ENCODE stops before the compressor, and what it does from there, by the compressor's answer. -/
theorem opEncode_cases (s : State) :
    (¬ s.configOk ∧ opEncode s = raise (configCause s) (enterPhase .config (beginEncode s))) ∨
    (s.configOk ∧ ¬ s.admitted = true ∧ opEncode s = .error (.refused .descriptorNotAdmitted)) ∨
    (s.configOk ∧ s.admitted = true ∧ ¬ s.channelsWritten ∧ opEncode s = .error (.fault .unwrittenChannelCell)) ∨
    (s.configOk ∧ s.admitted = true ∧ s.channelsWritten ∧ ∃ kind, FilterKind.ofCode s.fkind = some kind ∧
      ∃ raw filt, (∃ f, s.compDraws.head = .fail f ∧
          opEncode s = raise f.cause (compressorCalled (filteredFrame kind s) (atCompressor raw filt s))) ∨
        (s.compDraws.head = .silent ∧ opEncode s = .error (.fault .compressorNeverAnswers)) ∨
        (∃ z, s.compDraws.head = .ok z ∧ s.compCapParam.toNat < z.length ∧
          opEncode s = .error (.refused .compressorOverran)) ∨
        ∃ z, s.compDraws.head = .ok z ∧ z.length ≤ s.compCapParam.toNat ∧
          opEncode s = (encodeWrite (atWrite raw filt kind z s)).bind fun s => .ok (finishEncode s)) := by
  by_cases h : s.configOk
  · by_cases ha : s.admitted = true
    · by_cases hw : s.channelsWritten
      · obtain ⟨kind, hk⟩ := FilterKind.ofCode_isSome h.2.2
        obtain ⟨raw, filt, hf, _, _, he⟩ := opEncode_compress h ha hw hk
        refine .inr (.inr (.inr ⟨h, ha, hw, kind, hk, raw, filt, ?_⟩))
        have hd : (atCompressor raw filt s).compDraws = s.compDraws := rfl
        have hcc : (atCompressor raw filt s).compCapParam = s.compCapParam := rfl
        match hh : s.compDraws.head with
        | .fail f => exact .inl ⟨f, rfl, by rw [he, opCmpCall_fail hf (hd ▸ hh), bind_raise]⟩
        | .silent => exact .inr (.inl ⟨rfl, by rw [he, opCmpCall_silent hf (hd ▸ hh), bind_error]⟩)
        | .ok z =>
          by_cases hc : z.length ≤ s.compCapParam.toNat
          · exact .inr (.inr (.inr ⟨z, rfl, hc, by rw [he, opCmpCall_ok hf (hd ▸ hh) (hcc ▸ hc), bind_ok]; rfl⟩))
          · exact .inr (.inr (.inl ⟨z, rfl, by omega, by
              rw [he, opCmpCall_overrun hf (hd ▸ hh) (by rw [hcc]; omega), bind_error]⟩))
      · exact .inr (.inr (.inl ⟨h, ha, hw, opEncode_unwritten h ha hw⟩))
    · exact .inr (.inl ⟨h, ha, opEncode_not_admitted h ha⟩)
  · exact .inl ⟨h, opEncode_config h⟩

end Sys2Proof.Machine
end

