-- ==== Sys2Proof/Laws/Frame.lean ====
section
/-! SUPPORT. What every operation keeps, said once: the host's inputs, the growth of the sink, the parts of the invariant;
and ENCODE's run in those terms. -/

namespace Sys2Proof.Machine

/-- What every operation keeps. -/
structure OpFrame (s t : State) : Prop where
  inputs : t = { s with
    done := t.done, err := t.err, tblValid := t.tblValid, phase := t.phase, wstate := t.wstate, errReg := t.errReg
    crcAcc := t.crcAcc, crcOut := t.crcOut, tbl := t.tbl
    raw := t.raw, filt := t.filt, comp := t.comp, accbuf := t.accbuf
    accIdx := t.accIdx, accCap := t.accCap, compCap := t.compCap, compLen := t.compLen
    sink := t.sink, offered := t.offered, compCalls := t.compCalls
    sinkDraws := t.sinkDraws, compDraws := t.compDraws }
  sink : s.sink <+: t.sink
  offered : s.offered <+: t.offered
  valid : s.tblValid = true → t.tblValid = true
  inv : Inv s → Inv t

theorem OpFrame.refl (s : State) : OpFrame s s where
  inputs := rfl
  sink := List.prefix_rfl
  offered := List.prefix_rfl
  valid := id
  inv := id

theorem OpFrame.trans {s t u : State} (h : OpFrame s t) (h' : OpFrame t u) : OpFrame s u where
  inputs := by rw [h'.inputs, h.inputs]
  sink := h.sink.trans h'.sink
  offered := h.offered.trans h'.offered
  valid := h'.valid ∘ h.valid
  inv := h'.inv ∘ h.inv

/-- An operation that ends or raises an error within its frame. -/
def OpKeeps (s : State) (r : Res State) : Prop := Meets r (OpFrame s) (OpFrame s)

/-! ## Named updates -/

theorem released_release (s : State) : released (release s) := ⟨rfl, rfl, rfl, rfl, rfl, rfl, rfl, rfl⟩

theorem Inv.of_released {s : State} (hr : released s) (ht : s.tblOk) (he : errorRegistersOk s)
    (hc : ∀ k : Fin 4, (s.ch[k]).wf = true) : Inv s := by
  obtain ⟨h1, h2, h3, h4, h5, h6, h7, h8⟩ := hr
  refine ⟨ht, he, ⟨hc, ?_, ?_, ?_, ?_⟩, ⟨?_, ?_⟩, ⟨?_, ?_⟩⟩
  · rw [h1]; rfl
  · rw [h2]; rfl
  · rw [h3]; rfl
  · rw [h4]; rfl
  · intro i c hi; rw [h5] at hi; cases hi
  · intro i hi; rw [h5] at hi; cases hi
  · intro n c hn; rw [h8] at hn; cases hn
  · intro n hn; rw [h8] at hn; cases hn

theorem errorEntry_errors (c : Cause) (s : State) (hc : c.kind ≠ .command) : errorRegistersOk (errorEntry c s) :=
  ⟨fun h => absurd h (by simp), fun _ => ⟨c, s.phase, s.wstate, rfl, fun h => absurd h hc⟩⟩

/-- Error entry is within the frame. -/
theorem errorEntry_frame (c : Cause) (s : State) (hc : c.kind ≠ .command) : OpFrame s (errorEntry c s) :=
  ⟨rfl, List.prefix_rfl, List.prefix_rfl, id, fun h =>
    Inv.of_released (released_release _) h.table (errorEntry_errors c s hc) h.memories.1⟩

theorem release_frame (s : State) : OpFrame s (release s) :=
  ⟨rfl, List.prefix_rfl, List.prefix_rfl, id, fun h =>
    Inv.of_released (released_release _) h.table h.errors h.memories.1⟩

theorem beginEncode_frame (s : State) : OpFrame s (beginEncode s) :=
  ⟨rfl, List.prefix_rfl, List.prefix_rfl, id, fun h =>
    Inv.of_released (released_release _) h.table h.errors h.memories.1⟩

theorem finishEncode_frame (s : State) : OpFrame s (finishEncode s) :=
  ⟨rfl, List.prefix_rfl, List.prefix_rfl, id, fun h =>
    Inv.of_released (released_release _) h.table h.errors h.memories.1⟩

theorem enterPhase_frame (p : Phase) (s : State) : OpFrame s (enterPhase p s) :=
  ⟨rfl, List.prefix_rfl, List.prefix_rfl, id, fun h =>
    ⟨h.table, h.errors, h.memories, h.accumulator, h.compressed⟩⟩

theorem WriterFrame.opFrame {s t : State} (h : WriterFrame s t) : OpFrame s t := by
  refine ⟨by rw [h.frame], h.sink, h.offered, h.valid, fun hi => ⟨h.table hi.table, ?_, ?_, h.accumulator hi.accumulator, ?_⟩⟩
  · have := hi.errors; rw [h.frame]; exact this
  · have h1 := hi.memories
    have h2 := h.wf h1.2.2.2.2
    rw [h.frame]
    exact ⟨h1.1, h1.2.1, h1.2.2.1, h1.2.2.2.1, h2⟩
  · have := hi.compressed; rw [h.frame]; exact this

theorem buildTable_frame (s : State) : OpFrame s (buildTable s) :=
  ⟨rfl, List.prefix_rfl, List.prefix_rfl, fun _ => rfl, fun h =>
    ⟨fun _ => rfl, h.errors, h.memories, h.accumulator, h.compressed⟩⟩

theorem ensureTable_frame (s : State) : OpFrame s (ensureTable s) := by
  unfold ensureTable
  split
  · exact .refl s
  · exact buildTable_frame s

/-! ## The operations -/

theorem opCfgChk_frame (s : State) :
    Meets (opCfgChk s) (fun t => t = s) fun t => ∃ c, c.kind = .configuration ∧ t = errorEntry c s := by
  by_cases h : s.configOk
  · rw [opCfgChk_ok h]; rfl
  · rw [opCfgChk_raise h]
    refine ⟨configCause s, ?_, rfl⟩
    unfold configCause
    split
    · rfl
    split <;> rfl

theorem WriterPart.keeps {s : State} {r : Res State} (h : WriterPart s r) : OpKeeps s r :=
  Meets.mono h (fun _ ht => ht.opFrame) fun _ ⟨u, c, hu, ht, hc⟩ => by
    subst ht
    exact hu.opFrame.trans (errorEntry_frame c u (by rcases hc with rfl | rfl <;> decide))

theorem slb_frame {s t : State} (h : t = { s with raw := t.raw } ∧ (s.raw.wf = true → t.raw.wf = true)) :
    OpFrame s t := by
  obtain ⟨h, hw⟩ := h
  refine ⟨by rw [h], by rw [h], by rw [h], fun hv => by rw [h]; exact hv, fun hi => ?_⟩
  have hm := hw hi.memories.2.1
  rw [h]
  exact ⟨hi.table, hi.errors, ⟨hi.memories.1, hm, hi.memories.2.2⟩, hi.accumulator, hi.compressed⟩

theorem filter_frame {s t : State} (h : t = { s with filt := t.filt } ∧ (s.filt.wf = true → t.filt.wf = true)) :
    OpFrame s t := by
  obtain ⟨h, hw⟩ := h
  refine ⟨by rw [h], by rw [h], by rw [h], fun hv => by rw [h]; exact hv, fun hi => ?_⟩
  have hm := hw hi.memories.2.2.1
  rw [h]
  exact ⟨hi.table, hi.errors, ⟨hi.memories.1, hi.memories.2.1, hm, hi.memories.2.2.2⟩, hi.accumulator, hi.compressed⟩

theorem compressorCalled_frame (input : List Byte) (s : State) :
    (compressorCalled input s) = { s with
      compCap := some s.compCapParam, compDraws := s.compDraws.rest
      compCalls := s.compCalls ++ [⟨input, s.compCapParam, s.level⟩] } := rfl

/-- What CMP.CALL changes. -/
theorem opCmpCall_frame (s : State) :
    Meets (opCmpCall s)
      (fun t => OpFrame s t ∧ ∃ input, s.filtHolds input ∧ ∃ z, s.compDraws.head = .ok z ∧
        z.length ≤ s.compCapParam.toNat ∧ t = { compressorCalled input s with
          comp := s.comp.writeSeq 0 z, compLen := some (BitVec.ofNat 32 z.length) })
      fun t => OpFrame s t ∧ ∃ input, s.filtHolds input ∧ ∃ f, s.compDraws.head = .fail f ∧
        t = errorEntry f.cause (compressorCalled input s) := by
  rcases opCmpCall_cases s with ⟨_, h⟩ | ⟨input, hi, ⟨z, hz, hc, h⟩ | ⟨z, _, _, h⟩ | ⟨f, hf, h⟩ | ⟨_, h⟩⟩
  · rw [h]; trivial
  · rw [h]
    refine ⟨⟨rfl, List.prefix_rfl, List.prefix_rfl, id, fun hv => ⟨hv.table, hv.errors,
      ⟨hv.memories.1, hv.memories.2.1, hv.memories.2.2.1, Memory.wf_writeSeq _ _ _ hv.memories.2.2.2.1,
        hv.memories.2.2.2.2⟩, hv.accumulator, ?_, ?_⟩⟩, input, hi, z, hz, hc, rfl⟩
    · rintro n c hn hcap
      cases hn; cases hcap
      rw [BitVec.toNat_ofNat]
      exact Nat.le_trans (Nat.mod_le _ _) hc
    · rintro n hn a ha
      cases hn
      rw [BitVec.toNat_ofNat] at ha
      have hlt : a < z.length := Nat.lt_of_lt_of_le ha (Nat.mod_le _ _)
      show ((s.comp.writeSeq 0 z).read a).isSome
      rw [writeSeq_read _ _ a hlt]
      simp [hlt]
  · rw [h]; trivial
  · rw [h]
    refine ⟨⟨rfl, List.prefix_rfl, List.prefix_rfl, id, fun hv =>
      Inv.of_released (released_release _) hv.table (errorEntry_errors _ _ ?_) hv.memories.1⟩, input, hi, f, hf, rfl⟩
    cases f <;> decide
  · rw [h]; trivial

/-- What ACC.SIZE changes. -/
theorem opAccSize_frame (s : State) : OpFrame s { s with accCap := some s.accCapParam, accIdx := some 0 } :=
  ⟨rfl, List.prefix_rfl, List.prefix_rfl, id, fun h =>
    ⟨h.table, h.errors, h.memories, ⟨fun i c hi _ => by cases hi; exact Nat.zero_le _,
      fun i hi a ha => by cases hi; exact absurd ha (Nat.not_lt_zero a)⟩, h.compressed⟩⟩

theorem setWState_frame (w : WState) (s : State) : OpFrame s { s with wstate := w } :=
  ⟨rfl, List.prefix_rfl, List.prefix_rfl, id, fun h => ⟨h.table, h.errors, h.memories, h.accumulator, h.compressed⟩⟩

/-- A writer operation: within the writer's frame up to its writer state, or an error of the writer. -/
def WriterOp (w : WState) (s : State) (r : Res State) : Prop :=
  Meets r (fun t => ∃ u, WriterFrame s u ∧ t = { u with wstate := w }) fun t =>
    ∃ u c, WriterFrame s u ∧ t = errorEntry c u ∧ (c = .sinkRejected ∨ c = .accumulatorOverflow)

theorem opWrSig_op (s : State) : WriterOp .signatureWritten s (opWrSig s) :=
  Meets.bind (putRawSeq_part _ s) fun u hu => ⟨u, hu, rfl⟩

theorem opWrIhdr_op (s : State) : WriterOp .headerWritten s (opWrIhdr s) :=
  Meets.bind (writeChunk_part _ _ s) fun u hu => ⟨u, hu, rfl⟩

theorem opWrIdat_op (s : State) : WriterOp .dataWritten s (opWrIdat s) := by
  unfold opWrIdat
  match s.compLen with
  | none => trivial
  | some n =>
    rw [readReg_some, bind_ok]
    match h : readCells s.comp 0 n.toNat with
    | .error e => rw [(readCells_eq_error h).1]; trivial
    | .ok z => rw [bind_ok]; exact Meets.bind (writeChunk_part _ _ s) fun u hu => ⟨u, hu, rfl⟩

theorem opWrIend_op (s : State) : WriterOp .trailerWritten s (opWrIend s) :=
  Meets.bind (writeChunk_part _ _ s) fun u hu => ⟨u, hu, rfl⟩

theorem WriterOp.keeps {w : WState} {s : State} {r : Res State} (h : WriterOp w s r) : OpKeeps s r :=
  Meets.mono h (fun _ ⟨_, hu, ht⟩ => ht ▸ hu.opFrame.trans (setWState_frame w _)) fun _ ⟨u, c, hu, ht, hc⟩ => by
    subst ht
    exact hu.opFrame.trans (errorEntry_frame c u (by rcases hc with rfl | rfl <;> decide))

/-! ## ENCODE -/

/-- A state inside an ENCODE begun in `s`: DONE is 0, no error is raised, the writer is in state `w`. -/
structure Running (s : State) (w : WState) (u : State) : Prop where
  frame : OpFrame s u
  done : u.done = false
  err : u.err = s.err
  errReg : u.errReg = s.errReg
  wstate : u.wstate = w

/-- A state in which an ENCODE begun in `s` has failed. -/
structure FailedRun (s t : State) : Prop where
  frame : OpFrame s t
  done : t.done = false
  err : t.err = true
  phase : t.phase = .failed
  wstate : t.wstate ≠ .trailerWritten
  released : released t

theorem Running.fail {s u : State} {w : WState} (h : Running s w u) (hw : w ≠ .trailerWritten) (c : Cause)
    (hc : c.kind ≠ .command) : FailedRun s (errorEntry c u) :=
  ⟨h.frame.trans (errorEntry_frame c u hc), h.done, rfl, rfl, by rw [errorEntry_wstate, h.wstate]; exact hw,
    released_release _⟩

theorem Running.enter {s u : State} {w : WState} (h : Running s w u) (p : Phase) : Running s w (enterPhase p u) :=
  ⟨h.frame.trans (enterPhase_frame p u), h.done, h.err, h.errReg, h.wstate⟩

theorem Running.write {s u : State} {w w' : WState} (h : Running s w u) (hw : w ≠ .trailerWritten) {r : Res State}
    (hr : WriterOp w' u r) : Meets r (Running s w') (FailedRun s) :=
  Meets.mono hr
    (fun t ⟨v, hv, ht⟩ => by
      subst ht
      exact ⟨h.frame.trans (hv.opFrame.trans (setWState_frame w' v)), by rw [hv.frame]; exact h.done,
        by rw [hv.frame]; exact h.err, by rw [hv.frame]; exact h.errReg, rfl⟩)
    fun t ⟨v, c, hv, ht, hc⟩ => by
      subst ht
      have hrun : Running s w v := ⟨h.frame.trans hv.opFrame, by rw [hv.frame]; exact h.done,
        by rw [hv.frame]; exact h.err, by rw [hv.frame]; exact h.errReg, by rw [hv.frame]; exact h.wstate⟩
      exact hrun.fail hw c (by rcases hc with rfl | rfl <;> decide)

theorem encodeWrite_run {s u : State} (h : Running s .start u) :
    Meets (encodeWrite u) (Running s .trailerWritten) (FailedRun s) := by
  have h0 : Running s .start { enterPhase .write u with accCap := some u.accCapParam, accIdx := some 0 } :=
    ⟨(h.enter .write).frame.trans (opAccSize_frame (enterPhase .write u)), h.done, h.err, h.errReg, h.wstate⟩
  refine Meets.bind (q := Running s .start) h0 fun u hu => ?_
  refine Meets.bind (hu.write (by decide) (opWrSig_op u)) fun u hu => ?_
  refine Meets.bind (hu.write (by decide) (opWrIhdr_op u)) fun u hu => ?_
  refine Meets.bind (hu.write (by decide) (opWrIdat_op u)) fun u hu => ?_
  exact hu.write (by decide) (opWrIend_op u)

/-- ENCODE's run, whatever happens: it ends in Done with everything the success of an ENCODE sets, or in Failed. -/
theorem opEncode_run (s : State) :
    Meets (opEncode s)
      (fun t => OpFrame s t ∧ t.done = true ∧ t.err = s.err ∧ t.errReg = s.errReg ∧ t.phase = .done ∧
        t.wstate = .trailerWritten ∧ released t)
      (FailedRun s) := by
  have h0 : Running s .start (enterPhase .config (beginEncode s)) :=
    ⟨(beginEncode_frame s).trans (enterPhase_frame _ _), rfl, rfl, rfl, rfl⟩
  refine Meets.bind (q := Running s .start) ?_ fun u hu => ?_
  · exact (opCfgChk_frame _).mono (fun t ht => ht ▸ h0) fun t ⟨c, hc, ht⟩ =>
      ht ▸ h0.fail (by decide) c (by rw [hc]; decide)
  refine Meets.bind (q := Running s .start) ?_ fun u hu => ?_
  · unfold requireAdmitted
    split
    · exact hu
    · trivial
  refine Meets.bind (q := Running s .start) ?_ fun u hu => ?_
  · refine (opSlbBuild_frame _).mono (fun t ht => ?_) fun _ h => h.elim
    have hb := hu.enter .build
    exact ⟨hb.frame.trans (slb_frame ht), by rw [ht.1]; exact hb.done, by rw [ht.1]; exact hb.err,
      by rw [ht.1]; exact hb.errReg, by rw [ht.1]; exact hb.wstate⟩
  refine Meets.bind (q := Running s .start) ?_ fun u hu => ?_
  · have hb := hu.enter .filter
    unfold opFltSelected
    split
    · refine (opFilter_frame _ _).mono (fun t ht => ?_) fun _ h => h.elim
      exact ⟨hb.frame.trans (filter_frame ht), by rw [ht.1]; exact hb.done, by rw [ht.1]; exact hb.err,
        by rw [ht.1]; exact hb.errReg, by rw [ht.1]; exact hb.wstate⟩
    · exact hb.fail (by decide) .badFilterKind (by decide)
  refine Meets.bind (q := Running s .start) ?_ fun u hu => ?_
  · have hb := hu.enter .compress
    refine (opCmpCall_frame _).mono (fun t ht => ?_) fun t ht => ?_
    · obtain ⟨hf, input, _, z, _, _, ht⟩ := ht
      exact ⟨hb.frame.trans hf, by rw [ht]; exact hb.done, by rw [ht]; exact hb.err, by rw [ht]; exact hb.errReg,
        by rw [ht]; exact hb.wstate⟩
    · obtain ⟨hf, input, _, f, _, ht⟩ := ht
      refine ⟨hb.frame.trans hf, by rw [ht]; exact hb.done, by rw [ht]; rfl, by rw [ht]; rfl, ?_,
        by rw [ht]; exact released_release _⟩
      rw [ht, errorEntry_wstate]
      show u.wstate ≠ _
      rw [hu.wstate]; decide
  refine Meets.bind (encodeWrite_run hu) fun u hu => ?_
  exact ⟨hu.frame.trans (finishEncode_frame u), rfl, hu.err, hu.errReg, rfl, hu.wstate, released_release _⟩

end Sys2Proof.Machine
end

