-- ==== Sys2Proof/Laws/PerInstr.lean ====
section
/-! SUPPORT. Statements made operation by operation: the shape of each operation's command word, 30_encoding.md R90, R91. -/

namespace Sys2Proof.Laws.WordShape

/-- The word of an operation: bits [31:16] are 0, bits [7:0] are its opcode; bits [15:8] are 0 unless the format is CMD8. -/
def Statement (i : Instr) : Prop :=
  (encode i).extractLsb' 16 16 = 0 ∧ (encode i).extractLsb' 0 8 = i.opcode ∧
  (i.format = .cmd0 → (encode i).extractLsb' 8 8 = 0)

/-- The shape of every operation's word, of which each lemma below is a case. -/
theorem holds (i : Instr) : Statement i :=
  ⟨encode_high i, encode_opcode i, fun h => (encode_field i).trans (field_of_cmd0 h)⟩

theorem encode : Statement .encode := holds _
theorem cfgChk : Statement .cfgChk := holds _
theorem crcTbl : Statement .crcTbl := holds _
theorem crcInit : Statement .crcInit := holds _
theorem crcUpd (imm8 : Byte) : Statement (.crcUpd imm8) := holds _
theorem crcFin : Statement .crcFin := holds _
theorem crcBuf : Statement .crcBuf := holds _
theorem slbBuild : Statement .slbBuild := holds _
theorem fltNone : Statement .fltNone := holds _
theorem fltSub : Statement .fltSub := holds _
theorem fltUp : Statement .fltUp := holds _
theorem fltAvg : Statement .fltAvg := holds _
theorem fltPaeth : Statement .fltPaeth := holds _
theorem cmpCall : Statement .cmpCall := holds _
theorem accSize : Statement .accSize := holds _
theorem wrSig : Statement .wrSig := holds _
theorem wrIhdr : Statement .wrIhdr := holds _
theorem wrIdat : Statement .wrIdat := holds _
theorem wrIend : Statement .wrIend := holds _

end Sys2Proof.Laws.WordShape
end

