-- ==== Sys2Proof/Tests/Slice0.lean ====
section
/-! SUPPORT. Tests: well-formedness, decoding of words written out from 30_encoding.md, single steps with the values of
95_test_vectors.md (its ids in the docstrings), and a witness of the hypotheses of every obligation that has some. -/

namespace Sys2Proof.Tests

open Sys2Proof Sys2Proof.Machine

/-! ## Helpers -/

/-- A channel bank holding the listed samples from index 0 on. -/
def bank (l : List Sample) : Memory 16 := (List.range l.length).zip l

/-- The listed bytes from index 0 on. -/
def bytesAt (l : List Byte) : Memory 8 := (List.range l.length).zip l

/-- The state after reset with a descriptor and channel banks. -/
def image (w h : Word) (d c f : Byte) (r g b a : List Sample) : State :=
  { State.reset with width := w, height := h, depth := d, cmode := c, fkind := f, ch := #v[bank r, bank g, bank b, bank a] }

/-- The outcome is a next state with a property. -/
def gives (o : Host.Outcome State Fault Refusal) (p : State → Bool) : Bool :=
  match o with
  | .next t => p t
  | .fault _ => false
  | .refused _ => false

/-- The fault of an outcome, if it is one. -/
def faultOf (o : Host.Outcome State Fault Refusal) : Option Fault :=
  match o with
  | .next _ => none
  | .fault f => some f
  | .refused _ => none

/-- The refusal of an outcome, if it is one. -/
def refusalOf (o : Host.Outcome State Fault Refusal) : Option Refusal :=
  match o with
  | .next _ => none
  | .fault _ => none
  | .refused r => some r

/-- The bytes of a buffer, its cells being 0, 1, 2, ... -/
def contents (m : Memory 8) : List Byte := m.map fun e => e.2

/-- The image S3 of the spec. -/
def imageS3 : State := image 2 2 8 2 0 [10, 20, 30, 40] [50, 60, 70, 80] [90, 100, 110, 120] []

/-- The compressor answer Z of S3. -/
def answerZ : List Byte :=
  [0x78, 0x9C, 0x63, 0xE0, 0x32, 0x8A, 0x12, 0xB1, 0x49, 0x61, 0x90, 0x73, 0xCB, 0xD3, 0x08, 0xA8, 0x00, 0x00, 0x12, 0x24,
   0x03, 0x0D]

/-- The raw bytes of S3. -/
def rawS3 : List Byte := [0x00, 0x0A, 0x32, 0x5A, 0x14, 0x3C, 0x64, 0x00, 0x1E, 0x46, 0x6E, 0x28, 0x50, 0x78]

/-- The 79 bytes of S3, in two parts. -/
def streamS3 : List Byte :=
  [0x89, 0x50, 0x4E, 0x47, 0x0D, 0x0A, 0x1A, 0x0A, 0x00, 0x00, 0x00, 0x0D, 0x49, 0x48, 0x44, 0x52, 0x00, 0x00, 0x00, 0x02,
   0x00, 0x00, 0x00, 0x02, 0x08, 0x02, 0x00, 0x00, 0x00, 0xFD, 0xD4, 0x9A, 0x73] ++
  [0x00, 0x00, 0x00, 0x16, 0x49, 0x44, 0x41, 0x54, 0x78, 0x9C, 0x63, 0xE0, 0x32, 0x8A, 0x12, 0xB1, 0x49, 0x61, 0x90, 0x73,
   0xCB, 0xD3, 0x08, 0xA8, 0x00, 0x00, 0x12, 0x24, 0x03, 0x0D, 0x5E, 0x62, 0x65, 0x98, 0x00, 0x00, 0x00, 0x00, 0x49, 0x45,
   0x4E, 0x44, 0xAE, 0x42, 0x60, 0x82]

/-- A state with the environment chosen: the sink's draws, both capacity entries, the compressor's first answer. -/
def withEnv (s : State) (sink : List SinkAnswer) (acc comp : Word) (answer : CompAnswer) : State :=
  { s with
    sinkDraws := ⟨sink, .accept⟩, accCaps := ⟨[], acc⟩, compCaps := ⟨[], comp⟩, compDraws := ⟨[answer], .silent⟩ }

/-- Accepts before write number `k`, counted from 0, and the answer `a` to it. -/
def acceptsThen (k : Nat) (a : SinkAnswer) : List SinkAnswer := List.replicate k .accept ++ [a]

/-- S3 with the parameters of program P2. -/
def readyS3 : State := withEnv imageS3 [] 26 22 (.ok answerZ)

/-- The inside of an ENCODE of S3, in the Write phase: buffers filled, table built, ERR clear. -/
def insideS3 : State :=
  { readyS3 with
    tbl := tblc, tblValid := true, phase := .write, raw := bytesAt rawS3, filt := bytesAt rawS3, comp := bytesAt answerZ
    compLen := some 22, compCap := some 22, accCap := some 26, accIdx := some 0 }

/-- `insideS3` with the sink's draws replaced. -/
def insideWith (sink : List SinkAnswer) : State := { insideS3 with sinkDraws := ⟨sink, .accept⟩ }

/-- What an earlier command may have left, buffers and all. -/
def leftoversS3 : State :=
  { readyS3 with
    crcAcc := 7, crcOut := 9, done := true, phase := .failed, wstate := .dataWritten, raw := bytesAt [1], filt := bytesAt [2]
    comp := bytesAt [3], accbuf := bytesAt [4], accIdx := some 1, accCap := some 2, compCap := some 3, compLen := some 1 }

/-- The state after reset with the host's coming actions. -/
def hostDoes (l : List HostAction) : State := { State.reset with bus := l }

/-! ## Well-formedness -/

/-- R91: the one operand at its bounds. -/
theorem test_wellFormed_immediate : (Instr.crcUpd 0).wellFormed = true ∧ (Instr.crcUpd 255).wellFormed = true := by decide

/-- R102: CRC.BUF, in the Checksum Engine's opcode range, and WR.SIG are not the host's to issue. -/
theorem test_hostIssuable_refuses : Instr.hostIssuable .wrSig = false ∧ Instr.hostIssuable .crcBuf = false ∧
    Instr.hostIssuable .crcFin = true := by decide

/-- R63, U7: a byte access and an access at offset 0x0E are ill-formed. -/
theorem test_hostAccess_ill_formed : hostAccessWellFormed 0x0C 1 = false ∧ hostAccessWellFormed 0x0E 4 = false ∧
    hostAccessWellFormed 0x0C 4 = true := by decide

/-- U7: a step refuses both. -/
theorem test_step_refuses_ill_formed_access :
    refusalOf (step (hostDoes [.write 0x0C 1 5])) = some .hostAccess ∧
    refusalOf (step (hostDoes [.read 0x0E 4])) = some .hostAccess := by decide +kernel

/-! ## Decoding -/

/-- R100: the sequencer's words. -/
theorem test_decode_sequencer : decode 0x00000001 = .ok .encode ∧ decode 0x00000002 = .ok .cfgChk := by decide

/-- R100, R91: the Checksum Engine's words. -/
theorem test_decode_checksum : decode 0x00000010 = .ok .crcTbl ∧ decode 0x00000011 = .ok .crcInit ∧
    decode 0x00004912 = .ok (.crcUpd 0x49) ∧ decode 0x00000013 = .ok .crcFin ∧ decode 0x00000014 = .ok .crcBuf := by decide

/-- R91: the immediate at its bounds. -/
theorem test_decode_immediate : decode 0x00000012 = .ok (.crcUpd 0) ∧ decode 0x0000FF12 = .ok (.crcUpd 255) := by decide

/-- R100: the Scanline Builder's and the Filter Engine's words. -/
theorem test_decode_image : decode 0x00000020 = .ok .slbBuild ∧ decode 0x00000030 = .ok .fltNone ∧
    decode 0x00000031 = .ok .fltSub ∧ decode 0x00000032 = .ok .fltUp ∧ decode 0x00000033 = .ok .fltAvg ∧
    decode 0x00000034 = .ok .fltPaeth := by decide

/-- R100: the compressor's and the writer's words. -/
theorem test_decode_writer : decode 0x00000040 = .ok .cmpCall ∧ decode 0x00000050 = .ok .accSize ∧
    decode 0x00000051 = .ok .wrSig ∧ decode 0x00000052 = .ok .wrIhdr ∧ decode 0x00000053 = .ok .wrIdat ∧
    decode 0x00000054 = .ok .wrIend := by decide

/-- R103: reserved opcodes. -/
theorem test_decode_reserved : decode 0x00000000 = .error .reservedOpcode ∧ decode 0x00000035 = .error .reservedOpcode ∧
    decode 0x000000FF = .error .reservedOpcode := by decide

/-- R93: bits that must be zero, the first test being on bits 31 to 16. -/
theorem test_decode_must_be_zero : decode 0x00010011 = .error .highBitsNotZero ∧
    decode 0x00014912 = .error .highBitsNotZero ∧ decode 0x80000035 = .error .highBitsNotZero ∧
    decode 0x00000111 = .error .fieldNotZero := by decide

/-- The host's reading of a table row: bits above `nbits` are 0, a number above 32 bits is no word. -/
theorem test_decodeTableWord : decodeTableWord 32 0x4912 = some (.crcUpd 0x49) ∧ decodeTableWord 32 0x35 = none ∧
    decodeTableWord 64 0x100000011 = none ∧ decodeTableWord 8 0x11 = some .crcInit := by decide

/-! ## The host's side -/

/-- The two ways `withFetchWord` places a word, run as the first step after reset: CRC.INIT through CMD, ACC.SIZE through
the sequencer's port. -/
theorem test_withFetchWord_runs :
    gives (step (State.reset.withFetchWord 32 0x11)) (fun t => t.statusWord == 4) = true ∧
    gives (step (State.reset.withFetchWord 32 0x50)) (fun t => t.accIdx == some 0) = true := by decide +kernel

/-- EV14, EV15, EV16: command errors from reset. -/
theorem test_command_errors :
    gives (step (hostDoes [.write 0 4 0x00000000])) (fun t => t.statusWord == 2 && t.errReg == 0x00004105) = true ∧
    gives (step (hostDoes [.write 0 4 0x00000020])) (fun t => t.statusWord == 2 && t.errReg == 0x00004205) = true ∧
    gives (step (hostDoes [.write 0 4 0x00010011])) (fun t => t.statusWord == 2 && t.errReg == 0x00004105) = true := by
  decide +kernel

/-- EV19: the next CMD write clears the error first; STATUS goes from 0x467 to 0x465. -/
theorem test_cmd_clears_error :
    gives (step { hostDoes [.write 0 4 0x11] with
      done := true, err := true, errReg := 0x4205, tbl := tblc, tblValid := true, phase := .done, wstate := .trailerWritten })
      (fun t => t.statusWord == 0x465 && t.errReg == 0) = true := by decide +kernel

/-- R23: bits above 7 of a write to DEPTH are ignored; STATUS reads its fields. -/
theorem test_register_port :
    gives (step (hostDoes [.write 0x14 4 0xFFFFFF10])) (fun t => t.depth == 0x10) = true ∧
    gives (step { insideS3 with bus := [.read 0x04 4] }) (fun t => t.hostRead == 0x54) = true := by decide +kernel

/-- R44, U5: the channel port's last cell; a read of a cell that holds no value faults. -/
theorem test_channel_port :
    gives (step (hostDoes [.storeCell 3 0xFFFFFFFF 0xABCD])) (fun t => t.ch[3] == [(4294967295, 0xABCD)]) = true ∧
    faultOf (step { imageS3 with bus := [.loadCell 2 4] }) = some .unwrittenChannelCell ∧
    gives (step { imageS3 with bus := [.loadCell 2 3] }) (fun t => t.hostRead == 120) = true := by decide +kernel

/-! ## Checksum Engine -/

/-- S5, section 3 of the vectors: CRC.TBL from reset, with spot values of the table. -/
theorem test_crcTbl : gives (exec .crcTbl State.reset) (fun t =>
    t.statusWord == 4 && t.crcAcc == 0xFFFFFFFF && t.tbl[1] == 0x77073096 && t.tbl[182] == 0x220216B9 &&
      t.tbl[255] == 0x2D02EF8D) = true := by decide +kernel

/-- R185: CRC.INIT from another accumulator. -/
theorem test_crcInit : gives (exec .crcInit { State.reset with crcAcc := 5 }) (fun t =>
    t.crcAcc == 0xFFFFFFFF && t.crcOut == 0 && t.tblValid) = true := by decide +kernel

/-- The lazy build: `CRC.UPD 0x49` alone from reset. -/
theorem test_crcUpd_lazy : gives (exec (.crcUpd 0x49) State.reset) (fun t =>
    t.crcAcc == 0x22FDE946 && t.statusWord == 4) = true := by decide +kernel

/-- CV9: from CRC_ACC = 0x22FDE946, `CRC.UPD 0x45`. -/
theorem test_crcUpd_mid : gives (exec (.crcUpd 0x45) { State.reset with crcAcc := 0x22FDE946 }) (fun t =>
    t.crcAcc == 0x992BAC53) = true := by decide +kernel

/-- CV6: the accumulator after "123456789", finalised; TBL is not built. -/
theorem test_crcFin : gives (exec .crcFin { State.reset with crcAcc := 0x340BC6D9 }) (fun t =>
    t.crcOut == 0xCBF43926 && t.crcAcc == 0x340BC6D9 && !t.tblValid) = true := by decide +kernel

/-- CV5: CRC.BUF over "abc", the cell above ACC_IDX not being read. -/
theorem test_crcBuf : gives (exec .crcBuf
    { State.reset with accbuf := bytesAt [0x61, 0x62, 0x63, 0xFF], accIdx := some 3 }) (fun t =>
    t.crcAcc == 0xCADBBE3D && t.crcOut == 0x352441C2) = true := by decide +kernel

/-- CV1, R327: CRC.BUF over no byte; outside an ENCODE it stops. -/
theorem test_crcBuf_empty :
    gives (exec .crcBuf { State.reset with accIdx := some 0 }) (fun t => t.crcOut == 0) = true ∧
    faultOf (exec .crcBuf State.reset) = some .releasedRegister := by decide +kernel

/-! ## Scanline Builder and Filter Engine -/

/-- SB5: RGBA at depth 8, cells above 255. -/
theorem test_slbBuild_depth8 : gives (exec .slbBuild
    (image 1 2 8 6 2 [0x01FF, 0x0100] [0x00AB, 0xFF01] [0x0000, 0xFFFF] [0x8080, 0x007F])) (fun t =>
    contents t.raw == [0x02, 0xFF, 0xAB, 0x00, 0x80, 0x02, 0x00, 0x01, 0xFF, 0x7F]) = true := by decide +kernel

/-- SB6: RGB at depth 16, high byte first. -/
theorem test_slbBuild_depth16 : gives (exec .slbBuild (image 1 1 16 2 0 [0xA1B2] [0xC3D4] [0xE5F6] [])) (fun t =>
    contents t.raw == [0x00, 0xA1, 0xB2, 0xC3, 0xD4, 0xE5, 0xF6]) = true := by decide +kernel

/-- The raw frame of image SB3 with a tag. -/
def frameSB3 (tag : Byte) : State :=
  { image 3 2 8 2 tag [] [] [] [] with
    raw := bytesAt [tag, 0x0A, 0x00, 0x64, 0xC8, 0xFF, 0x32, 0x05, 0xFF, 0x19, tag, 0xFA, 0x01, 0x0C, 0x03, 0xFE, 0x06, 0x80,
      0x7F, 0x03] }

/-- The raw frame of image SB4 with a tag. -/
def frameSB4 (tag : Byte) : State :=
  { image 2 2 16 6 tag [] [] [] [] with
    raw := bytesAt [tag, 0x12, 0x34, 0x00, 0xFF, 0xAB, 0xCD, 0xFF, 0xFF, 0xFF, 0xFF, 0xFF, 0x00, 0x00, 0x00, 0xFF, 0xFF,
      tag, 0x00, 0x01, 0x7F, 0xFF, 0xAB, 0xCD, 0x80, 0x00, 0x80, 0x00, 0x01, 0x00, 0x11, 0x11, 0x00, 0x00] }

/-- FI6. -/
theorem test_fltNone : gives (exec .fltNone (frameSB3 0)) (fun t => contents t.filt ==
    [0x00, 0x0A, 0x00, 0x64, 0xC8, 0xFF, 0x32, 0x05, 0xFF, 0x19, 0x00, 0xFA, 0x01, 0x0C, 0x03, 0xFE, 0x06, 0x80, 0x7F,
     0x03]) = true := by decide +kernel

/-- FI12. -/
theorem test_fltSub : gives (exec .fltSub (frameSB4 1)) (fun t => contents t.filt ==
    [0x01, 0x12, 0x34, 0x00, 0xFF, 0xAB, 0xCD, 0xFF, 0xFF, 0xED, 0xCB, 0xFF, 0x01, 0x55, 0x33, 0x00, 0x00,
     0x01, 0x00, 0x01, 0x7F, 0xFF, 0xAB, 0xCD, 0x80, 0x00, 0x80, 0xFF, 0x82, 0x01, 0x66, 0x44, 0x80, 0x00]) = true := by
  decide +kernel

/-- FI8. -/
theorem test_fltUp : gives (exec .fltUp (frameSB3 2)) (fun t => contents t.filt ==
    [0x02, 0x0A, 0x00, 0x64, 0xC8, 0xFF, 0x32, 0x05, 0xFF, 0x19, 0x02, 0xF0, 0x01, 0xA8, 0x3B, 0xFF, 0xD4, 0x7B, 0x80,
     0xEA]) = true := by decide +kernel

/-- FI9. -/
theorem test_fltAvg : gives (exec .fltAvg (frameSB3 3)) (fun t => contents t.filt ==
    [0x03, 0x0A, 0x00, 0x64, 0xC3, 0xFF, 0x00, 0xA1, 0x80, 0x00, 0x03, 0xF5, 0x01, 0xDA, 0x22, 0x7E, 0xE7, 0x7C, 0x81,
     0xF4]) = true := by decide +kernel

/-- FI10. -/
theorem test_fltPaeth_depth8 : gives (exec .fltPaeth (frameSB3 4)) (fun t => contents t.filt ==
    [0x04, 0x0A, 0x00, 0x64, 0xBE, 0xFF, 0xCE, 0x3D, 0x00, 0xE7, 0x04, 0xF0, 0x01, 0xA8, 0x09, 0xFF, 0xFA, 0x7D, 0x81,
     0xFD]) = true := by decide +kernel

/-- FI15. -/
theorem test_fltPaeth_depth16 : gives (exec .fltPaeth (frameSB4 4)) (fun t => contents t.filt ==
    [0x04, 0x12, 0x34, 0x00, 0xFF, 0xAB, 0xCD, 0xFF, 0xFF, 0xED, 0xCB, 0xFF, 0x01, 0x55, 0x33, 0x00, 0x00,
     0x04, 0xEE, 0xCD, 0x7F, 0x00, 0x00, 0x00, 0x81, 0x01, 0x81, 0x01, 0x02, 0x00, 0x11, 0x11, 0x80, 0x00]) = true := by
  decide +kernel

/-- FP3, FP7, FP15, FP19: ties and a negative estimate. -/
theorem test_paeth : paeth 10 20 15 = 15 ∧ paeth 255 255 0 = 255 ∧ paeth 4 1 3 = 1 ∧ paeth 0 128 255 = 0 := by decide

/-! ## CFG.CHK, CMP.CALL, ACC.SIZE and the Container Writer -/

/-- EV4: all three bad, in phase Config: ConfigurationError(BadDepth), stage 1. -/
theorem test_cfgChk_fails : gives (exec .cfgChk { image 0 0 12 9 200 [] [] [] [] with phase := .config }) (fun t =>
    t.statusWord == 0x72 && t.errReg == 0x111) = true := by decide +kernel

/-- R254: a legal configuration passes without effect, the largest filter kind. -/
theorem test_cfgChk_passes : gives (exec .cfgChk (image 0 0 16 6 4 [] [] [] [])) (fun t =>
    t == image 0 0 16 6 4 [] [] [] []) = true := by decide +kernel

/-- Step 3 of P2: the answer in COMP, and the call as the compressor sees it. -/
theorem test_cmpCall : gives (exec .cmpCall insideS3) (fun t =>
    contents t.comp == answerZ && t.compLen == some 22 && t.compCalls == [⟨rawS3, 22, 0⟩]) = true := by decide +kernel

/-- P6: InsufficientOutput in phase Compress. -/
theorem test_cmpCall_fails : gives (exec .cmpCall
    { insideS3 with phase := .compress, compDraws := ⟨[.fail .insufficientOutput], .silent⟩ }) (fun t =>
    t.errReg == 0x1442 && t.sink == []) = true := by decide +kernel

/-- U12: the parameter 26 for S3, and an entry below F + 5 held to 19. -/
theorem test_accSize :
    gives (exec .accSize readyS3) (fun t => t.accCap == some 26 && t.accIdx == some 0) = true ∧
    gives (exec .accSize imageS3) (fun t => t.accCap == some 19) = true := by decide +kernel

/-- W1. -/
theorem test_wrSig : gives (exec .wrSig State.reset) (fun t =>
    t.sink == [0x89, 0x50, 0x4E, 0x47, 0x0D, 0x0A, 0x1A, 0x0A] && t.wstate == .signatureWritten && !t.tblValid) = true := by
  decide +kernel

/-- W2.8: four different bytes of WIDTH. -/
theorem test_wrIhdr : gives (exec .wrIhdr { image 0x01020304 1 8 2 0 [] [] [] [] with accCap := some 17 }) (fun t =>
    t.sink == [0x00, 0x00, 0x00, 0x0D, 0x49, 0x48, 0x44, 0x52, 0x01, 0x02, 0x03, 0x04, 0x00, 0x00, 0x00, 0x01, 0x08, 0x02,
      0x00, 0x00, 0x00, 0xDE, 0x11, 0xB9, 0x81] && t.accIdx == some 17) = true := by decide +kernel

/-- P5: ACC_CAP = 9: the tenth mirrored byte is in the sink and overflows. -/
theorem test_wrIhdr_overflows : gives (exec .wrIhdr
    { image 1 1 8 2 0 [] [] [] [] with accCap := some 9, phase := .write, wstate := .signatureWritten }) (fun t =>
    t.errReg == 0x00012153 && t.statusWord == 0x172 && t.sink ==
      [0x00, 0x00, 0x00, 0x0D, 0x49, 0x48, 0x44, 0x52, 0x00, 0x00, 0x00, 0x01, 0x00, 0x00]) = true := by decide +kernel

/-- W3. -/
theorem test_wrIdat : gives (exec .wrIdat
    { State.reset with comp := bytesAt [0xAA, 0xBB, 0xCC], compLen := some 3, accCap := some 7 }) (fun t =>
    t.sink == [0x00, 0x00, 0x00, 0x03, 0x49, 0x44, 0x41, 0x54, 0xAA, 0xBB, 0xCC, 0xB8, 0xC6, 0x6F, 0xFC] &&
      t.wstate == .dataWritten) = true := by decide +kernel

/-- W4: no data. -/
theorem test_wrIdat_empty : gives (exec .wrIdat { State.reset with compLen := some 0, accCap := some 4 }) (fun t =>
    t.sink == [0x00, 0x00, 0x00, 0x00, 0x49, 0x44, 0x41, 0x54, 0x35, 0xAF, 0x06, 0x1E]) = true := by decide +kernel

/-- W7. -/
theorem test_wrIend : gives (exec .wrIend { State.reset with accCap := some 4 }) (fun t =>
    t.sink == [0x00, 0x00, 0x00, 0x00, 0x49, 0x45, 0x4E, 0x44, 0xAE, 0x42, 0x60, 0x82] && t.crcAcc == 0x51BD9F7D) = true := by
  decide +kernel

/-- EV12: the sink rejects the last byte of the trailer. -/
theorem test_wrIend_rejected : gives (exec .wrIend
    { insideWith (acceptsThen 11 .reject) with wstate := .dataWritten }) (fun t =>
    t.errReg == 0x00033154 && t.statusWord == 0x376 && t.sink.length == 11 && t.crcOut == 0xAE426082) = true := by
  decide +kernel

/-! ## ENCODE -/

/-- P2 and EV13: success; EV7: ACC_CAP = 19. -/
theorem test_encode_ends :
    gives (exec .encode readyS3) (fun t =>
      t.sink == streamS3 && t.statusWord == 0x465 && t.errReg == 0 && t.crcOut == 0xAE426082) = true ∧
    gives (exec .encode (withEnv imageS3 [] 19 22 (.ok answerZ))) (fun t =>
      t.sink == streamS3.take 57 && t.statusWord == 0x276 && t.errReg == 0x00022153 && t.crcAcc == 0x022B658C) = true := by
  decide +kernel

/-- U1, U2: descriptors that are not admitted. -/
theorem test_encode_refuses :
    refusalOf (exec .encode (image 0 2 8 2 0 [] [] [] [])) = some .descriptorNotAdmitted ∧
    refusalOf (exec .encode (image 0x80000000 1 8 2 0 [] [] [] [])) = some .descriptorNotAdmitted := by decide +kernel

/-! ## Witnesses: concrete states and operands that meet the hypotheses of the obligations, clause by clause -/

/-- The channel cells an ENCODE reads, checked one by one. -/
theorem channelsWritten_of (s : State)
    (h : ∀ k < s.nch, ∀ i < s.width.toNat * s.height.toNat, (s.channelCell k i).isSome = true) : s.channelsWritten :=
  fun k i hk hi => h k hk i hi

/-- The cells of S3 are written. -/
theorem channelsWritten_readyS3 : readyS3.channelsWritten := channelsWritten_of _ (by decide +kernel)

theorem witness_DecodeAndEncodeAgree :
    (Instr.crcUpd 255).wellFormed = true ∧ decode 0x0000FF12 = .ok (.crcUpd 255) := by decide

theorem witness_DecoderFollowsTheFourSteps :
    (0x00010011 : Word).extractLsb' 16 16 ≠ 0 ∧
    ((0x0000FF35 : Word).extractLsb' 16 16 = 0 ∧ ∀ i : Instr, i.opcode ≠ (0x0000FF35 : Word).extractLsb' 0 8) ∧
    ((0x00000111 : Word).extractLsb' 16 16 = 0 ∧ Instr.opcode .crcInit = (0x00000111 : Word).extractLsb' 0 8 ∧
      Instr.format .crcInit = .cmd0 ∧ (0x00000111 : Word).extractLsb' 8 8 ≠ 0) ∧
    ((0x0000FF12 : Word).extractLsb' 16 16 = 0 ∧ Instr.opcode (.crcUpd 255) = (0x0000FF12 : Word).extractLsb' 0 8 ∧
      Instr.field (.crcUpd 255) = (0x0000FF12 : Word).extractLsb' 8 8) ∧
    (0x0000FF12 : Word) &&& (Instr.crcUpd 255).tableMask = (Instr.crcUpd 255).tableMatch ∧
    (0x0000FF12 : Word) &&& (Instr.crcUpd 0).tableMask = (Instr.crcUpd 0).tableMatch := by
  refine ⟨by decide, ⟨by decide, fun i => ?_⟩, by decide, by decide, by decide, by decide⟩
  cases i <;> simp [Instr.opcode]

theorem witness_StepRunsTheDecodedOperation :
    (({ insideS3 with seqSlot := some 0x14 } : State).seqSlot = some 0x14 ∧ decode 0x14 = .ok .crcBuf) ∧
    ((hostDoes [.write 0x00 4 0x11]).seqSlot = none ∧ (hostDoes [.write 0x00 4 0x11]).bus = .write 0x00 4 0x11 :: [] ∧
      decode 0x11 = .ok .crcInit ∧ Instr.hostIssuable .crcInit = true) ∧
    (decodeTableWord 32 0x11 = some .crcInit ∧ decodeTableWord 32 0x54 = some .wrIend) ∧
    (({ insideS3 with seqSlot := some 0x35 } : State).seqSlot = some 0x35 ∧ ∀ i, decode 0x35 ≠ .ok i) ∧
    (insideS3.seqSlot = none ∧ insideS3.bus = []) := by
  have h : decode 0x35 = .error .reservedOpcode := by decide
  exact ⟨⟨rfl, by decide⟩, ⟨rfl, rfl, by decide, rfl⟩, by decide, ⟨rfl, fun i => by rw [h]; nofun⟩, rfl, rfl⟩

theorem witness_CmdWritePerformsOrRaisesCommandError :
    (hostDoes []).seqSlot = none ∧
    ((hostDoes [.write 0x00 4 0x01]).bus = .write 0x00 4 0x01 :: [] ∧ decode 0x01 = .ok .encode ∧
      Instr.hostIssuable .encode = true) ∧
    ((hostDoes [.write 0x00 4 0x02]).bus = .write 0x00 4 0x02 :: [] ∧ decode 0x02 = .ok .cfgChk ∧
      Instr.hostIssuable .cfgChk = false) ∧
    ((hostDoes [.write 0x00 4 0]).bus = .write 0x00 4 0 :: [] ∧ ∀ i, decode 0 ≠ .ok i) ∧
    (hostDoes [.read 0x00 4]).bus = .read 0x00 4 :: [] := by
  have h : decode 0 = .error .reservedOpcode := by decide
  exact ⟨rfl, ⟨rfl, by decide, rfl⟩, ⟨rfl, by decide, rfl⟩, ⟨rfl, fun i => by rw [h]; nofun⟩, rfl⟩

theorem witness_HostRegisterMap :
    (hostDoes []).seqSlot = none ∧
    (∀ off ∈ [0x04, 0x08, 0x0C, 0x10, 0x14, 0x18, 0x1C, 0x20, 0x24, 0x28, 0x2C],
      off % 4 = 0 ∧ off ≠ 0x00 ∧ (hostDoes [.write off 4 0xFFFFFFFF]).bus = .write off 4 0xFFFFFFFF :: []) ∧
    (∀ off ∈ [0x00, 0x04, 0x08, 0x0C, 0x10, 0x14, 0x18, 0x1C, 0x20, 0x24, 0x28, 0x2C],
      off % 4 = 0 ∧ (hostDoes [.read off 4]).bus = .read off 4 :: []) ∧
    (0x0E % 4 ≠ 0 ∧ (hostDoes [.write 0x0E 4 1]).bus = .write 0x0E 4 1 :: []) ∧
    (1 ≠ 4 ∧ (hostDoes [.read 0x0C 1]).bus = .read 0x0C 1 :: []) := by decide +kernel

theorem witness_ChannelPortMovesOneCell :
    (hostDoes []).seqSlot = none ∧
    (hostDoes [.storeCell 3 0xFFFFFFFF 1]).bus = .storeCell 3 0xFFFFFFFF 1 :: [] ∧
    (({ imageS3 with bus := [.loadCell 2 3] } : State).bus = .loadCell 2 3 :: [] ∧
      (imageS3.ch[2]).read (3 : Word).toNat = some 120) ∧
    (imageS3.ch[3]).read (0xFFFFFFFF : Word).toNat = none := by decide +kernel

/-- The premise on the table (R184), with TBL_VALID 1 and 0. -/
theorem witness_CrcUpdFoldsOneByte : insideS3.tblOk ∧ State.reset.tblOk := ⟨fun _ => rfl, nofun⟩

theorem witness_CrcBufChecksumsTheMirror :
    (let s := { insideS3 with accbuf := bytesAt [0x61, 0x62], accIdx := some 2 };
      s.tblOk ∧ s.accIdx = some 2 ∧ [(0x61 : Byte), 0x62].length = (2 : Word).toNat ∧
        ∀ a < (2 : Word).toNat, s.accbuf.read a = [(0x61 : Byte), 0x62][a]?) ∧
    (insideS3.tblOk ∧ insideS3.accIdx = some 0 ∧ ([] : List Byte).length = (0 : Word).toNat ∧
      ∀ a < (0 : Word).toNat, insideS3.accbuf.read a = ([] : List Byte)[a]?) ∧
    State.reset.accIdx = none ∧
    (let s := { insideS3 with accIdx := some 1 };
      s.accIdx = some 1 ∧ 0 < (1 : Word).toNat ∧ s.accbuf.read 0 = none) :=
  ⟨⟨fun _ => rfl, rfl, rfl, by decide +kernel⟩, ⟨fun _ => rfl, rfl, rfl, by decide +kernel⟩, rfl, rfl, by decide, rfl⟩

theorem witness_HostChecksumProgramComputesCrc32 :
    State.reset.tblOk ∧ (hostDoes (crc32Lines [0x49] ++ [.read 0x28 4])).seqSlot = none ∧
    (hostDoes (crc32Lines [0x49] ++ [.read 0x28 4])).bus = crc32Lines [0x49] ++ [.read 0x28 4] ∧
    (hostDoes (crc32Lines [])).bus = crc32Lines [] ++ [] := ⟨nofun, rfl, rfl, rfl⟩

/-- S3 at depth 8 in RGB, and SB4's pixel at depth 16 in RGBA. -/
theorem witness_SlbBuildWritesRawBytes :
    (readyS3.depth = 8 ∧ readyS3.cmode = 2 ∧ readyS3.channelsWritten ∧ 1 < readyS3.height.toNat ∧ 6 < readyS3.stride ∧
      2 < readyS3.nch ∧ readyS3.channelCell 2 (1 * readyS3.width.toNat + 1) = some 120 ∧ readyS3.frameSize = 14) ∧
    (let s := image 1 1 16 6 3 [0x1234] [0x00FF] [0xABCD] [0xFFFF];
      s.depth = 16 ∧ s.cmode = 6 ∧ s.channelsWritten ∧ 3 < s.nch ∧ s.channelCell 3 0 = some 0xFFFF) := by
  refine ⟨⟨by decide, by decide, channelsWritten_readyS3, by decide +kernel⟩, ?_⟩
  exact ⟨by decide, by decide, channelsWritten_of _ (by decide +kernel), by decide +kernel⟩

theorem witness_SlbBuildFaultsOnAnUnwrittenCell :
    let s := { imageS3 with cmode := 6 }
    s.depth = 8 ∧ s.cmode = 6 ∧ ¬ s.channelsWritten ∧ faultOf (exec .slbBuild s) = some .unwrittenChannelCell := by
  refine ⟨by decide, by decide, fun h => absurd (h 3 0 (by decide +kernel) (by decide)) (by decide +kernel), by decide +kernel⟩

/-- Depth 8: other high bytes, and a fourth bank. -/
theorem witness_SlbBuildReadsOnlyUsedCells :
    let s := imageS3
    let s' := image 2 2 8 2 0 [0xFF0A, 20, 30, 40, 7] [50, 60, 70, 80] [90, 100, 110, 120] [1]
    s.depth = 8 ∧ s.cmode = 2 ∧ s.channelsWritten ∧ s' = { s with ch := s'.ch } ∧ s'.ch ≠ s.ch ∧
    (∀ k < s.nch, ∀ i < s.width.toNat * s.height.toNat,
      (s'.channelCell k i).map (fun v => v.extractLsb' 0 8) = (s.channelCell k i).map (fun v => v.extractLsb' 0 8)) ∧
    gives (exec .slbBuild s) (fun _ => true) = true := by
  refine ⟨by decide, by decide, channelsWritten_of _ (by decide +kernel), rfl, by decide +kernel, by decide +kernel, by decide +kernel⟩

theorem witness_FilterOperationsReplaceEveryByte :
    let s := frameSB3 4
    let raw : Nat → Nat → Byte := fun r j => (s.raw.read (r * s.stride + j)).getD 0
    (FilterKind.paeth, Instr.fltPaeth, 4) ∈ [(FilterKind.none, Instr.fltNone, 0), (.sub, .fltSub, 1), (.up, .fltUp, 2),
      (.average, .fltAvg, 3), (.paeth, .fltPaeth, 4)] ∧
    (∀ r < s.height.toNat, ∀ j < s.stride, s.raw.read (r * s.stride + j) = some (raw r j)) ∧
    1 < s.height.toNat ∧ s.pstride < s.stride - 1 := by
  refine ⟨by simp, by decide +kernel, by decide +kernel, by decide +kernel⟩

theorem witness_FilterNoneIsIdentity : ∀ a < insideS3.frameSize, (insideS3.raw.read a).isSome := by decide +kernel

/-- FP15, FP8 and FP3: the tie of b and c_, the tie of a and b, and the third branch. -/
theorem witness_PaethPicksTheNearestInput :
    let p : Int := 4 + 1 - 3
    (¬ ((p - 4).natAbs ≤ (p - 1).natAbs ∧ (p - 4).natAbs ≤ (p - 3).natAbs) ∧ (p - 1).natAbs ≤ (p - 3).natAbs) ∧
    paeth 4 1 3 = 1 ∧ paeth 0 0 255 = 0 ∧ paeth 10 20 15 = 15 := by decide

theorem witness_PaethEdgesAreSubAndUp :
    (∀ a < (frameSB3 4).frameSize, ((frameSB3 4).raw.read a).isSome) ∧ 0 < (frameSB3 4).height.toNat ∧
    (1 < (frameSB3 4).height.toNat ∧ (frameSB3 4).pstride < (frameSB3 4).stride) := by decide +kernel

theorem witness_FilterFaultsOnAnUnwrittenByte :
    Instr.fltPaeth ∈ [Instr.fltNone, .fltSub, .fltUp, .fltAvg, .fltPaeth] ∧
    ∃ a < readyS3.frameSize, readyS3.raw.read a = none := ⟨by decide, 13, by decide +kernel, by decide +kernel⟩

/-- Two frames of different descriptors' worth of raw bytes, one of them longer, with the same filtered bytes. -/
theorem witness_FiltersAreReversible :
    let raw' : Memory 8 := bytesAt (rawS3 ++ [0x55])
    Instr.fltPaeth ∈ [Instr.fltNone, .fltSub, .fltUp, .fltAvg, .fltPaeth] ∧
    (match exec .fltPaeth insideS3, exec .fltPaeth { insideS3 with raw := raw' } with
      | .next t, .next t' => (List.range insideS3.frameSize).all (fun a => t.filt.read a == t'.filt.read a)
      | _, _ => false) = true := by
  refine ⟨by decide, by decide +kernel⟩

theorem witness_CfgChkTestsInOrder :
    (State.reset.depth ≠ 8 ∧ State.reset.depth ≠ 16) ∧
    ((image 0 0 16 3 0 [] [] [] []).depth = 16 ∧ (image 0 0 16 3 0 [] [] [] []).cmode ≠ 2 ∧
      (image 0 0 16 3 0 [] [] [] []).cmode ≠ 6) ∧
    ((image 0 0 8 6 5 [] [] [] []).depth = 8 ∧ (image 0 0 8 6 5 [] [] [] []).cmode = 6 ∧
      4 < (image 0 0 8 6 5 [] [] [] []).fkind.toNat) ∧
    ((image 0 0 8 6 4 [] [] [] []).depth = 8 ∧ (image 0 0 8 6 4 [] [] [] []).cmode = 6 ∧
      (image 0 0 8 6 4 [] [] [] []).fkind.toNat ≤ 4) := by decide

/-- An admitted descriptor, and the largest width of one row at depth 8 in RGB. -/
theorem witness_CapacitiesMeetTheirBounds :
    readyS3.admitted = true ∧ (image 1431655763 1 8 2 0 [] [] [] []).admitted = true ∧
    (image 1431655764 1 8 2 0 [] [] [] []).admitted = false := by decide +kernel

theorem witness_AccSizeSetsTheCapacity : insideS3.admitted = true := by decide +kernel

/-- An answer of exactly the capacity, and one of no bytes. -/
theorem witness_CmpCallStoresTheAnswer :
    (rawS3.length = insideS3.frameSize ∧ (∀ a < insideS3.frameSize, insideS3.filt.read a = rawS3[a]?) ∧
      insideS3.compDraws.head = .ok answerZ ∧ answerZ.length ≤ insideS3.compCapParam.toNat ∧
      answerZ.length = insideS3.compCapParam.toNat) ∧
    (let s := { insideS3 with compDraws := ⟨[.ok []], .silent⟩ };
      s.compDraws.head = .ok [] ∧ ([] : List Byte).length ≤ s.compCapParam.toNat) := by decide +kernel

theorem witness_CmpCallReportsFailures :
    (∃ a < readyS3.frameSize, readyS3.filt.read a = none) ∧
    (∀ a < insideS3.frameSize, (insideS3.filt.read a).isSome) ∧
    (∀ f ∈ [CompFailure.noMemory, .invalidParams, .versionMismatch, .insufficientOutput],
      ({ insideS3 with compDraws := ⟨[.fail f], .silent⟩ } : State).compDraws.head = .fail f) ∧
    (let s := { insideS3 with compDraws := ⟨[.ok (answerZ ++ [0])], .silent⟩ };
      s.compDraws.head = .ok (answerZ ++ [0]) ∧ s.compCapParam.toNat < (answerZ ++ [0]).length) ∧
    ({ insideS3 with compDraws := ⟨[], .silent⟩ } : State).compDraws.head = .silent :=
  ⟨⟨0, by decide +kernel, by decide +kernel⟩, by decide +kernel, by decide +kernel, by decide +kernel, rfl⟩

theorem witness_WrSigSendsTheSignature :
    ∀ k < 8, (insideWith (acceptsThen 8 .reject)).sinkDraws.answer k = .accept := by decide +kernel

/-- ACC_CAP exactly 17, and the sink accepting exactly 25 writes. -/
theorem witness_WrIhdrSendsTheHeaderChunk :
    let s := { insideWith (acceptsThen 25 .reject) with accCap := some 17 }
    s.tblOk ∧ s.accCap = some 17 ∧ 17 ≤ (17 : Word).toNat ∧ ∀ k < 25, s.sinkDraws.answer k = .accept :=
  ⟨fun _ => rfl, rfl, by decide, by decide +kernel⟩

/-- The data of S3 with ACC_CAP exactly 26, and no data. -/
theorem witness_WrIdatSendsTheDataChunk :
    (let s := insideWith (acceptsThen 34 .reject);
      s.tblOk ∧ s.accCap = some 26 ∧ s.compLen = some 22 ∧ answerZ.length = (22 : Word).toNat ∧
      (∀ a < (22 : Word).toNat, s.comp.read a = answerZ[a]?) ∧ 4 + (22 : Word).toNat ≤ (26 : Word).toNat ∧
      ∀ k < 12 + (22 : Word).toNat, s.sinkDraws.answer k = .accept) ∧
    (let s := { insideS3 with compLen := some 0, accCap := some 4 };
      s.tblOk ∧ s.accCap = some 4 ∧ s.compLen = some 0 ∧ 4 + (0 : Word).toNat ≤ (4 : Word).toNat) :=
  ⟨⟨fun _ => rfl, rfl, rfl, rfl, by decide +kernel, by decide, by decide +kernel⟩, fun _ => rfl, rfl, rfl, by decide⟩

/-- ACC_CAP exactly 4. -/
theorem witness_WrIendSendsTheTrailerChunk :
    let s := { insideWith (acceptsThen 12 .reject) with accCap := some 4 }
    s.tblOk ∧ s.accCap = some 4 ∧ 4 ≤ (4 : Word).toNat ∧ ∀ k < 12, s.sinkDraws.answer k = .accept :=
  ⟨fun _ => rfl, rfl, by decide, by decide +kernel⟩

/-- COMP inside an ENCODE of S3. -/
theorem comp_insideS3 : ∀ a < answerZ.length, insideS3.comp.read a = answerZ[a]? := by decide +kernel

/-- Each chunk operation inside an ENCODE of S3. -/
theorem sendsChunk_insideS3 (sink : List SinkAnswer) :
    sendsChunk (insideWith sink) .wrIhdr Config.tagIhdr (ihdrData (insideWith sink)) ∧
    sendsChunk (insideWith sink) .wrIdat Config.tagIdat answerZ ∧
    sendsChunk (insideWith sink) .wrIend Config.tagIend [] :=
  ⟨.inl ⟨rfl, rfl, rfl⟩, .inr (.inl ⟨rfl, rfl, rfl, by decide, comp_insideS3⟩), .inr (.inr ⟨rfl, rfl, rfl⟩)⟩

/-- WR.SIG rejected at its first and its last byte; WR.IDAT rejected at its last checksum byte; and, with ACC_CAP = 9,
WR.IHDR rejected at the byte that would overflow ACCBUF. -/
theorem witness_SinkRejectionKeepsAPrefix :
    (∀ k ∈ [0, 7], k < Config.sig.length ∧ (∀ m < k, (insideWith (acceptsThen k .reject)).sinkDraws.answer m = .accept) ∧
      (insideWith (acceptsThen k .reject)).sinkDraws.answer k = .reject) ∧
    (let s := insideWith (acceptsThen 33 .reject);
      sendsChunk s .wrIdat Config.tagIdat answerZ ∧ s.accCap = some 26 ∧ 4 + answerZ.length ≤ (26 : Word).toNat ∧ s.tblOk ∧
      33 < (chunk Config.tagIdat answerZ).length ∧ (∀ m < 33, s.sinkDraws.answer m = .accept) ∧
      s.sinkDraws.answer 33 = .reject) ∧
    (let s := { insideWith (acceptsThen 13 .reject) with accCap := some 9 };
      sendsChunk s .wrIhdr Config.tagIhdr (ihdrData s) ∧ s.accCap = some 9 ∧ 13 ≤ 4 + (9 : Word).toNat ∧ s.tblOk ∧
      13 < (chunk Config.tagIhdr (ihdrData s)).length ∧ (∀ m < 13, s.sinkDraws.answer m = .accept) ∧
      s.sinkDraws.answer 13 = .reject) := by
  refine ⟨by decide +kernel, ⟨(sendsChunk_insideS3 _).2.1, rfl, by decide, fun _ => rfl, by decide +kernel, by decide +kernel,
    by decide +kernel⟩, .inl ⟨rfl, rfl, rfl⟩, rfl, by decide, fun _ => rfl, by decide +kernel, by decide +kernel,
    by decide +kernel⟩

/-- ACC_CAP one below the need of each chunk, and 0. -/
theorem witness_AccumulatorOverflowIsDetected :
    (let s := { insideS3 with accCap := some 16 };
      sendsChunk s .wrIhdr Config.tagIhdr (ihdrData s) ∧ s.accCap = some 16 ∧
      (16 : Word).toNat < 4 + (ihdrData s).length ∧ ∀ m < 4 + (16 : Word).toNat + 1, s.sinkDraws.answer m = .accept) ∧
    (let s := { insideS3 with accCap := some 25 };
      sendsChunk s .wrIdat Config.tagIdat answerZ ∧ s.accCap = some 25 ∧ (25 : Word).toNat < 4 + answerZ.length) ∧
    (let s := { insideS3 with accCap := some 0 };
      sendsChunk s .wrIend Config.tagIend [] ∧ s.accCap = some 0 ∧ (0 : Word).toNat < 4 + ([] : List Byte).length) := by
  refine ⟨⟨.inl ⟨rfl, rfl, rfl⟩, rfl, by decide +kernel, by decide +kernel⟩,
    ⟨.inr (.inl ⟨rfl, rfl, rfl, by decide, by decide +kernel⟩), rfl, by decide⟩, .inr (.inr ⟨rfl, rfl, rfl⟩), rfl, by decide⟩

theorem witness_WriterStopsWithoutBuffersOrSink :
    State.reset.compLen = none ∧
    (let s := { insideS3 with compLen := some 23 };
      s.compLen = some 23 ∧ 22 < (23 : Word).toNat ∧ s.comp.read 22 = none) ∧
    (let s := { insideS3 with accCap := none };
      sendsChunk s .wrIend Config.tagIend [] ∧ s.accCap = none ∧ ∀ k < 5, s.sinkDraws.answer k = .accept) ∧
    (let s := insideWith (acceptsThen 7 .silent);
      7 < Config.sig.length ∧ (∀ m < 7, s.sinkDraws.answer m = .accept) ∧ s.sinkDraws.answer 7 = .silent) ∧
    (let s := insideWith (acceptsThen 0 .silent);
      sendsChunk s .wrIhdr Config.tagIhdr (ihdrData s) ∧ s.accCap = some 26 ∧
      4 + (ihdrData s).length ≤ (26 : Word).toNat ∧ 0 < (chunk Config.tagIhdr (ihdrData s)).length ∧
      s.sinkDraws.answer 0 = .silent) := by
  refine ⟨rfl, ⟨rfl, by decide, by decide +kernel⟩, ⟨.inr (.inr ⟨rfl, rfl, rfl⟩), rfl, by decide +kernel⟩,
    by decide +kernel, (sendsChunk_insideS3 _).1, rfl, by decide +kernel, by decide +kernel, by decide +kernel⟩

/-- The premises on the descriptor and the table that an ENCODE of S3 meets in every environment. -/
theorem premises_withEnv (sink : List SinkAnswer) (acc comp : Word) (answer : CompAnswer) :
    (withEnv imageS3 sink acc comp answer).configOk ∧ (withEnv imageS3 sink acc comp answer).admitted = true ∧
    (withEnv imageS3 sink acc comp answer).channelsWritten ∧ (withEnv imageS3 sink acc comp answer).tblOk :=
  ⟨⟨.inl rfl, .inl rfl, (by decide : imageS3.fkind.toNat ≤ 4)⟩, (by decide +kernel : imageS3.admitted = true),
    (channelsWritten_of _ (by decide +kernel) : imageS3.channelsWritten), nofun⟩

/-- ACC_CAP exactly 26. -/
theorem witness_EncodeProducesTheStream :
    (readyS3.configOk ∧ readyS3.admitted = true ∧ readyS3.channelsWritten ∧ readyS3.tblOk) ∧
    FilterKind.ofCode readyS3.fkind = some .none ∧ readyS3.compDraws.head = .ok answerZ ∧
    answerZ.length ≤ readyS3.compCapParam.toNat ∧
    17 ≤ readyS3.accCapParam.toNat ∧ 4 + answerZ.length = readyS3.accCapParam.toNat ∧
    (∀ k < 57 + answerZ.length, readyS3.sinkDraws.answer k = .accept) ∧ encodeStream readyS3 answerZ = streamS3 :=
  ⟨premises_withEnv _ _ _ _, by decide +kernel⟩

/-- The smallest image: ACC_CAP = 9 is below 17 (P5). -/
def readyP5 : State := withEnv (image 1 1 8 2 0 [7] [8] [9] []) [] 9 12 (.ok [0x78, 0x9C])

/-- Failures of the compressor, the header chunk's overflow at ACC_CAP = 9, and the data chunk's at ACC_CAP = 25. -/
theorem witness_EncodeFailsAsTheFunctionE :
    (∀ f, let s := withEnv imageS3 [] 26 22 (.fail f);
      (s.configOk ∧ s.admitted = true ∧ s.channelsWritten ∧ s.tblOk) ∧ s.compDraws.head = .fail f) ∧
    (readyP5.configOk ∧ readyP5.admitted = true ∧ readyP5.channelsWritten ∧ readyP5.tblOk ∧
      readyP5.compDraws.head = .ok [0x78, 0x9C] ∧ 2 ≤ readyP5.compCapParam.toNat ∧ readyP5.accCapParam.toNat < 17 ∧
      ∀ k < 59, readyP5.sinkDraws.answer k = .accept) ∧
    (let s := withEnv imageS3 [] 25 22 (.ok answerZ);
      (s.configOk ∧ s.admitted = true ∧ s.channelsWritten ∧ s.tblOk) ∧ s.compDraws.head = .ok answerZ ∧
      answerZ.length ≤ s.compCapParam.toNat ∧ 17 ≤ s.accCapParam.toNat ∧ s.accCapParam.toNat < 4 + answerZ.length ∧
      ∀ k < 57 + answerZ.length, s.sinkDraws.answer k = .accept) :=
  ⟨fun _ => ⟨premises_withEnv _ _ _ _, rfl⟩,
    ⟨⟨.inl rfl, .inl rfl, by decide⟩, by decide +kernel, channelsWritten_of _ (by decide +kernel), nofun, by decide +kernel⟩,
    premises_withEnv _ _ _ _, by decide +kernel⟩

/-- The rejected write at each end of each of the four ranges of the statement (EV8 to EV12). -/
theorem witness_EncodeStopsAtTheRejectedWrite :
    ∀ k ∈ [0, 7, 8, 32, 33, 66, 67, 78], let s := withEnv imageS3 (acceptsThen k .reject) 26 22 (.ok answerZ);
      (s.configOk ∧ s.admitted = true ∧ s.channelsWritten ∧ s.tblOk) ∧ s.compDraws.head = .ok answerZ ∧
      answerZ.length ≤ s.compCapParam.toNat ∧ 17 ≤ s.accCapParam.toNat ∧ 4 + answerZ.length ≤ s.accCapParam.toNat ∧
      k < 57 + answerZ.length ∧ (∀ m < k, s.sinkDraws.answer m = .accept) ∧ s.sinkDraws.answer k = .reject :=
  fun k hk => ⟨premises_withEnv _ _ _ _, by revert k; decide +kernel⟩

/-- The three bad configurations, EV1 to EV3. -/
theorem witness_EncodeReportsConfigurationErrors :
    (released State.reset ∧ ¬ State.reset.configOk) ∧
    (released (image 0 0 8 3 0 [] [] [] []) ∧ ¬ (image 0 0 8 3 0 [] [] [] []).configOk) ∧
    (released (image 2 2 8 2 5 [] [] [] []) ∧ ¬ (image 2 2 8 2 5 [] [] [] []).configOk) := by
  refine ⟨⟨⟨rfl, rfl, rfl, rfl, rfl, rfl, rfl, rfl⟩, fun h => absurd h.1 (by decide)⟩,
    ⟨⟨rfl, rfl, rfl, rfl, rfl, rfl, rfl, rfl⟩, fun h => absurd h.2.1 (by decide)⟩,
    ⟨rfl, rfl, rfl, rfl, rfl, rfl, rfl, rfl⟩, fun h => absurd h.2.2 (by decide)⟩

/-- Both sides: admitted, and not, at WIDTH = 0. -/
theorem witness_EncodeRefusesDescriptorsNotAdmitted :
    readyS3.configOk ∧ (image 0 2 8 2 0 [] [] [] []).configOk ∧ ¬ 1 ≤ (image 0 2 8 2 0 [] [] [] []).width.toNat :=
  ⟨⟨.inl rfl, .inl rfl, by decide⟩, ⟨.inl rfl, .inl rfl, by decide⟩, by decide⟩

theorem witness_EncodeRunsTheFixedSequence :
    (readyS3.seqSlot = none ∧ readyS3.admitted = true) ∧ (State.reset.seqSlot = none ∧ ¬ State.reset.configOk) :=
  ⟨⟨rfl, by decide +kernel⟩, rfl, fun h => absurd h.1 (by decide)⟩

/-- An ENCODE that ends, with DONE and without. -/
theorem witness_EncodeOutputIsAPrefixOfTheStream :
    (readyS3.tblOk ∧ gives (exec .encode readyS3) (fun t => t.done) = true) ∧
    (State.reset.tblOk ∧ gives (exec .encode State.reset) (fun t => !t.done) = true) :=
  ⟨⟨nofun, by decide +kernel⟩, nofun, by decide +kernel⟩

/-- Each of the stops an ENCODE has. -/
theorem witness_EncodeReadsOnlyWhatItWrote :
    faultOf (exec .encode { readyS3 with cmode := 6 }) = some .unwrittenChannelCell ∧
    faultOf (exec .encode (withEnv imageS3 [] 26 22 .silent)) = some .compressorNeverAnswers ∧
    faultOf (exec .encode (withEnv imageS3 [.silent] 26 22 (.ok answerZ))) = some .sinkNeverAnswers ∧
    refusalOf (exec .encode { readyS3 with width := 0 }) = some .descriptorNotAdmitted ∧
    refusalOf (exec .encode (withEnv imageS3 [] 26 14 (.ok answerZ))) = some .compressorOverran := by decide +kernel

/-- An ENCODE that succeeds whatever an earlier command left; one that fails before and one that fails after the first
CRC.BUF (the rejected writes EV8 and EV11), the former keeping CRC_ACC; and the two stops. -/
theorem witness_EncodeIgnoresWhatEarlierCommandsLeft :
    leftoversS3 = { readyS3 with
      crcAcc := leftoversS3.crcAcc, crcOut := leftoversS3.crcOut, done := leftoversS3.done, phase := leftoversS3.phase
      wstate := leftoversS3.wstate, raw := leftoversS3.raw, filt := leftoversS3.filt, comp := leftoversS3.comp
      accbuf := leftoversS3.accbuf, accIdx := leftoversS3.accIdx, accCap := leftoversS3.accCap
      compCap := leftoversS3.compCap, compLen := leftoversS3.compLen } ∧
    leftoversS3 ≠ readyS3 ∧ gives (exec .encode readyS3) (fun t => t.done) = true ∧
    gives (exec .encode { leftoversS3 with sinkDraws := ⟨acceptsThen 0 .reject, .accept⟩ }) (fun t =>
      !t.done && t.crcAcc == 7 && t.crcOut == 9) = true ∧
    gives (exec .encode { leftoversS3 with sinkDraws := ⟨acceptsThen 67 .reject, .accept⟩ }) (fun t =>
      !t.done && t.crcAcc == 0xA19D9A67 && t.crcOut == 0x5E626598) = true ∧
    faultOf (exec .encode { readyS3 with cmode := 6 }) = some .unwrittenChannelCell ∧
    refusalOf (exec .encode { readyS3 with width := 0 }) = some .descriptorNotAdmitted := by
  refine ⟨rfl, by decide +kernel, by decide +kernel, by decide +kernel, by decide +kernel, by decide +kernel, by decide +kernel⟩

/-- With a call, and without. -/
theorem witness_EncodeCallsTheCompressorAtMostOnce :
    gives (exec .encode readyS3) (fun t => t.compCalls == [⟨rawS3, 22, 0⟩]) = true ∧
    gives (exec .encode State.reset) (fun t => t.compCalls == []) = true := by decide +kernel

/-- Every operation answers a next state at `insideS3`. -/
theorem witness_OperationsLeaveTheInputsAlone :
    ∀ i ∈ [Instr.encode, .cfgChk, .crcTbl, .crcInit, .crcUpd 255, .crcFin, .crcBuf, .slbBuild, .fltNone, .fltSub, .fltUp,
      .fltAvg, .fltPaeth, .cmpCall, .accSize, .wrSig, .wrIhdr, .wrIdat, .wrIend],
      gives (exec i insideS3) (fun _ => true) = true := by decide +kernel

/-- Each clause: TBL_VALID set, an error raised by another operation, each end of ENCODE, the registers changed. -/
theorem witness_FlagsAndPhaseHaveTheirWriters :
    gives (exec .wrIdat insideS3) (fun t => t.tblValid && t.crcAcc != insideS3.crcAcc && t.crcOut != insideS3.crcOut) = true ∧
    gives (exec .wrSig (insideWith [.reject])) (fun t => t.phase == .failed && t.err) = true ∧
    gives (exec .encode readyS3) (fun t => t.phase == .done) = true ∧
    gives (exec .encode State.reset) (fun t => t.phase == .failed) = true ∧
    gives (exec (.crcUpd 0) State.reset) (fun t => t.tblValid != State.reset.tblValid) = true := by decide +kernel

/-- An operation that is not their writer releases the spaces together, by error entry; another keeps them. -/
theorem witness_EachSpaceHasOneWriter :
    gives (exec .wrSig (insideWith [.reject])) (fun t =>
      t.raw == [] && t.comp == [] && t.accCap == none && t.phase == .failed && t.err) = true ∧
    gives (exec .crcInit insideS3) (fun t => t.filt == insideS3.filt && t.sink == insideS3.sink) = true := by decide +kernel

theorem witness_SinkOnlyGrows :
    gives (step { readyS3 with bus := [.write 0 4 1] }) (fun t => t.sink.length == 79) = true := by decide +kernel

/-- A state inside an ENCODE, two bytes mirrored, after a failed earlier command was cleared; the host's CRC.INIT comes. -/
def midInvariant : State :=
  { insideS3 with
    accbuf := bytesAt [0x49, 0x44], accIdx := some 2, err := true, errReg := 0x00004205, bus := [.write 0x00 4 0x11] }

theorem witness_EveryStepKeepsTheInvariant :
    Inv midInvariant ∧ gives (step midInvariant) (fun t => !t.err) = true := by
  refine ⟨⟨fun _ => rfl, ⟨nofun, fun _ => ⟨.notHostIssuable, .idle, .start, by decide +kernel, fun _ => ⟨rfl, rfl⟩⟩⟩,
    ⟨by decide +kernel, by decide +kernel, by decide +kernel, by decide +kernel, by decide +kernel⟩, ⟨?_, ?_⟩, ?_, ?_⟩,
    by decide +kernel⟩
  · rintro i c ⟨⟩ ⟨⟩; decide
  · rintro i ⟨⟩; decide +kernel
  · rintro n c ⟨⟩ ⟨⟩; decide
  · rintro n ⟨⟩; decide +kernel

/-- After a successful ENCODE and after a failed one; the host starts another. -/
theorem witness_TheHostNeverSeesTheMiddle :
    (let s := { readyS3 with done := true, phase := .done, wstate := .trailerWritten, bus := [.write 0x00 4 0x01] };
      BetweenCommands s ∧ gives (step s) (fun t => t.done) = true) ∧
    (let s := { readyS3 with err := true, errReg := 0x111, phase := .failed, bus := [.write 0x1C 4 5] };
      BetweenCommands s ∧ gives (step s) (fun t => t.fkind == 5) = true) := by
  refine ⟨⟨⟨rfl, by decide, by decide +kernel, by decide +kernel, nofun, rfl, rfl, rfl, rfl, rfl, rfl, rfl, rfl⟩, by decide +kernel⟩,
    ⟨rfl, by decide, by decide +kernel, by decide +kernel, nofun, rfl, rfl, rfl, rfl, rfl, rfl, rfl, rfl⟩, by decide +kernel⟩

end Sys2Proof.Tests
end

section
/-! The statements of scope: one step runs the decoded operation, the capacities' lower bounds, the reversible filters, the
admission test of ENCODE. -/

namespace Sys2Proof.Machine

/-! ## One step -/

/-- A word at the sequencer's port that names an operation runs it. -/
theorem step_of_port {s : State} {w : Word} {i : Instr} (hw : s.seqSlot = some w) (hd : decode w = .ok i) :
    step s = exec i { s with seqSlot := none } := by
  simp only [step, hw, sequencerIssue, hd]

theorem step_of_port_reserved {s : State} {w : Word} (hw : s.seqSlot = some w) (hd : ∀ i, decode w ≠ .ok i) :
    step s = .refused .notASequencerWord := by
  rw [step, hw]
  match h : decode w with
  | .ok i => exact absurd h (hd i)
  | .error _ => simp only [sequencerIssue, h]

/-- With the port empty a CMD write is the next step. -/
theorem step_of_cmd {s : State} {w : Word} {rest : List HostAction} (hs : s.seqSlot = none)
    (hb : s.bus = .write 0x00 4 w :: rest) : step s = cmdWrite w { s with bus := rest } := by
  rw [step, hs, hb]
  rfl

theorem step_of_nothing {s : State} (hs : s.seqSlot = none) (hb : s.bus = []) : step s = .next s := by
  rw [step, hs, hb]

/-- A CMD write of a word that names a host-issuable operation runs it with the error cleared (10 R24). -/
theorem cmdWrite_of_hostIssuable {w : Word} {i : Instr} (hd : decode w = .ok i) (hi : i.hostIssuable = true)
    (s : State) : cmdWrite w s = exec i (clearError s) := by
  simp only [cmdWrite, hd, hi, if_true]

/-- A placed word that names an operation is what the next step runs: through CMD where the host may issue it, else through
the port. -/
theorem step_placeWord {w : Word} {i : Instr} (hd : decode w = .ok i) (s : State) :
    step (placeWord w s) =
      if i.hostIssuable then exec i (clearError { s with seqSlot := none }) else exec i { s with seqSlot := none } := by
  simp only [placeWord, hd]
  split
  case isTrue hi => rw [step_of_cmd rfl rfl, cmdWrite_of_hostIssuable hd hi]
  case isFalse => exact step_of_port rfl hd

theorem decode_of_decodeTableWord {n w : Nat} {i : Instr} (h : decodeTableWord n w = some i) :
    decode (BitVec.ofNat 32 (w % 2 ^ n)) = .ok i := by
  simp only [decodeTableWord] at h
  split at h
  · split at h
    · rename_i hd
      rw [hd, Option.some.inj h]
    · cases h
  · cases h

/-- Settles O4, clause by clause from the two ways a step starts an operation. -/
theorem stepRunsTheDecodedOperation : Obligations.StepRunsTheDecodedOperation := by
  refine ⟨fun s w i => step_of_port, fun s w i rest hs hb hd hi => ?_, fun s w i hw => ?_,
    fun s w => step_of_port_reserved, fun s => step_of_nothing⟩
  · rw [step_of_cmd hs hb, cmdWrite_of_hostIssuable hd hi]
    rfl
  · exact step_placeWord (decode_of_decodeTableWord hw) s

/-! ## The capacities -/

/-- On an admitted descriptor a capacity is at least its bound, where the bound fits a word. -/
theorem le_capAtLeast {s : State} (ha : s.admitted = true) {bound : Nat} (hb : bound < 2 ^ 32) (v : Word) :
    bound ≤ (capAtLeast s bound v).toNat := by
  rw [capAtLeast, ha, Bool.true_and]
  split
  case isTrue => rw [BitVec.toNat_ofNat, Nat.mod_eq_of_lt hb]
  case isFalse h => simpa using h

/-- The admission test of R253 as a proposition. -/
theorem admitted_iff (s : State) :
    s.admitted = true ↔ 1 ≤ s.width.toNat ∧ 1 ≤ s.height.toNat ∧ s.frameSize + 5 < 2 ^ 32 := by
  simp only [State.admitted, Bool.and_eq_true, decide_eq_true_eq]

/-- Settles O30: admission bounds F + 5 below 2^32, so neither bound wraps. -/
theorem capacitiesMeetTheirBounds : Obligations.CapacitiesMeetTheirBounds := by
  intro s ha
  obtain ⟨_, _, hF⟩ := (admitted_iff s).1 ha
  exact ⟨le_capAtLeast ha hF _, le_capAtLeast ha (by omega) _⟩

/-! ## The filters are reversible -/

/-- The five filter operations are `Filter(kind)`. -/
theorem exec_filter {i : Instr} (hi : i ∈ [Instr.fltNone, .fltSub, .fltUp, .fltAvg, .fltPaeth]) :
    ∃ kind, ∀ s, exec i s = outcome (opFilter kind s) := by
  simp only [List.mem_cons, List.not_mem_nil, or_false] at hi
  rcases hi with rfl | rfl | rfl | rfl | rfl
  · exact ⟨.none, fun _ => rfl⟩
  · exact ⟨.sub, fun _ => rfl⟩
  · exact ⟨.up, fun _ => rfl⟩
  · exact ⟨.average, fun _ => rfl⟩
  · exact ⟨.paeth, fun _ => rfl⟩

/-- A filter operation that ends has read a whole frame of RAW and left its filtered bytes in FILT. -/
theorem exists_rawHolds_of_opFilter {kind : FilterKind} {s t : State} (h : outcome (opFilter kind s) = .next t) :
    ∃ raw, s.rawHolds raw ∧ ∀ r j, r < s.height.toNat → j < s.stride →
      t.filt.read (s.rowIndex r j) = some (filterAt kind s raw r j) := by
  by_cases hn : ∃ a < s.frameSize, s.raw.read a = none
  · rw [opFilter_unwritten kind hn, outcome_fault] at h
    cases h
  · have hraw := rawHolds_of_isSome fun a ha => Option.isSome_iff_ne_none.2 fun h0 => hn ⟨a, ha, h0⟩
    obtain ⟨m, hm, hread, _, _⟩ := opFilter_ok kind hraw
    rw [hm, outcome_ok] at h
    cases h
    exact ⟨_, hraw, hread⟩

/-- R165: the frame is recovered byte by byte, rows and positions in order: the neighbours a filtered byte was taken against
are bytes recovered before it. -/
theorem eq_of_filterAt_eq {kind : FilterKind} {s : State} {raw raw' : Nat → Nat → Byte}
    (h : ∀ r j, r < s.height.toNat → j < s.stride → filterAt kind s raw r j = filterAt kind s raw' r j)
    (r j : Nat) (hr : r < s.height.toNat) (hj : j < s.stride) : raw r j = raw' r j := by
  induction r using Nat.strong_induction_on generalizing j with
  | _ r ihr =>
  induction j using Nat.strong_induction_on with
  | _ j ihj =>
  have hf := h r j hr hj
  by_cases h0 : j = 0
  · subst h0
    simpa [filterAt] using hf
  · have hp : 0 < s.pstride := Nat.pos_of_ne_zero fun hp => by
      rw [State.stride, hp] at hj
      omega
    have hleft : (if s.pstride < j then raw r (j - s.pstride) else 0) =
        if s.pstride < j then raw' r (j - s.pstride) else 0 :=
      if_ctx_congr Iff.rfl (fun _ => ihj _ (by omega) (by omega)) fun _ => rfl
    have hup : (if 1 ≤ r then raw (r - 1) j else 0) = if 1 ≤ r then raw' (r - 1) j else 0 :=
      if_ctx_congr Iff.rfl (fun _ => ihr _ (by omega) j (by omega) hj) fun _ => rfl
    have hupLeft : (if 1 ≤ r ∧ s.pstride < j then raw (r - 1) (j - s.pstride) else 0) =
        if 1 ≤ r ∧ s.pstride < j then raw' (r - 1) (j - s.pstride) else 0 :=
      if_ctx_congr Iff.rfl (fun _ => ihr _ (by omega) _ (by omega) (by omega)) fun _ => rfl
    rw [filterAt, filterAt, if_neg h0, if_neg h0, hleft, hup, hupLeft] at hf
    exact sub_left_injective hf

/-- Settles O27: both runs read a whole frame, and equal filtered bytes come from equal raw bytes. -/
theorem filtersAreReversible : Obligations.FiltersAreReversible := by
  intro i s t t' raw' hi ht ht' heq a ha
  obtain ⟨kind, hk⟩ := exec_filter hi
  rw [hk] at ht ht'
  obtain ⟨f, hf, hread⟩ := exists_rawHolds_of_opFilter ht
  obtain ⟨f', hf', hread'⟩ := exists_rawHolds_of_opFilter ht'
  have hfilt : ∀ r j, r < s.height.toNat → j < s.stride → filterAt kind s f r j = filterAt kind s f' r j :=
    fun r j hr hj => Option.some.inj <|
      (hread r j hr hj).symm.trans ((heq _ (State.rowIndex_lt hr hj)).trans (hread' r j hr hj))
  obtain ⟨r, j, hr, hj, rfl⟩ := State.exists_rowIndex ha
  calc s.raw.read (s.rowIndex r j)
      = some (f r j) := hf r j hr hj
    _ = some (f' r j) := congrArg some (eq_of_filterAt_eq hfilt r j hr hj)
    _ = raw'.read (s.rowIndex r j) := (hf' r j hr hj).symm

/-! ## The admission test of ENCODE -/

/-- F for a legal descriptor, written out (R9). -/
theorem frameSize_of_configOk {s : State} (h : s.configOk) :
    s.frameSize = s.height.toNat * (s.width.toNat *
      ((if s.cmode = 2 then 3 else 4) * (if s.depth = 8 then 1 else 2)) + 1) := by
  obtain ⟨hd, hc, _⟩ := h
  have hnch : s.nch = if s.cmode = 2 then 3 else 4 := by
    rcases hc with hc | hc <;> simp [State.nch, hc, Config.cmodeRgb, Config.cmodeRgba]
  have hbps : s.bps = if s.depth = 8 then 1 else 2 := by
    rcases hd with hd | hd <;> simp [State.bps, hd]
  rw [State.frameSize, State.stride, State.pstride, hnch, hbps, Nat.mul_comm]

/-- An ENCODE on an admitted descriptor is not refused for its descriptor. -/
theorem opEncode_ne_notAdmitted {s : State} (h : s.configOk) (ha : s.admitted = true) :
    opEncode s ≠ .error (.refused .descriptorNotAdmitted) := by
  intro he
  rcases opEncode_cases s with ⟨hc, _⟩ | ⟨_, hn, _⟩ | ⟨_, _, _, hu⟩ |
    ⟨_, _, _, kind, _, raw, filt, ⟨f, _, hf⟩ | ⟨_, hs⟩ | ⟨z, _, _, ho⟩ | ⟨z, _, hz, hw⟩⟩
  · exact hc h
  · exact hn ha
  · cases hu.symm.trans he
  · cases hf.symm.trans he
  · cases hs.symm.trans he
  · cases ho.symm.trans he
  · rcases bind_eq_error (hw.symm.trans he) with hstop | ⟨_, _, hfin⟩
    · rcases encodeWrite_stop (atWrite_compHolds hz) hstop with ⟨_, hr⟩ | hr <;> cases hr
    · cases hfin

theorem outcome_eq_refused {r : Res State} {f : Refusal} : outcome r = .refused f ↔ r = .error (.refused f) := by
  match r with
  | .ok _ => exact ⟨nofun, nofun⟩
  | .error (.raised _) => exact ⟨nofun, nofun⟩
  | .error (.fault _) => exact ⟨nofun, nofun⟩
  | .error (.refused _) => exact ⟨fun h => by cases h; rfl, fun h => by cases h; rfl⟩

theorem exec_encode (s : State) : exec .encode s = outcome (opEncode s) := rfl

/-- Past CFG.CHK an ENCODE is refused for its descriptor exactly where the admission test fails. -/
theorem encode_refused_iff {s : State} (h : s.configOk) :
    exec .encode s = .refused .descriptorNotAdmitted ↔ ¬ s.admitted = true := by
  rw [exec_encode, outcome_eq_refused]
  exact ⟨fun he ha => opEncode_ne_notAdmitted h ha he, opEncode_not_admitted h⟩

/-- Settles O45: the refusal is the failed admission test, and the test is the formula of R253. -/
theorem encodeRefusesDescriptorsNotAdmitted : Obligations.EncodeRefusesDescriptorsNotAdmitted := by
  intro s h
  rw [encode_refused_iff h, admitted_iff, frameSize_of_configOk h]

end Sys2Proof.Machine
end

section
/-! The statements of the state: what every step and every operation can do, said once, and from it the invariants, the
writers of each flag and space, and the frame of the host's inputs; the host registers and reset; where the filters and the
writer stop; and what an ENCODE reads and keeps. -/

namespace Sys2Proof.Machine

/-! ## What an operation can do -/

/-- The writer's operations that send a chunk, and the writer state each moves to (44 R226). -/
def chunkWriters : List (Instr × WState) :=
  [(.wrIhdr, .headerWritten), (.wrIdat, .dataWritten), (.wrIend, .trailerWritten)]

/-- What WR.SIG can change before its writer state: the sink, which only grows, its record and its draws. -/
structure SinkFrame (s t : State) : Prop where
  frame : t = { s with sink := t.sink, offered := t.offered, sinkDraws := t.sinkDraws }
  sink : s.sink <+: t.sink
  offered : s.offered <+: t.offered

theorem SinkFrame.refl (s : State) : SinkFrame s s := ⟨rfl, List.prefix_rfl, List.prefix_rfl⟩

theorem SinkFrame.trans {s t u : State} (h : SinkFrame s t) (h' : SinkFrame t u) : SinkFrame s u :=
  ⟨by rw [h'.frame, h.frame], h.sink.trans h'.sink, h.offered.trans h'.offered⟩

theorem SinkFrame.writerFrame {s t : State} (h : SinkFrame s t) : WriterFrame s t := by
  refine ⟨by rw [h.frame], h.sink, h.offered, ?_, ?_, ?_, ?_, ?_⟩ <;> rw [h.frame] <;> exact id

/-- The state in which an operation other than ENCODE ends, no error raised. -/
inductive Ended (s : State) : Instr → State → Prop
  | cfgChk : Ended s .cfgChk s
  | crcTbl : Ended s .crcTbl (buildTable s)
  | crcInit : Ended s .crcInit { ensureTable s with crcAcc := Config.crcOnes }
  | crcUpd (b : Byte) :
    Ended s (.crcUpd b) { ensureTable s with crcAcc := crcStepWith (ensureTable s).tbl s.crcAcc b }
  | crcFin : Ended s .crcFin { s with crcOut := s.crcAcc ^^^ Config.crcOnes }
  | crcBuf (bytes : List Byte) : Ended s .crcBuf (checksum bytes (ensureTable s))
  | slbBuild (raw : Memory 8) (hwf : s.raw.wf = true → raw.wf = true) : Ended s .slbBuild { s with raw := raw }
  | filter (i : Instr) (hi : i ∈ [Instr.fltNone, .fltSub, .fltUp, .fltAvg, .fltPaeth]) (filt : Memory 8)
    (hwf : s.filt.wf = true → filt.wf = true) : Ended s i { s with filt := filt }
  | cmpCall (input z : List Byte) (hf : OpFrame s { compressorCalled input s with
      comp := s.comp.writeSeq 0 z, compLen := some (BitVec.ofNat 32 z.length) }) :
    Ended s .cmpCall { compressorCalled input s with
      comp := s.comp.writeSeq 0 z, compLen := some (BitVec.ofNat 32 z.length) }
  | accSize : Ended s .accSize { s with accCap := some s.accCapParam, accIdx := some 0 }
  | wrSig (u : State) (hu : SinkFrame s u) :
    Ended s .wrSig { u with wstate := .signatureWritten }
  | wrChunk (i : Instr) (w : WState) (hi : (i, w) ∈ chunkWriters) (u : State) (hu : WriterFrame s u) :
    Ended s i { u with wstate := w }

/-- The state in which an operation other than ENCODE raises an error, before the error entry. -/
inductive Raised (s : State) : Instr → Cause → State → Prop
  | cfgChk (c : Cause) (hc : c.kind = .configuration) : Raised s .cfgChk c s
  | cmpCall (f : CompFailure) (input : List Byte)
    (hf : OpFrame s (errorEntry f.cause (compressorCalled input s))) :
    Raised s .cmpCall f.cause (compressorCalled input s)
  | wrSig (u : State) (hu : SinkFrame s u) : Raised s .wrSig .sinkRejected u
  | wrChunk (i : Instr) (w : WState) (hi : (i, w) ∈ chunkWriters) (c : Cause)
    (hc : c = .sinkRejected ∨ c = .accumulatorOverflow) (u : State) (hu : WriterFrame s u) : Raised s i c u

/-- The next state of an operation other than ENCODE: its end, or the error entry. -/
def Answers (s : State) (i : Instr) (t : State) : Prop :=
  Ended s i t ∨ ∃ c u, Raised s i c u ∧ t = errorEntry c u

theorem sinkWrite_sinkFrame (b : Byte) (s : State) :
    Meets (sinkWrite b s) (SinkFrame s) fun t => ∃ u, SinkFrame s u ∧ t = errorEntry .sinkRejected u := by
  unfold sinkWrite
  dsimp only
  split
  · exact ⟨rfl, List.prefix_append _ _, List.prefix_append _ _⟩
  · exact ⟨{ s with sinkDraws := s.sinkDraws.rest, offered := s.offered ++ [b] },
      ⟨rfl, List.prefix_rfl, List.prefix_append _ _⟩, rfl⟩
  · trivial

theorem putRawSeq_sinkFrame (bs : List Byte) (s : State) :
    Meets (putRawSeq bs s) (SinkFrame s) fun t => ∃ u, SinkFrame s u ∧ t = errorEntry .sinkRejected u := by
  induction bs generalizing s with
  | nil => exact .refl s
  | cons b bs ih =>
    exact Meets.bind (sinkWrite_sinkFrame b s) fun t ht =>
      (ih t).mono (fun _ => ht.trans) fun _ ⟨u, hu, h⟩ => ⟨u, ht.trans hu, h⟩

theorem opWrSig_answers {s t : State} (h : exec .wrSig s = .next t) : Answers s .wrSig t := by
  have hop : Meets (opWrSig s) (fun t => ∃ u, SinkFrame s u ∧ t = { u with wstate := .signatureWritten })
      fun t => ∃ u, SinkFrame s u ∧ t = errorEntry .sinkRejected u :=
    Meets.bind (putRawSeq_sinkFrame _ s) fun u hu => ⟨u, hu, rfl⟩
  rcases hop.of_next h with ⟨u, hu, rfl⟩ | ⟨u, hu, rfl⟩
  · exact .inl (.wrSig u hu)
  · exact .inr ⟨_, u, .wrSig u hu, rfl⟩

/-- A chunk operation ends in its writer state or raises an error of the writer. -/
theorem WriterOp.answers {s t : State} {i : Instr} {w : WState} {r : Res State} (hr : WriterOp w s r)
    (hi : (i, w) ∈ chunkWriters) (h : outcome r = .next t) : Answers s i t := by
  rcases Meets.of_next hr h with ⟨u, hu, rfl⟩ | ⟨u, c, hu, rfl, hc⟩
  · exact .inl (.wrChunk i w hi u hu)
  · exact .inr ⟨c, u, .wrChunk i w hi c hc u hu, rfl⟩

theorem opFilter_answers {s t : State} {i : Instr} (hi : i ∈ [Instr.fltNone, .fltSub, .fltUp, .fltAvg, .fltPaeth])
    (h : exec i s = .next t) : Answers s i t := by
  obtain ⟨kind, hk⟩ := exec_filter hi
  rw [hk] at h
  rcases (opFilter_frame kind s).of_next h with ⟨ht, hwf⟩ | hf
  · rw [ht]; exact .inl (.filter i hi t.filt hwf)
  · exact hf.elim

/-- Everything an operation other than ENCODE can do when it answers a next state. -/
theorem exec_answers {i : Instr} {s t : State} (hi : i ≠ .encode) (h : exec i s = .next t) : Answers s i t := by
  cases i with
  | encode => exact absurd rfl hi
  | cfgChk =>
    rcases (opCfgChk_frame s).of_next h with rfl | ⟨c, hc, rfl⟩
    · exact .inl .cfgChk
    · exact .inr ⟨c, s, .cfgChk c hc, rfl⟩
  | crcTbl => cases h; exact .inl .crcTbl
  | crcInit => cases h; exact .inl .crcInit
  | crcUpd b => cases h; exact .inl (.crcUpd b)
  | crcFin => cases h; exact .inl .crcFin
  | crcBuf =>
    match hr : opCrcBuf s with
    | .ok u =>
      obtain ⟨_, bytes, _, _, _, hu⟩ := opCrcBuf_eq_ok hr
      rw [exec, execCrcBuf, hr, outcome_ok] at h
      cases h
      rw [hu]
      exact .inl (.crcBuf bytes)
    | .error e =>
      rw [exec, execCrcBuf, hr] at h
      rcases opCrcBuf_eq_error hr with ⟨rfl, _⟩ | ⟨rfl, _⟩ <;> cases h
  | slbBuild =>
    rcases (opSlbBuild_frame s).of_next h with ⟨ht, hwf⟩ | hf
    · rw [ht]; exact .inl (.slbBuild t.raw hwf)
    · exact hf.elim
  | fltNone => exact opFilter_answers (by simp) h
  | fltSub => exact opFilter_answers (by simp) h
  | fltUp => exact opFilter_answers (by simp) h
  | fltAvg => exact opFilter_answers (by simp) h
  | fltPaeth => exact opFilter_answers (by simp) h
  | cmpCall =>
    rcases (opCmpCall_frame s).of_next h with ⟨hf, input, _, z, _, _, rfl⟩ | ⟨hf, input, _, f, _, rfl⟩
    · exact .inl (.cmpCall input z hf)
    · exact .inr ⟨f.cause, _, .cmpCall f input hf, rfl⟩
  | accSize => cases h; exact .inl .accSize
  | wrSig => exact opWrSig_answers h
  | wrIhdr => exact (opWrIhdr_op s).answers (by simp [chunkWriters]) h
  | wrIdat => exact (opWrIdat_op s).answers (by simp [chunkWriters]) h
  | wrIend => exact (opWrIend_op s).answers (by simp [chunkWriters]) h

/-! ## What every operation keeps -/

/-- A change of CRC_ACC and CRC_OUT alone is within the frame. -/
theorem setCrc_frame (acc out : Word) (s : State) : OpFrame s { s with crcAcc := acc, crcOut := out } :=
  ⟨rfl, List.prefix_rfl, List.prefix_rfl, id, fun h => ⟨h.table, h.errors, h.memories, h.accumulator, h.compressed⟩⟩

theorem Ended.frame {s t : State} {i : Instr} (h : Ended s i t) : OpFrame s t := by
  cases h with
  | cfgChk => exact .refl s
  | crcTbl => exact buildTable_frame s
  | crcInit => exact (ensureTable_frame s).trans (setCrc_frame _ (ensureTable s).crcOut _)
  | crcUpd b => exact (ensureTable_frame s).trans (setCrc_frame _ (ensureTable s).crcOut _)
  | crcFin => exact setCrc_frame s.crcAcc _ s
  | crcBuf bytes => exact (checksum_frame bytes s).opFrame
  | slbBuild raw hwf => exact slb_frame ⟨rfl, hwf⟩
  | filter i hi filt hwf => exact filter_frame ⟨rfl, hwf⟩
  | cmpCall input z hf => exact hf
  | accSize => exact opAccSize_frame s
  | wrSig u hu => exact hu.writerFrame.opFrame.trans (setWState_frame _ u)
  | wrChunk i w hi u hu => exact hu.opFrame.trans (setWState_frame w u)

theorem Raised.frame {s u : State} {i : Instr} {c : Cause} (h : Raised s i c u) : OpFrame s (errorEntry c u) := by
  cases h with
  | cfgChk c hc => exact errorEntry_frame c s (by rw [hc]; decide)
  | cmpCall f input hf => exact hf
  | wrSig u hu => exact hu.writerFrame.opFrame.trans (errorEntry_frame _ u (by decide))
  | wrChunk i w hi c hc u hu =>
    exact hu.opFrame.trans (errorEntry_frame c u (by rcases hc with rfl | rfl <;> decide))

/-- Every operation, however it ends, keeps within the frame of an operation. -/
theorem exec_frame {i : Instr} {s t : State} (h : exec i s = .next t) : OpFrame s t := by
  by_cases hi : i = .encode
  · subst hi
    rcases (opEncode_run s).of_next h with ⟨hf, _⟩ | hf
    · exact hf
    · exact hf.frame
  · rcases exec_answers hi h with he | ⟨c, u, hr, rfl⟩
    · exact he.frame
    · exact hr.frame

/-! ## What a step can do -/

/-- What a step can do: an operation started at the port or by a CMD write, a CommandError, another action of the host, or
waiting. -/
inductive Stepped (s t : State) : Prop
  | issued (i : Instr) (hp : s.seqSlot ≠ none) (h : exec i { s with seqSlot := none } = .next t)
  | commanded (i : Instr) (rest : List HostAction) (hi : i.hostIssuable = true)
    (h : exec i (clearError { s with bus := rest }) = .next t)
  | commandError (c : Cause) (rest : List HostAction) (h : t = Machine.commandError c (clearError { s with bus := rest }))
  | wrote (off : Nat) (v : Word) (rest : List HostAction) (h : t = writeReg off v { s with bus := rest })
  | read (v : Word) (rest : List HostAction) (h : t = { s with bus := rest, hostRead := v })
  | stored (k : Fin 4) (i : Nat) (v : Sample) (rest : List HostAction)
    (h : t = { s with bus := rest, ch := s.ch.set k ((s.ch[k]).write i v) })
  | waited (h : t = s)

/-- With the port empty the host's next action is the step. -/
theorem step_of_action {s : State} {a : HostAction} {rest : List HostAction} (hs : s.seqSlot = none)
    (hb : s.bus = a :: rest) : step s = hostAction a { s with bus := rest } := by
  rw [step, hs, hb]

theorem cmdWrite_stepped {s t : State} {w : Word} {rest : List HostAction}
    (h : cmdWrite w { s with bus := rest } = .next t) : Stepped s t := by
  unfold cmdWrite at h
  split at h
  · rename_i i _
    split at h
    · rename_i hi; exact .commanded i rest hi h
    · cases h; exact .commandError .notHostIssuable rest rfl
  · cases h; exact .commandError .reservedCommand rest rfl

theorem hostAction_stepped {s t : State} {a : HostAction} {rest : List HostAction}
    (h : hostAction a { s with bus := rest } = .next t) : Stepped s t := by
  cases a with
  | write off bytes v =>
    simp only [hostAction, regWrite] at h
    split at h
    · split at h
      · exact cmdWrite_stepped h
      · cases h; exact .wrote off v rest rfl
    · cases h
  | read off bytes =>
    simp only [hostAction] at h
    split at h
    · cases h; exact .read _ rest rfl
    · cases h
  | storeCell k i v => cases h; exact .stored k i.toNat v rest rfl
  | loadCell k i =>
    simp only [hostAction, chanLoad] at h
    split at h
    · cases h; exact .read _ rest rfl
    · cases h

/-- Everything a step can do when it answers a next state. -/
theorem step_stepped {s t : State} (h : step s = .next t) : Stepped s t := by
  match hs : s.seqSlot, hb : s.bus with
  | some w, _ =>
    rw [step, hs] at h
    simp only [sequencerIssue] at h
    split at h
    · rename_i i _; exact .issued i (by simp [hs]) h
    · cases h
  | none, [] =>
    rw [step_of_nothing hs hb] at h
    cases h
    exact .waited rfl
  | none, a :: rest =>
    rw [step_of_action hs hb] at h
    exact hostAction_stepped h

/-! ## Every step keeps the invariant -/

theorem inv_clearError {s : State} (h : Inv s) : Inv (clearError s) :=
  ⟨h.table, ⟨fun _ => rfl, nofun⟩, h.memories, h.accumulator, h.compressed⟩

theorem inv_commandError {s : State} (h : Inv s) (c : Cause) : Inv (commandError c s) :=
  ⟨h.table, ⟨nofun, fun _ => ⟨c, .idle, .start, rfl, fun _ => ⟨rfl, rfl⟩⟩⟩, h.memories, h.accumulator, h.compressed⟩

/-- The invariant speaks of no host register, no queue and no value read. -/
theorem inv_setHost {s : State} (h : Inv s) (bus : List HostAction) (slot : Option Word) (v : Word) :
    Inv { s with bus := bus, seqSlot := slot, hostRead := v } :=
  ⟨h.table, h.errors, h.memories, h.accumulator, h.compressed⟩

theorem inv_writeReg {s : State} (h : Inv s) (off : Nat) (v : Word) : Inv (writeReg off v s) := by
  unfold writeReg
  split <;> exact ⟨h.table, h.errors, h.memories, h.accumulator, h.compressed⟩

/-- The bank a store through the channel port reaches, and the others. -/
theorem getElem_set_fin (ch : Vector (Memory 16) 4) (k k' : Fin 4) (m : Memory 16) :
    (ch.set k m)[k'] = if k' = k then m else ch[k'] := by
  simp [Vector.getElem_set, Fin.ext_iff, eq_comm]

/-- Storing one cell keeps every bank in its canonical form. -/
theorem inv_storeCell {s : State} (h : Inv s) (k : Fin 4) (i : Nat) (v : Sample) :
    Inv { s with ch := s.ch.set k ((s.ch[k]).write i v) } := by
  refine ⟨h.table, h.errors, ⟨fun k' => ?_, h.memories.2⟩, h.accumulator, h.compressed⟩
  rw [getElem_set_fin]
  split
  · exact Memory.wf_write _ i v (h.memories.1 k)
  · exact h.memories.1 k'

/-- Settles O55: an operation keeps the invariant, as do the host's actions and the errors of a command. -/
theorem everyStepKeepsTheInvariant : Obligations.EveryStepKeepsTheInvariant := by
  intro s t hs h
  have hbus : ∀ rest, Inv { s with bus := rest } := fun rest => inv_setHost hs rest s.seqSlot s.hostRead
  cases step_stepped h with
  | issued i _ h => exact (exec_frame h).inv (inv_setHost hs s.bus none s.hostRead)
  | commanded i rest _ h => exact (exec_frame h).inv (inv_clearError (hbus rest))
  | commandError c rest h => exact h ▸ inv_commandError (inv_clearError (hbus rest)) c
  | wrote off v rest h => exact h ▸ inv_writeReg (hbus rest) off v
  | read v rest h => exact h ▸ inv_setHost hs rest s.seqSlot v
  | stored k i v rest h => exact h ▸ inv_storeCell (hbus rest) k i v
  | waited h => exact h ▸ hs

/-! ## SINK only grows -/

theorem writeReg_sink (off : Nat) (v : Word) (s : State) : (writeReg off v s).sink = s.sink := by
  unfold writeReg
  split <;> rfl

theorem writeReg_offered (off : Nat) (v : Word) (s : State) : (writeReg off v s).offered = s.offered := by
  unfold writeReg
  split <;> rfl

/-- Settles O54: an operation only appends, and no other step touches SINK. -/
theorem sinkOnlyGrows : Obligations.SinkOnlyGrows := by
  intro s t h
  cases step_stepped h with
  | issued i _ h => exact ⟨(exec_frame h).sink, (exec_frame h).offered⟩
  | commanded i rest _ h => exact ⟨(exec_frame h).sink, (exec_frame h).offered⟩
  | commandError c rest h => subst h; exact ⟨List.prefix_rfl, List.prefix_rfl⟩
  | wrote off v rest h => subst h; rw [writeReg_sink, writeReg_offered]; exact ⟨List.prefix_rfl, List.prefix_rfl⟩
  | read v rest h => subst h; exact ⟨List.prefix_rfl, List.prefix_rfl⟩
  | stored k i v rest h => subst h; exact ⟨List.prefix_rfl, List.prefix_rfl⟩
  | waited h => subst h; exact ⟨List.prefix_rfl, List.prefix_rfl⟩

/-! ## Between the host's commands -/

/-- A change that leaves the port, DONE, PHASE, WSTATE and the buffers alone is one between commands. -/
theorem betweenCommands_of_eq {s t : State} (h : BetweenCommands s) (ht : t = { t with
    seqSlot := s.seqSlot, done := s.done, phase := s.phase, wstate := s.wstate
    raw := s.raw, filt := s.filt, comp := s.comp, accbuf := s.accbuf
    accIdx := s.accIdx, accCap := s.accCap, compCap := s.compCap, compLen := s.compLen }) : BetweenCommands t := by
  rw [ht]
  exact ⟨h.hostDriven, h.phases, h.doneIsPhaseDone, h.doneIsTrailerWritten, h.idleIsStart, h.buffers⟩

theorem betweenCommands_ensureTable {s : State} (h : BetweenCommands s) : BetweenCommands (ensureTable s) := by
  unfold ensureTable
  split
  · exact h
  · exact betweenCommands_of_eq h rfl

/-- ENCODE ends in a state between commands: Done with everything its success sets, or Failed. -/
theorem betweenCommands_encode {s t : State} (hs : s.seqSlot = none) (h : exec .encode s = .next t) :
    BetweenCommands t := by
  have hslot : t.seqSlot = none := by rw [(exec_frame h).inputs]; exact hs
  rcases (opEncode_run s).of_next h with ⟨_, hd, _, _, hp, hw, hr⟩ | hf
  · exact ⟨hslot, .inr (.inl hp), by simp [hd, hp], by simp [hd, hw], by simp [hp], hr⟩
  · exact ⟨hslot, .inr (.inr hf.phase), by simp [hf.done, hf.phase], by simp [hf.done, hf.wstate], by simp [hf.phase],
      hf.released⟩

/-- A command the host may issue ends in a state between commands. -/
theorem betweenCommands_exec {s t : State} {i : Instr} (hs : BetweenCommands s) (hi : i.hostIssuable = true)
    (h : exec i s = .next t) : BetweenCommands t := by
  cases i with
  | encode => exact betweenCommands_encode hs.hostDriven h
  | crcTbl => cases h; exact betweenCommands_of_eq hs rfl
  | crcInit => cases h; exact betweenCommands_of_eq (betweenCommands_ensureTable hs) rfl
  | crcUpd b => cases h; exact betweenCommands_of_eq (betweenCommands_ensureTable hs) rfl
  | crcFin => cases h; exact betweenCommands_of_eq hs rfl
  | _ => cases hi

theorem betweenCommands_writeReg {s : State} (hs : BetweenCommands s) (off : Nat) (v : Word) :
    BetweenCommands (writeReg off v s) := by
  unfold writeReg
  split <;> exact betweenCommands_of_eq hs rfl

/-- Settles O57: the port stays empty, the host's commands end between commands, and no other action of the host touches
what it speaks of. -/
theorem theHostNeverSeesTheMiddle : Obligations.TheHostNeverSeesTheMiddle := by
  intro s t hs h
  have hbus : ∀ rest, BetweenCommands { s with bus := rest } := fun rest => betweenCommands_of_eq hs rfl
  cases step_stepped h with
  | issued i hp _ => exact absurd hs.hostDriven hp
  | commanded i rest hi h =>
    have hclear : BetweenCommands (clearError { s with bus := rest }) := betweenCommands_of_eq hs rfl
    exact betweenCommands_exec hclear hi h
  | commandError c rest h => exact h ▸ betweenCommands_of_eq hs rfl
  | wrote off v rest h => exact h ▸ betweenCommands_writeReg (hbus rest) off v
  | read v rest h => exact h ▸ betweenCommands_of_eq hs rfl
  | stored k i v rest h => exact h ▸ betweenCommands_of_eq hs rfl
  | waited h => exact h ▸ hs

/-! ## Which operations write what -/

/-- Settles O51: the frame of every operation leaves the inputs out. -/
theorem operationsLeaveTheInputsAlone : Obligations.OperationsLeaveTheInputsAlone := by
  intro i s t h
  rw [(exec_frame h).inputs]
  exact ⟨rfl, rfl, rfl, rfl, rfl, rfl, rfl, rfl, rfl, rfl, rfl, rfl⟩

theorem instr_of_chunkWriters {i : Instr} {w : WState} (h : (i, w) ∈ chunkWriters) :
    i ∈ [Instr.wrIhdr, .wrIdat, .wrIend] := by
  simp only [chunkWriters, List.mem_cons, Prod.mk.injEq, List.not_mem_nil, or_false] at h
  rcases h with ⟨rfl, _⟩ | ⟨rfl, _⟩ | ⟨rfl, _⟩ <;> simp

/-- The flags and PHASE where no error is raised. -/
theorem Ended.flags {s t : State} {i : Instr} (h : Ended s i t) :
    t.done = s.done ∧ t.phase = s.phase ∧ t.err = s.err ∧ t.errReg = s.errReg := by
  cases h with
  | wrSig u hu => rw [hu.frame]; exact ⟨rfl, rfl, rfl, rfl⟩
  | wrChunk i w hi u hu => rw [hu.frame]; exact ⟨rfl, rfl, rfl, rfl⟩
  | _ => simp [compressorCalled]

theorem Ended.wstate {s t : State} {i : Instr} (h : Ended s i t) :
    t.wstate = s.wstate ∨ (i, t.wstate) ∈ (.wrSig, .signatureWritten) :: chunkWriters := by
  cases h with
  | wrSig u hu => exact .inr (.head _)
  | wrChunk i w hi u hu => exact .inr (.tail _ hi)
  | _ => exact .inl (by simp [compressorCalled])

/-- What an error raised leaves of the flags and the writer state. -/
theorem Raised.flags {s u : State} {i : Instr} {c : Cause} (h : Raised s i c u) :
    u.done = s.done ∧ u.wstate = s.wstate := by
  cases h with
  | cfgChk c hc => exact ⟨rfl, rfl⟩
  | cmpCall f input hf => exact ⟨rfl, rfl⟩
  | wrSig u hu => rw [hu.frame]; exact ⟨rfl, rfl⟩
  | wrChunk i w hi c hc u hu => rw [hu.frame]; exact ⟨rfl, rfl⟩

/-- The operation `i` from `s` to `t` changes CRC_ACC, CRC_OUT, TBL and TBL_VALID only where it may (10 R33, R34, R45). -/
def CrcWriters (s : State) (i : Instr) (t : State) : Prop :=
  (t.crcAcc = s.crcAcc ∨ (∃ b, i = .crcUpd b) ∨ i ∈ [Instr.crcInit, .crcBuf, .wrIhdr, .wrIdat, .wrIend, .encode]) ∧
  (t.crcOut = s.crcOut ∨ i ∈ [Instr.crcFin, .crcBuf, .wrIhdr, .wrIdat, .wrIend, .encode]) ∧
  (t.tbl = s.tbl ∧ t.tblValid = s.tblValid ∨ (∃ b, i = .crcUpd b) ∨
    i ∈ [Instr.crcTbl, .crcInit, .crcBuf, .wrIhdr, .wrIdat, .wrIend, .encode])

theorem crcWriters_of_chunk {s t : State} {i : Instr} (h : i ∈ [Instr.wrIhdr, .wrIdat, .wrIend]) :
    CrcWriters s i t := by
  have hm := List.mem_append_left [Instr.encode] h
  exact ⟨.inr (.inr (.tail _ (.tail _ hm))), .inr (.tail _ (.tail _ hm)), .inr (.inr (.tail _ (.tail _ (.tail _ hm))))⟩

theorem Ended.crc {s t : State} {i : Instr} (h : Ended s i t) : CrcWriters s i t := by
  cases h with
  | wrSig u hu => rw [hu.frame]; exact ⟨.inl rfl, .inl rfl, .inl ⟨rfl, rfl⟩⟩
  | wrChunk i w hi u hu => exact crcWriters_of_chunk (instr_of_chunkWriters hi)
  | _ => simp [CrcWriters, compressorCalled]

theorem Raised.crc {s u : State} {i : Instr} {c : Cause} (h : Raised s i c u) :
    (u.crcAcc = s.crcAcc ∧ u.crcOut = s.crcOut ∧ u.tbl = s.tbl ∧ u.tblValid = s.tblValid) ∨
      i ∈ [Instr.wrIhdr, .wrIdat, .wrIend] := by
  cases h with
  | cfgChk c hc => exact .inl ⟨rfl, rfl, rfl, rfl⟩
  | cmpCall f input hf => exact .inl ⟨rfl, rfl, rfl, rfl⟩
  | wrSig u hu => rw [hu.frame]; exact .inl ⟨rfl, rfl, rfl, rfl⟩
  | wrChunk i w hi c hc u hu => exact .inr (instr_of_chunkWriters hi)

theorem exec_crc {s t : State} {i : Instr} (h : exec i s = .next t) : CrcWriters s i t := by
  by_cases hi : i = .encode
  · subst hi; simp [CrcWriters]
  rcases exec_answers hi h with he | ⟨c, u, hr, rfl⟩
  · exact he.crc
  · rcases hr.crc with ⟨ha, ho, ht, hv⟩ | hm
    · exact ⟨.inl ha, .inl ho, .inl ⟨ht, hv⟩⟩
    · exact crcWriters_of_chunk hm

/-- Settles O52: the flags and the writer state from the way an operation ends, the checksum registers from `exec_crc`. -/
theorem flagsAndPhaseHaveTheirWriters : Obligations.FlagsAndPhaseHaveTheirWriters := by
  intro i s t h
  obtain ⟨hacc, hout, htbl⟩ := exec_crc h
  refine ⟨(exec_frame h).valid, fun hi => ?_, fun hi => ?_, fun hi => ?_, hacc.resolve_left, hout.resolve_left,
    fun hne => htbl.resolve_left fun ⟨ht, hv⟩ => hne.elim (· ht) (· hv)⟩
  · rcases exec_answers hi h with he | ⟨c, u, hr, rfl⟩
    · exact ⟨he.flags.1, .inl he.flags.2⟩
    · exact ⟨hr.flags.1, .inr ⟨rfl, rfl⟩⟩
  · rcases exec_answers hi h with he | ⟨c, u, hr, rfl⟩
    · exact he.wstate
    · exact .inl hr.flags.2
  · subst hi
    rcases (opEncode_run s).of_next h with ⟨_, hd, he, _, hp, hw, _⟩ | hf
    · exact .inl ⟨hp, hd, hw, he⟩
    · exact .inr ⟨hf.phase, hf.done, hf.wstate, hf.err⟩

/-- Where no error is raised, each space is as it was but for its writer. -/
theorem Ended.spaces {s t : State} {i : Instr} (h : Ended s i t) :
    (i ≠ .slbBuild → t.raw = s.raw) ∧
    (i ∉ [Instr.fltNone, .fltSub, .fltUp, .fltAvg, .fltPaeth] → t.filt = s.filt) ∧
    (i ≠ .cmpCall → t.comp = s.comp ∧ t.compLen = s.compLen ∧ t.compCap = s.compCap) ∧
    (i ∉ [Instr.wrIhdr, .wrIdat, .wrIend] → t.accbuf = s.accbuf) ∧
    (i ∉ [Instr.accSize, .wrIhdr, .wrIdat, .wrIend] → t.accIdx = s.accIdx) ∧
    (i ≠ .accSize → t.accCap = s.accCap) ∧
    (i ∉ [Instr.wrSig, .wrIhdr, .wrIdat, .wrIend, .encode] → t.sink = s.sink ∧ t.offered = s.offered) ∧
    (i ∉ [Instr.cmpCall, .encode] → t.compCalls = s.compCalls) := by
  cases h with
  | filter i hi filt hwf =>
    exact ⟨fun _ => rfl, absurd hi, fun _ => ⟨rfl, rfl, rfl⟩, fun _ => rfl, fun _ => rfl, fun _ => rfl,
      fun _ => ⟨rfl, rfl⟩, fun _ => rfl⟩
  | wrSig u hu => rw [hu.frame]; simp
  | wrChunk i w hi u hu =>
    have hm := instr_of_chunkWriters hi
    rw [hu.frame]
    exact ⟨fun _ => rfl, fun _ => rfl, fun _ => ⟨rfl, rfl, rfl⟩, absurd hm, absurd (.tail _ hm), fun _ => rfl,
      absurd (.tail _ (List.mem_append_left [Instr.encode] hm)), fun _ => rfl⟩
  | _ => simp [compressorCalled]

/-- Which operations raise an error, and what it leaves of the sink and of the record of calls. -/
theorem Raised.spaces {s u : State} {i : Instr} {c : Cause} (h : Raised s i c u) :
    i ∈ [Instr.cfgChk, .cmpCall, .wrSig, .wrIhdr, .wrIdat, .wrIend] ∧
    (i ∉ [Instr.wrSig, .wrIhdr, .wrIdat, .wrIend, .encode] → u.sink = s.sink ∧ u.offered = s.offered) ∧
    (i ∉ [Instr.cmpCall, .encode] → u.compCalls = s.compCalls) := by
  cases h with
  | cfgChk c hc => simp
  | cmpCall f input hf => simp [compressorCalled]
  | wrSig u hu => rw [hu.frame]; simp
  | wrChunk i w hi c hc u hu =>
    have hm := instr_of_chunkWriters hi
    rw [hu.frame]
    exact ⟨.tail _ (.tail _ (.tail _ hm)), absurd (.tail _ (List.mem_append_left [Instr.encode] hm)), fun _ => rfl⟩

theorem released_of_encode {s t : State} (h : exec .encode s = .next t) : released t := by
  rcases (opEncode_run s).of_next h with ⟨_, _, _, _, _, _, hr⟩ | hf
  · exact hr
  · exact hf.released

/-- Settles O53: ENCODE and error entry release every space together; where no error is raised the writers are
`Ended.spaces`. -/
theorem eachSpaceHasOneWriter : Obligations.EachSpaceHasOneWriter := by
  intro i s t h
  dsimp only
  by_cases hi : i = .encode
  · subst hi
    have hr := released_of_encode h
    simp [hr]
  rcases exec_answers hi h with he | ⟨c, u, hr, rfl⟩
  · obtain ⟨hraw, hfilt, hcomp, hbuf, hidx, hcap, hsink, hcalls⟩ := he.spaces
    exact ⟨fun h => .inl (hraw h), fun h => .inl (hfilt h), fun h => .inl (hcomp h), fun h => .inl (hbuf h),
      fun h => .inl (hidx h), fun h => .inl (hcap h), hsink, hcalls⟩
  · obtain ⟨hm, hsink, hcalls⟩ := hr.spaces
    have hrel : released (errorEntry c u) ∧ (i = .encode ∨
        i ∈ [Instr.cfgChk, .cmpCall, .wrSig, .wrIhdr, .wrIdat, .wrIend] ∧
          (errorEntry c u).phase = .failed ∧ (errorEntry c u).err = true) :=
      ⟨released_release _, .inr ⟨hm, rfl, rfl⟩⟩
    exact ⟨fun _ => .inr hrel, fun _ => .inr hrel, fun _ => .inr hrel, fun _ => .inr hrel, fun _ => .inr hrel,
      fun _ => .inr hrel, hsink, hcalls⟩

/-! ## Where the filters and the writer stop -/

/-- Settles O26: `Filter(kind)` stops at the first unwritten cell of the frame, whatever the kind. -/
theorem filterFaultsOnAnUnwrittenByte : Obligations.FilterFaultsOnAnUnwrittenByte := by
  intro i s hi h
  obtain ⟨kind, hk⟩ := exec_filter hi
  rw [hk, opFilter_unwritten kind h, outcome_fault]

theorem opWrIdat_no_length {s : State} (h : s.compLen = none) :
    opWrIdat s = .error (.fault .releasedRegister) := by
  rw [opWrIdat, h, readReg_none, bind_error]

theorem opWrIdat_unwritten {s : State} {n : Word} (hn : s.compLen = some n)
    (h : ∃ a < n.toNat, s.comp.read a = none) : opWrIdat s = .error (.fault .unwrittenBufferCell) := by
  rw [opWrIdat, hn, readReg_some, bind_ok, readCells_of_none (by simpa using h), bind_error]

/-- A chunk operation whose `WriteChunk` stops, stops. -/
theorem exec_of_writeChunk_fault {s : State} {i : Instr} {tag data : List Byte} {f : Fault}
    (hi : sendsChunk s i tag data) (h : writeChunk tag data s = .error (.fault f)) : exec i s = .fault f := by
  obtain ⟨⟨w, he⟩, _⟩ := exec_of_sendsChunk hi
  rw [he, h, bind_error, outcome_fault]

/-- Settles O40: each clause is the lemma of `WriteChunk`, of `PutRawSeq` or of the reads before them. -/
theorem writerStopsWithoutBuffersOrSink : Obligations.WriterStopsWithoutBuffersOrSink := by
  intro s
  refine ⟨fun h => ?_, fun n a hn ha hr => ?_, fun i tag data hi hc h => ?_, fun i bytes k hi hk h hr => ?_⟩
  · rw [exec, execWrIdat, opWrIdat_no_length h, outcome_fault]
  · rw [exec, execWrIdat, opWrIdat_unwritten hn ⟨a, ha, hr⟩, outcome_fault]
  · obtain ⟨b, tag, rfl⟩ := List.exists_cons_of_length_eq_add_one (exec_of_sendsChunk hi).2
    exact exec_of_writeChunk_fault hi (writeChunk_no_capacity hc h)
  · rcases hi with ⟨rfl, rfl⟩ | ⟨tag, data, cap, hi, rfl, hc, hroom⟩
    · rw [exec, execWrSig, opWrSig, putRawSeq_silent hk h hr, bind_error, outcome_fault]
    · have htag := (exec_of_sendsChunk hi).2
      exact exec_of_writeChunk_fault hi (writeChunk_silent hc (by rwa [htag]) hk h hr)

/-! ## ENCODE reads only what it wrote -/

theorem outcome_eq_fault {r : Res State} {f : Fault} : outcome r = .fault f ↔ r = .error (.fault f) := by
  match r with
  | .ok _ => exact ⟨nofun, nofun⟩
  | .error (.raised _) => exact ⟨nofun, nofun⟩
  | .error (.fault _) => exact ⟨fun h => by cases h; rfl, fun h => by cases h; rfl⟩
  | .error (.refused _) => exact ⟨nofun, nofun⟩

/-- Every stop of ENCODE: an error raised, an unwritten channel cell, a silent collaborator, or one of its refusals. -/
theorem opEncode_stop {s : State} {e : Stop} (h : opEncode s = .error e) :
    (∃ t, e = .raised t) ∨
    e ∈ [Stop.fault .unwrittenChannelCell, .fault .compressorNeverAnswers, .fault .sinkNeverAnswers,
      .refused .descriptorNotAdmitted, .refused .compressorOverran] := by
  rcases opEncode_cases s with ⟨_, hc⟩ | ⟨_, _, hn⟩ | ⟨_, _, _, hu⟩ |
    ⟨_, _, _, kind, _, raw, filt, ⟨f, _, hf⟩ | ⟨_, hs⟩ | ⟨z, _, _, ho⟩ | ⟨z, _, hz, hw⟩⟩
  · cases hc.symm.trans h; exact .inl ⟨_, rfl⟩
  · cases hn.symm.trans h; simp
  · cases hu.symm.trans h; simp
  · cases hf.symm.trans h; exact .inl ⟨_, rfl⟩
  · cases hs.symm.trans h; simp
  · cases ho.symm.trans h; simp
  · rcases bind_eq_error (hw.symm.trans h) with hstop | ⟨_, _, hfin⟩
    · rcases encodeWrite_stop (atWrite_compHolds hz) hstop with hr | rfl
      · exact .inl hr
      · simp
    · cases hfin

/-- Settles O48: a stop that is not an error raised is one of the list. -/
theorem encodeReadsOnlyWhatItWrote : Obligations.EncodeReadsOnlyWhatItWrote := by
  refine fun s => ⟨fun f h => ?_, fun r h => ?_⟩
  · simpa using opEncode_stop (outcome_eq_fault.1 (exec_encode s ▸ h))
  · simpa using opEncode_stop (outcome_eq_refused.1 (exec_encode s ▸ h))

/-! ## The one call of the compressor -/

/-- Neither the record of calls nor the compressor's draws change. -/
def SameCalls (s t : State) : Prop := t.compCalls = s.compCalls ∧ t.compDraws = s.compDraws

theorem WriterOp.sameCalls {s u : State} {w : WState} {r : Res State} (hs : SameCalls s u) (h : WriterOp w u r) :
    Meets r (SameCalls s) (SameCalls s) := by
  refine Meets.mono h (fun t ⟨v, hv, ht⟩ => ?_) fun t ⟨v, c, hv, ht, _⟩ => ?_ <;>
  · subst ht
    rw [hv.frame]
    exact hs

/-- The Write phase does not call the compressor. -/
theorem encodeWrite_sameCalls (s : State) : Meets (encodeWrite s) (SameCalls s) (SameCalls s) := by
  refine Meets.bind (q := SameCalls s) ⟨rfl, rfl⟩ fun u hu => ?_
  refine Meets.bind ((opWrSig_op u).sameCalls hu) fun u hu => ?_
  refine Meets.bind ((opWrIhdr_op u).sameCalls hu) fun u hu => ?_
  refine Meets.bind ((opWrIdat_op u).sameCalls hu) fun u hu => ?_
  exact (opWrIend_op u).sameCalls hu

/-- Settles O50: before the compressor's call nothing is offered, and after it only the Write phase runs. -/
theorem encodeCallsTheCompressorAtMostOnce : Obligations.EncodeCallsTheCompressorAtMostOnce := by
  intro s t h
  rw [exec_encode] at h
  rcases opEncode_cases s with ⟨_, hc⟩ | ⟨_, _, hn⟩ | ⟨_, _, _, hu⟩ |
    ⟨_, _, _, kind, hk, raw, filt, ⟨f, _, hf⟩ | ⟨_, hs⟩ | ⟨z, _, _, ho⟩ | ⟨z, _, hz, hw⟩⟩
  · rw [hc] at h; cases h; exact .inl ⟨rfl, rfl, rfl⟩
  · rw [hn] at h; cases h
  · rw [hu] at h; cases h
  · rw [hf] at h; cases h; exact .inr ⟨kind, hk, rfl, rfl⟩
  · rw [hs] at h; cases h
  · rw [ho] at h; cases h
  · have hcalls : SameCalls (atWrite raw filt kind z s) t := by
      refine or_self_iff.1 (Meets.of_next (Meets.bind (encodeWrite_sameCalls _) fun u hu => ?_) (hw ▸ h))
      exact hu
    exact .inr ⟨kind, hk, hcalls.1, hcalls.2⟩

/-! ## What an ENCODE does not depend on -/

/-- The state with other values in the checksum registers. -/
def withCrc (acc out : Word) (s : State) : State := { s with crcAcc := acc, crcOut := out }

/-- `t` has the checksum registers of `s`. -/
def KeepsCrc (s t : State) : Prop := t.crcAcc = s.crcAcc ∧ t.crcOut = s.crcOut

theorem KeepsCrc.trans {s t u : State} (h : KeepsCrc s t) (h' : KeepsCrc t u) : KeepsCrc s u :=
  ⟨h'.1.trans h.1, h'.2.trans h.2⟩

/-- The results of a computation begun in `s` and in `s` with other checksum registers, where it has written those registers
or stopped: the same, or the same error raised, each run keeping its own registers. -/
def Forgets (acc out : Word) (s : State) (r r' : Res State) : Prop :=
  r' = r ∨ ∃ u, r = .error (.raised u) ∧ KeepsCrc s u ∧ r' = .error (.raised (withCrc acc out u))

/-- The results of a part of the computation: as in `Forgets`, or both go on, each keeping its own registers. -/
def Carries (acc out : Word) (s : State) (r r' : Res State) : Prop :=
  Forgets acc out s r r' ∨ ∃ t, r = .ok t ∧ KeepsCrc s t ∧ r' = .ok (withCrc acc out t)

section
variable {acc out : Word}

theorem Forgets.of_keeps {s t : State} {r r' : Res State} (hs : KeepsCrc s t) (h : Forgets acc out t r r') :
    Forgets acc out s r r' :=
  h.imp_right fun ⟨u, hr, hu, hr'⟩ => ⟨u, hr, hs.trans hu, hr'⟩

theorem Carries.of_keeps {s t : State} {r r' : Res State} (hs : KeepsCrc s t) (h : Carries acc out t r r') :
    Carries acc out s r r' :=
  h.imp (Forgets.of_keeps hs) fun ⟨u, hr, hu, hr'⟩ => ⟨u, hr, hs.trans hu, hr'⟩

theorem Forgets.bind {s : State} {r r' : Res State} (h : Forgets acc out s r r') (f : State → Res State) :
    Forgets acc out s (r.bind f) (r'.bind f) := by
  rcases h with rfl | ⟨u, rfl, hu, rfl⟩
  · exact .inl rfl
  · exact .inr ⟨u, rfl, hu, rfl⟩

theorem Carries.bind {s : State} {r r' : Res State} {f : State → Res State} (h : Carries acc out s r r')
    (hf : ∀ t, Carries acc out t (f t) (f (withCrc acc out t))) : Carries acc out s (r.bind f) (r'.bind f) := by
  rcases h with h | ⟨t, rfl, ht, rfl⟩
  · exact .inl (h.bind f)
  · exact (hf t).of_keeps ht

/-- A part that carries the registers, then a part that forgets them. -/
theorem Carries.bind_forgets {s : State} {r r' : Res State} {f : State → Res State} (h : Carries acc out s r r')
    (hf : ∀ t, Forgets acc out t (f t) (f (withCrc acc out t))) : Forgets acc out s (r.bind f) (r'.bind f) := by
  rcases h with h | ⟨t, rfl, ht, rfl⟩
  · exact h.bind f
  · exact (hf t).of_keeps ht

theorem carries_ok {s : State} (t : State) (h : KeepsCrc s t) :
    Carries acc out s (.ok t) (.ok (withCrc acc out t)) := .inr ⟨t, rfl, h, rfl⟩

theorem carries_raise {s : State} (c : Cause) (u : State) (h : KeepsCrc s u) :
    Carries acc out s (raise c u) (raise c (withCrc acc out u)) := .inl (.inr ⟨_, rfl, h, rfl⟩)

theorem carries_same {s : State} (r : Res State) : Carries acc out s r r := .inl (.inl rfl)

theorem sinkWrite_carries (b : Byte) (s : State) :
    Carries acc out s (sinkWrite b s) (sinkWrite b (withCrc acc out s)) := by
  have hd : (withCrc acc out s).sinkDraws = s.sinkDraws := rfl
  match h : s.sinkDraws.answer 0 with
  | .accept =>
    rw [sinkWrite_accept h, sinkWrite_accept (hd ▸ h)]
    exact carries_ok (sent [b] s) ⟨rfl, rfl⟩
  | .reject =>
    rw [sinkWrite_reject h, sinkWrite_reject (hd ▸ h)]
    exact carries_raise _ (sentThenOffered [] b s) ⟨rfl, rfl⟩
  | .silent =>
    rw [sinkWrite_silent h, sinkWrite_silent (hd ▸ h)]
    exact carries_same _

theorem mirror_carries (b : Byte) (s : State) :
    Carries acc out s (mirror b s) (mirror b (withCrc acc out s)) := by
  match hi : s.accIdx, hc : s.accCap with
  | none, _ => simp only [mirror, withCrc, hi, readReg_none, bind_error]; exact carries_same _
  | some idx, none =>
    simp only [mirror, withCrc, hi, hc, readReg_none, readReg_some, bind_ok, bind_error]; exact carries_same _
  | some idx, some cap =>
    by_cases h : cap.toNat ≤ idx.toNat
    · rw [mirror_full hi hc h, mirror_full (s := withCrc acc out s) hi hc h]
      exact carries_raise _ s ⟨rfl, rfl⟩
    · rw [mirror_ok hi hc (by omega), mirror_ok (s := withCrc acc out s) hi hc (by omega)]
      exact carries_ok (mirrored idx [b] s) ⟨rfl, rfl⟩

theorem putRawSeq_carries (bs : List Byte) (s : State) :
    Carries acc out s (putRawSeq bs s) (putRawSeq bs (withCrc acc out s)) := by
  induction bs generalizing s with
  | nil => exact carries_ok s ⟨rfl, rfl⟩
  | cons b bs ih => exact (sinkWrite_carries b s).bind ih

theorem putMirSeq_carries (bs : List Byte) (s : State) :
    Carries acc out s (putMirSeq bs s) (putMirSeq bs (withCrc acc out s)) := by
  induction bs generalizing s with
  | nil => exact carries_ok s ⟨rfl, rfl⟩
  | cons b bs ih => exact ((sinkWrite_carries b s).bind (mirror_carries b)).bind ih

theorem checksum_withCrc (bytes : List Byte) (s : State) :
    checksum bytes (ensureTable (withCrc acc out s)) = checksum bytes (ensureTable s) := by
  have he : ensureTable (withCrc acc out s) = withCrc acc out (ensureTable s) := by
    unfold ensureTable
    rw [show (withCrc acc out s).tblValid = s.tblValid from rfl]
    split <;> rfl
  rw [he]
  rfl

/-- CRC.BUF overwrites both checksum registers and reads neither. -/
theorem opCrcBuf_withCrc (s : State) : opCrcBuf (withCrc acc out s) = opCrcBuf s := by
  simp only [opCrcBuf, checksum_withCrc]
  rfl

/-- `WriteChunk` has written both checksum registers where it ends. -/
theorem writeChunk_forgets (tag data : List Byte) (s : State) :
    Forgets acc out s (writeChunk tag data s) (writeChunk tag data (withCrc acc out s)) := by
  rw [writeChunk_eq, writeChunk_eq]
  refine (putRawSeq_carries _ s).bind_forgets fun t => ?_
  refine Carries.bind_forgets (s := t) (putMirSeq_carries _ (accReset t)) fun u => ?_
  rw [opCrcBuf_withCrc]
  exact .inl rfl

theorem encodeWrite_forgets (s : State) :
    Forgets acc out s (encodeWrite s) (encodeWrite (withCrc acc out s)) := by
  have hsig : Carries acc out s (opWrSig (afterSize s)) (opWrSig (afterSize (withCrc acc out s))) :=
    Carries.bind (putRawSeq_carries _ (afterSize s)) fun t =>
      carries_ok { t with wstate := .signatureWritten } ⟨rfl, rfl⟩
  rw [encodeWrite_eq, encodeWrite_eq]
  refine hsig.bind_forgets fun t => Forgets.bind ?_ _
  exact (writeChunk_forgets Config.tagIhdr (ihdrData t) t).bind _

theorem opCfgChk_carries (s : State) : Carries acc out s (opCfgChk s) (opCfgChk (withCrc acc out s)) := by
  by_cases h : s.configOk
  · rw [opCfgChk_ok h, opCfgChk_ok (s := withCrc acc out s) h]
    exact carries_ok s ⟨rfl, rfl⟩
  · rw [opCfgChk_raise h, opCfgChk_raise (s := withCrc acc out s) h]
    exact carries_raise _ s ⟨rfl, rfl⟩

theorem requireAdmitted_carries (s : State) :
    Carries acc out s (requireAdmitted s) (requireAdmitted (withCrc acc out s)) := by
  by_cases h : s.admitted = true
  · rw [requireAdmitted_ok h, requireAdmitted_ok (s := withCrc acc out s) h]
    exact carries_ok s ⟨rfl, rfl⟩
  · rw [requireAdmitted_refused h, requireAdmitted_refused (s := withCrc acc out s) h]
    exact carries_same _

theorem opSlbBuild_carries (s : State) :
    Carries acc out s (opSlbBuild s) (opSlbBuild (withCrc acc out s)) := by
  have hl : loop (withCrc acc out s).height.toNat (buildRow (withCrc acc out s)) (withCrc acc out s).raw =
      loop s.height.toNat (buildRow s) s.raw := rfl
  rw [opSlbBuild, opSlbBuild, hl]
  match loop s.height.toNat (buildRow s) s.raw with
  | .ok m => exact carries_ok { s with raw := m } ⟨rfl, rfl⟩
  | .error e => exact carries_same _

theorem opFilter_carries (kind : FilterKind) (s : State) :
    Carries acc out s (opFilter kind s) (opFilter kind (withCrc acc out s)) := by
  have hl : loop (withCrc acc out s).height.toNat (filterRow kind (withCrc acc out s)) (withCrc acc out s).filt =
      loop s.height.toNat (filterRow kind s) s.filt := rfl
  rw [opFilter, opFilter, hl]
  match loop s.height.toNat (filterRow kind s) s.filt with
  | .ok m => exact carries_ok { s with filt := m } ⟨rfl, rfl⟩
  | .error e => exact carries_same _

theorem opFltSelected_carries (s : State) :
    Carries acc out s (opFltSelected s) (opFltSelected (withCrc acc out s)) := by
  unfold opFltSelected
  rw [show (withCrc acc out s).fkind = s.fkind from rfl]
  match FilterKind.ofCode s.fkind with
  | some kind => exact opFilter_carries kind s
  | none => exact carries_raise _ s ⟨rfl, rfl⟩

theorem opCmpCall_carries (s : State) :
    Carries acc out s (opCmpCall s) (opCmpCall (withCrc acc out s)) := by
  have hh : ∀ {input}, s.filtHolds input → (withCrc acc out s).filtHolds input := id
  rcases opCmpCall_cases s with ⟨hn, h⟩ | ⟨input, hi, ⟨z, hz, hc, h⟩ | ⟨z, hz, hc, h⟩ | ⟨f, hf, h⟩ | ⟨hs, h⟩⟩
  · rw [h, opCmpCall_unwritten (s := withCrc acc out s) hn]
    exact carries_same _
  · rw [h, opCmpCall_ok (hh hi) hz hc]
    exact carries_ok { compressorCalled input s with
      comp := s.comp.writeSeq 0 z, compLen := some (BitVec.ofNat 32 z.length) } ⟨rfl, rfl⟩
  · rw [h, opCmpCall_overrun (hh hi) hz hc]
    exact carries_same _
  · rw [h, opCmpCall_fail (hh hi) hf]
    exact carries_raise _ (compressorCalled input s) ⟨rfl, rfl⟩
  · rw [h, opCmpCall_silent (hh hi) hs]
    exact carries_same _

/-- The run of ENCODE from its Config phase on. -/
theorem opEncode_forgets {s s' : State}
    (h : enterPhase .config (beginEncode s') = withCrc acc out (enterPhase .config (beginEncode s))) :
    Forgets acc out s (opEncode s) (opEncode s') := by
  unfold opEncode
  rw [h]
  refine Carries.bind_forgets (s := s) (opCfgChk_carries (enterPhase .config (beginEncode s))) fun t => ?_
  refine (requireAdmitted_carries t).bind_forgets fun t => ?_
  refine Carries.bind_forgets (s := t) (opSlbBuild_carries (enterPhase .build t)) fun t => ?_
  refine Carries.bind_forgets (s := t) (opFltSelected_carries (enterPhase .filter t)) fun t => ?_
  refine Carries.bind_forgets (s := t) (opCmpCall_carries (enterPhase .compress t)) fun t => ?_
  exact (encodeWrite_forgets t).bind _

end

/-- Settles O49: the two runs begin the Config phase in states that differ in the checksum registers alone, and the first
chunk's CRC.BUF overwrites these. -/
theorem encodeIgnoresWhatEarlierCommandsLeft : Obligations.EncodeIgnoresWhatEarlierCommandsLeft := by
  intro s s' hs
  have hbegin : enterPhase .config (beginEncode s') =
      withCrc s'.crcAcc s'.crcOut (enterPhase .config (beginEncode s)) := by
    rw [hs]; rfl
  rw [exec_encode, exec_encode]
  rcases opEncode_forgets hbegin with heq | ⟨u, hu, ⟨ha, ho⟩, hu'⟩
  · rw [heq]
    exact ⟨fun t h => .inl h, fun _ => id, fun _ => id⟩
  · have hrun := opEncode_run s
    rw [hu] at hrun ⊢
    rw [hu']
    refine ⟨fun t h => ?_, nofun, nofun⟩
    cases h
    exact .inr ⟨hrun.done, ha, ho, rfl⟩

/-! ## The host's registers and the channel port -/

/-- A CMD write of a word that names no operation the host may issue raises CommandError (60 R287). -/
theorem cmdWrite_of_sequencerOnly {w : Word} {i : Instr} (hd : decode w = .ok i) (hi : i.hostIssuable = false)
    (s : State) : cmdWrite w s = .next (commandError .notHostIssuable (clearError s)) := by
  simp only [cmdWrite, hd, hi, Bool.false_eq_true, if_false]

theorem cmdWrite_of_reserved {w : Word} (hd : ∀ i, decode w ≠ .ok i) (s : State) :
    cmdWrite w s = .next (commandError .reservedCommand (clearError s)) := by
  match h : decode w with
  | .ok i => exact absurd h (hd i)
  | .error _ => simp only [cmdWrite, h]

theorem hostAction_read {off : Nat} (h : off % 4 = 0) (s : State) :
    hostAction (.read off 4) s = .next { s with hostRead := readHostReg off s } := by
  simp [hostAction, hostAccessWellFormed, h]

theorem hostAction_write {off : Nat} (h : off % 4 = 0) (h0 : off ≠ 0) (v : Word) (s : State) :
    hostAction (.write off 4 v) s = .next (writeReg off v s) := by
  simp [hostAction, hostAccessWellFormed, regWrite, h, h0]

theorem hostAccess_ill_formed {off n : Nat} (h : off % 4 ≠ 0 ∨ n ≠ 4) : hostAccessWellFormed off n = false := by
  simpa [hostAccessWellFormed, ← imp_iff_not_or] using h

/-- Settles O5: the step is `cmdWrite`, by what the word decodes to; CMD reads 0. -/
theorem cmdWritePerformsOrRaisesCommandError : Obligations.CmdWritePerformsOrRaisesCommandError := by
  intro s rest hs
  refine ⟨fun w hb => ⟨fun i hd hi => ?_, fun i hd hi => ?_, fun hd => ?_⟩, fun hb => ?_⟩
  · rw [step_of_cmd hs hb, cmdWrite_of_hostIssuable hd hi]; rfl
  · rw [step_of_cmd hs hb, cmdWrite_of_sequencerOnly hd hi]; rfl
  · rw [step_of_cmd hs hb, cmdWrite_of_reserved hd]; rfl
  · rw [step_of_action hs hb, hostAction_read rfl]; rfl

/-- The register a write reaches, as a chain of tests on the offset (10 R23). -/
theorem writeReg_eq (off : Nat) (v : Word) (s : State) :
    writeReg off v s =
      if off = 0x0C then { s with width := v }
      else if off = 0x10 then { s with height := v }
      else if off = 0x14 then { s with depth := v.extractLsb' 0 8 }
      else if off = 0x18 then { s with cmode := v.extractLsb' 0 8 }
      else if off = 0x1C then { s with fkind := v.extractLsb' 0 8 }
      else if off = 0x20 then { s with level := v }
      else s := by
  unfold writeReg
  split <;> simp_all

theorem readHostReg_eq (off : Nat) (s : State) :
    readHostReg off s =
      if off = 0x04 then s.statusWord
      else if off = 0x08 then s.errReg
      else if off = 0x0C then s.width
      else if off = 0x10 then s.height
      else if off = 0x14 then s.depth.setWidth 32
      else if off = 0x18 then s.cmode.setWidth 32
      else if off = 0x1C then s.fkind.setWidth 32
      else if off = 0x20 then s.level
      else if off = 0x24 then s.crcAcc
      else if off = 0x28 then s.crcOut
      else 0 := by
  unfold readHostReg
  split <;> simp_all [zext32]

/-- Settles O6: the map of `writeReg` and of `readHostReg` written out, and the test on the access. -/
theorem hostRegisterMap : Obligations.HostRegisterMap := by
  intro s off rest hs
  refine ⟨fun v h4 h0 hb => ?_, fun h4 hb => ?_, fun n v hbad hb => ?_⟩
  · rw [step_of_action hs hb, hostAction_write h4 h0, writeReg_eq]
  · rw [step_of_action hs hb, hostAction_read h4, readHostReg_eq]; rfl
  · have hill := hostAccess_ill_formed hbad
    rcases hb with hb | hb
    · rw [step_of_action hs hb]; simp [hostAction, hill]
    · rw [step_of_action hs hb]; simp [hostAction, hill]

theorem chanLoad_of_some {k : Fin 4} {i : Word} {v : Sample} {s : State} (h : (s.ch[k]).read i.toNat = some v) :
    chanLoad k i s = .next { s with hostRead := v.setWidth 32 } := by
  simp only [chanLoad, h]

theorem chanLoad_of_none {k : Fin 4} {i : Word} {s : State} (h : (s.ch[k]).read i.toNat = none) :
    chanLoad k i s = .fault .unwrittenChannelCell := by
  simp only [chanLoad, h]

/-- Settles O7: read after write in one bank, and the bank read. -/
theorem channelPortMovesOneCell : Obligations.ChannelPortMovesOneCell := by
  intro s k i rest hs
  refine ⟨fun v hb => ?_, fun hb => ⟨fun v hv => ?_, fun hn => ?_⟩⟩
  · refine ⟨_, step_of_action hs hb, rfl, ?_, fun a ha => ?_, fun k' hk => ?_⟩
    · rw [getElem_set_fin, if_pos rfl, Memory.read_write_same]
    · rw [getElem_set_fin, if_pos rfl, Memory.read_write_other _ _ ha]
    · rw [getElem_set_fin, if_neg hk]
  · rw [step_of_action hs hb]; exact chanLoad_of_some hv
  · rw [step_of_action hs hb]; exact chanLoad_of_none hn

/-! ## STATUS -/

/-- A concatenation as a number. -/
theorem toNat_append_eq {m n : Nat} (x : BitVec m) (y : BitVec n) : (x ++ y).toNat = x.toNat * 2 ^ n + y.toNat := by
  rw [BitVec.toNat_append, ← Nat.shiftLeft_add_eq_or_of_lt y.isLt, Nat.shiftLeft_eq]

/-- The single bits of STATUS (10 R25). -/
theorem statusWord_bits (s : State) :
    s.statusWord.getLsbD 0 = s.done ∧ s.statusWord.getLsbD 1 = s.err ∧ s.statusWord.getLsbD 2 = s.tblValid ∧
    s.statusWord.getLsbD 3 = false ∧ s.statusWord.getLsbD 7 = false := by
  simp only [State.statusWord, BitVec.getLsbD_append]
  simp

/-- The wider fields of STATUS (10 R25). -/
theorem statusWord_fields (s : State) :
    s.statusWord.extractLsb' 4 3 = s.phase.code ∧ s.statusWord.extractLsb' 8 3 = s.wstate.code ∧
    s.statusWord.extractLsb' 11 21 = 0#21 := by
  simp (disch := decide) only [State.statusWord, BitVec.extractLsb'_append_eq_of_le,
    BitVec.extractLsb'_append_eq_of_add_le, BitVec.extractLsb'_eq_self, Nat.reduceSub, and_self]

theorem statusWord_toNat (s : State) :
    s.statusWord.toNat = s.done.toNat + 2 * s.err.toNat + 4 * s.tblValid.toNat + 16 * s.phase.code.toNat +
      256 * s.wstate.code.toNat := by
  simp only [State.statusWord, toNat_append_eq, BitVec.toNat_ofBool, BitVec.toNat_ofNat]
  omega

/-- Settles O8: STATUS is a concatenation, read bit by bit, field by field and as a number. -/
theorem statusWordFields : Obligations.StatusWordFields := by
  intro s
  obtain ⟨h0, h1, h2, h3, h7⟩ := statusWord_bits s
  obtain ⟨hphase, hwstate, htop⟩ := statusWord_fields s
  exact ⟨h0, h1, h2, h3, hphase, h7, hwstate, htop, statusWord_toNat s⟩

/-! ## Reset -/

theorem released_reset : released State.reset := ⟨rfl, rfl, rfl, rfl, rfl, rfl, rfl, rfl⟩

/-- Settles O56: nothing is held, and STATUS.ERR and TBL_VALID are 0. -/
theorem resetMeetsTheInvariant : Obligations.ResetMeetsTheInvariant := by
  exact ⟨Inv.of_released released_reset nofun ⟨fun _ => rfl, nofun⟩ (by decide),
    rfl, .inl rfl, by decide, by decide, fun _ => rfl, released_reset⟩

/-- Settles O9: ENCODE finds DEPTH 0 a bad depth. -/
theorem resetState : Obligations.ResetState := by
  have hcfg : ¬ State.reset.configOk := fun h => absurd h.1 (by decide)
  have hcell : ∀ (k : Fin 4) (i : Nat), (State.reset.ch[k]).read i = none := fun k i => by
    simp [State.reset]
  have henc : exec .encode State.reset =
      .next (errorEntry .badDepth (enterPhase .config (beginEncode State.reset))) := by
    rw [exec_encode, opEncode_config hcfg]; rfl
  exact ⟨rfl, rfl, rfl, rfl, rfl, rfl, rfl, rfl, rfl, rfl, rfl, rfl, rfl, rfl, rfl, rfl, released_reset, rfl, hcell,
    ⟨_, henc, rfl, rfl⟩, rfl⟩

end Sys2Proof.Machine
end

section
/-! The statements of command words: decoding and encoding, the decoder's four steps and its table of match and mask, the
host's checksum program, and ENCODE as the fixed sequence of command words. -/

namespace Sys2Proof

/-! ## Decode and encode -/

theorem decode_encode (i : Instr) : decode (encode i) = .ok i :=
  decode_eq_ok.2 ⟨encode_high i, encode_field i, encode_opcode i⟩

theorem encode_of_decode {w : Word} {i : Instr} (h : decode w = .ok i) : encode i = w := by
  obtain ⟨hhigh, hfield, hlow⟩ := decode_eq_ok.1 h
  calc encode i = (w.extractLsb' 16 16 ++ w.extractLsb' 8 8) ++ w.extractLsb' 0 8 := by
        rw [hhigh, hfield, hlow]; rfl
    _ = w := word_of_fields w

/-- Settles O1: a word is its three fields, and the decoder answers the operation whose fields they are. -/
theorem decodeAndEncodeAgree : Obligations.DecodeAndEncodeAgree :=
  ⟨fun i _ => decode_encode i, fun _ _ => encode_of_decode⟩

/-- Settles O3: each word is decoded as it stands. -/
theorem wordsOfTheSpecDecode : Obligations.WordsOfTheSpecDecode := by
  unfold Obligations.WordsOfTheSpecDecode
  decide

/-! ## The four steps -/

/-- Step (1): bits [31:16]. -/
theorem decode_of_high_ne {w : Word} (h : w.extractLsb' 16 16 ≠ 0) : decode w = .error .highBitsNotZero := by
  rw [decode, if_pos h]

/-- Step (2): an opcode no operation has is in no row of the map. -/
theorem decode_of_reserved {w : Word} (hhigh : w.extractLsb' 16 16 = 0)
    (h : ∀ i : Instr, i.opcode ≠ w.extractLsb' 0 8) : decode w = .error .reservedOpcode := by
  have hnone : opRows.find? (fun row => row.opcode == w.extractLsb' 0 8) = none :=
    List.find?_eq_none.2 fun row hrow heq =>
      h (row.instr 0) ((opRows_sound row hrow 0).1.trans (beq_iff_eq.1 heq))
  rw [decode, if_neg (not_not.2 hhigh), hnone]

/-- Step (3): bits [15:8] of an operation without an operand. -/
theorem decode_of_field_ne {w : Word} {i : Instr} (hhigh : w.extractLsb' 16 16 = 0) (hlow : i.opcode = w.extractLsb' 0 8)
    (hf : i.format = .cmd0) (h : w.extractLsb' 8 8 ≠ 0) : decode w = .error .fieldNotZero := by
  obtain ⟨row, hrow, hformat, -⟩ := opRows_find i
  rw [decode, if_neg (not_not.2 hhigh), ← hlow, hrow]
  simp only [hformat, hf, if_pos h]

/-! ## Match and mask -/

/-- The bits of the field [15:8] that a row's mask tests. -/
def Format.fieldMask : Format → Byte
  | .cmd0 => BitVec.allOnes 8
  | .cmd8 => 0

theorem tableMask_fields (i : Instr) :
    i.tableMask = (BitVec.allOnes 16 ++ i.format.fieldMask) ++ BitVec.allOnes 8 := by
  rw [Instr.tableMask]
  cases i.format <;> decide

theorem tableMatch_fields (i : Instr) : i.tableMatch = (0#16 ++ 0#8) ++ i.opcode :=
  BitVec.setWidth_eq_append (by decide)

/-- A masked word, field by field. -/
theorem and_tableMask (w : Word) (i : Instr) :
    w &&& i.tableMask =
      (w.extractLsb' 16 16 ++ (w.extractLsb' 8 8 &&& i.format.fieldMask)) ++ w.extractLsb' 0 8 := by
  conv_lhs => rw [← word_of_fields w, tableMask_fields, BitVec.and_append, BitVec.and_append,
    BitVec.and_allOnes, BitVec.and_allOnes]

theorem and_fieldMask_eq_zero {f : Byte} {m : Format} : f &&& m.fieldMask = 0 ↔ (m = .cmd0 → f = 0) := by
  cases m with
  | cmd0 => rw [Format.fieldMask, BitVec.and_allOnes]; simp
  | cmd8 => simp [Format.fieldMask]

/-- Words put together from three fields are equal exactly where their fields are. -/
theorem append_fields_inj {h h' : BitVec 16} {f f' o o' : Byte} :
    (h ++ f) ++ o = (h' ++ f') ++ o' ↔ h = h' ∧ f = f' ∧ o = o' := by
  refine ⟨fun heq => ?_, fun ⟨hh, hf, ho⟩ => by rw [hh, hf, ho]⟩
  obtain ⟨h1, f1, o1⟩ := fields_of_word h f o
  obtain ⟨h2, f2, o2⟩ := fields_of_word h' f' o'
  rw [heq] at h1 f1 o1
  exact ⟨h1.symm.trans h2, f1.symm.trans f2, o1.symm.trans o2⟩

/-- The test by mask and match, on the fields of the word. -/
theorem and_tableMask_eq_match {w : Word} {i : Instr} :
    w &&& i.tableMask = i.tableMatch ↔
      w.extractLsb' 16 16 = 0 ∧ (i.format = .cmd0 → w.extractLsb' 8 8 = 0) ∧ w.extractLsb' 0 8 = i.opcode := by
  rw [and_tableMask, tableMatch_fields, append_fields_inj]
  exact and_congr_right' (and_congr_left' and_fieldMask_eq_zero)

/-- The decoder answers an operation exactly where the word passes its row's test and carries its operand. -/
theorem decode_eq_ok_iff_table {w : Word} {i : Instr} :
    decode w = .ok i ↔ w &&& i.tableMask = i.tableMatch ∧ i.field = w.extractLsb' 8 8 := by
  rw [decode_eq_ok, and_tableMask_eq_match]
  constructor
  · rintro ⟨hhigh, hfield, hlow⟩
    exact ⟨⟨hhigh, fun hf => hfield.trans (field_of_cmd0 hf), hlow⟩, hfield.symm⟩
  · rintro ⟨⟨hhigh, -, hlow⟩, hfield⟩
    exact ⟨hhigh, hfield.symm, hlow⟩

/-- Settles O2: the steps one by one, and the table's test read on the fields of the word. -/
theorem decoderFollowsTheFourSteps : Obligations.DecoderFollowsTheFourSteps := by
  intro w
  refine ⟨decode_of_high_ne, decode_of_reserved, fun hhigh i => decode_of_field_ne hhigh,
    fun hhigh i hlow hfield => decode_eq_ok.2 ⟨hhigh, hfield.symm, hlow.symm⟩,
    fun i => decode_eq_ok_iff_table, fun i j hi hj => ?_⟩
  obtain ⟨-, -, hi⟩ := and_tableMask_eq_match.1 hi
  obtain ⟨-, -, hj⟩ := and_tableMask_eq_match.1 hj
  exact hi.symm.trans hj

end Sys2Proof

namespace Sys2Proof.Machine

/-! ## The host's checksum program -/

/-- A run whose first step goes on is that step and the rest of the run. -/
theorem run_succ_of_next (M : Host.Core) {s t : M.State} (h : M.step s = .next t) (k : Nat) :
    M.run (k + 1) s = M.run k t := by
  rw [Host.Core.run, h]

theorem run_of_step {s t : State} {k : Nat} {r : Host.Outcome State Fault Refusal} (h : step s = .next t)
    (hr : Host.Core.run Sys2Proof.core k t = r) : Host.Core.run Sys2Proof.core (k + 1) s = r :=
  (run_succ_of_next Sys2Proof.core h k).trans hr

/-- A line of a host program runs its operation, the error cleared (30 R105, 10 R24). -/
theorem step_of_issueLine {s : State} {i : Instr} {rest : List HostAction} (hs : s.seqSlot = none)
    (hb : s.bus = issueLine i :: rest) (hi : i.hostIssuable = true) :
    step s = exec i (clearError { s with bus := rest }) := by
  rw [step_of_cmd hs hb, cmdWrite_of_hostIssuable (decode_encode i) hi]

/-- The state inside the host's checksum program begun in `s`: no error, the table built, CRC_ACC being `acc`, the lines
`rest` to come. -/
def folding (rest : List HostAction) (acc : Word) (s : State) : State :=
  { s with bus := rest, err := false, errReg := 0, tbl := tblc, tblValid := true, crcAcc := acc }

theorem step_crcInit {s : State} {rest : List HostAction} (h : s.tblOk) (hs : s.seqSlot = none)
    (hb : s.bus = issueLine .crcInit :: rest) : step s = .next (folding rest Config.crcOnes s) := by
  have h' : (clearError { s with bus := rest }).tblOk := h
  rw [step_of_issueLine hs hb rfl, exec, execCrcInit, ensureTable_of_tblOk h']
  rfl

theorem step_folding_crcUpd (b : Byte) (rest : List HostAction) (acc : Word) {s : State} (hs : s.seqSlot = none) :
    step (folding (issueLine (.crcUpd b) :: rest) acc s) = .next (folding rest (crcStep acc b) s) :=
  step_of_issueLine (s := folding _ acc s) hs rfl rfl

theorem step_folding_crcFin (rest : List HostAction) (acc : Word) {s : State} (hs : s.seqSlot = none) :
    step (folding (issueLine .crcFin :: rest) acc s) =
      .next { folding rest acc s with crcOut := acc ^^^ Config.crcOnes } :=
  step_of_issueLine (s := folding _ acc s) hs rfl rfl

/-- The lines of the checksum program after CRC.INIT: each CRC.UPD folds its byte, CRC.FIN finalises. -/
theorem run_folding (m : List Byte) (rest : List HostAction) (acc : Word) {s : State} (hs : s.seqSlot = none) :
    Host.Core.run Sys2Proof.core (m.length + 1)
        (folding ((m.map fun b => issueLine (.crcUpd b)) ++ issueLine .crcFin :: rest) acc s) =
      .next { folding rest (m.foldl crcStep acc) s with crcOut := m.foldl crcStep acc ^^^ Config.crcOnes } := by
  induction m generalizing acc with
  | nil => exact run_of_step (step_folding_crcFin rest acc hs) rfl
  | cons b m ih => exact run_of_step (step_folding_crcUpd b _ acc hs) (ih (crcStep acc b))

/-- Folding is a stream operation (43 R192). -/
theorem crc32_append (u v : List Byte) :
    crc32 (u ++ v) = v.foldl crcStep (crc32 u ^^^ Config.crcOnes) ^^^ Config.crcOnes := by
  rw [crc32, crc32, List.foldl_append, BitVec.xor_assoc, BitVec.xor_self, BitVec.xor_zero]

/-- Settles O18: CRC.INIT is one step, the lines after it are an induction on the bytes. -/
theorem hostChecksumProgramComputesCrc32 : Obligations.HostChecksumProgramComputesCrc32 := by
  refine ⟨fun s m rest ht hs hb => ?_, crc32_append⟩
  have hb' : s.bus = issueLine .crcInit ::
      ((m.map fun b => issueLine (.crcUpd b)) ++ issueLine .crcFin :: rest) := by
    rw [hb]; simp [crc32Lines]
  exact run_of_step (step_crcInit ht hs hb') (run_folding m rest Config.crcOnes hs)

/-! ## ENCODE as its fixed sequence -/

/-- A state of the fixed sequence: the port is free, PHASE is `p`, FKIND is `k`. -/
structure InPhase (p : Phase) (k : Byte) (s : State) : Prop where
  port : s.seqSlot = none
  phase : s.phase = p
  kind : s.fkind = k

theorem InPhase.of_frame {p : Phase} {k : Byte} {s t : State} (h : InPhase p k s) (hf : OpFrame s t)
    (hp : t.phase = s.phase) : InPhase p k t :=
  ⟨by rw [hf.inputs]; exact h.port, hp.trans h.phase, by rw [hf.inputs]; exact h.kind⟩

theorem InPhase.enter {p : Phase} {k : Byte} {s : State} (h : InPhase p k s) (q : Phase) :
    InPhase q k (enterPhase q s) :=
  ⟨h.port, rfl, h.kind⟩

theorem InPhase.enter_same {p : Phase} {k : Byte} {s : State} (h : InPhase p k s) : enterPhase p s = s := by
  rw [← h.phase]; rfl

/-- The command word `w` performs `op` in phase `p`: it ends in the phase, or raises an error. -/
def WordPerforms (p : Phase) (k : Byte) (w : Word) (op : State → Res State) : Prop :=
  ∃ i, decode w = .ok i ∧ ∀ s, InPhase p k s →
    exec i s = outcome (op s) ∧ Meets (op s) (InPhase p k) fun t => t.phase = .failed

/-! ### The operations of the sequence -/

theorem cfgChk_performs (k : Byte) : WordPerforms .config k 0x00000002 opCfgChk :=
  ⟨.cfgChk, by decide, fun s hs => ⟨rfl, (opCfgChk_frame s).mono (fun _ ht => ht ▸ hs) fun _ ⟨_, _, ht⟩ => ht ▸ rfl⟩⟩

theorem slbBuild_performs (k : Byte) : WordPerforms .build k 0x00000020 opSlbBuild :=
  ⟨.slbBuild, by decide, fun s hs => ⟨rfl, (opSlbBuild_frame s).mono
    (fun t ht => hs.of_frame (slb_frame ht) (by rw [ht.1])) fun _ h => h.elim⟩⟩

/-- The word 0x30 + FKIND names the filter operation of the kind FKIND names (30 R101). -/
theorem decode_filterWord {k : Byte} (h : k.toNat ≤ 4) :
    ∃ i kind, decode (0x00000030 + zext32 k) = .ok i ∧ FilterKind.ofCode k = some kind ∧
      ∀ s, exec i s = outcome (opFilter kind s) := by
  have hk : k = 0 ∨ k = 1 ∨ k = 2 ∨ k = 3 ∨ k = 4 := by bv_omega
  rcases hk with rfl | rfl | rfl | rfl | rfl
  · exact ⟨.fltNone, .none, by decide, rfl, fun _ => rfl⟩
  · exact ⟨.fltSub, .sub, by decide, rfl, fun _ => rfl⟩
  · exact ⟨.fltUp, .up, by decide, rfl, fun _ => rfl⟩
  · exact ⟨.fltAvg, .average, by decide, rfl, fun _ => rfl⟩
  · exact ⟨.fltPaeth, .paeth, by decide, rfl, fun _ => rfl⟩

theorem filter_performs {k : Byte} (h : k.toNat ≤ 4) :
    WordPerforms .filter k (0x00000030 + zext32 k) opFltSelected := by
  obtain ⟨i, kind, hd, hkind, hexec⟩ := decode_filterWord h
  refine ⟨i, hd, fun s hs => ?_⟩
  have hsel : opFltSelected s = opFilter kind s := by simp only [opFltSelected, hs.kind, hkind]
  rw [hsel]
  exact ⟨hexec s, (opFilter_frame kind s).mono
    (fun t ht => hs.of_frame (filter_frame ht) (by rw [ht.1])) fun _ h => h.elim⟩

theorem cmpCall_performs (k : Byte) : WordPerforms .compress k 0x00000040 opCmpCall :=
  ⟨.cmpCall, by decide, fun s hs => ⟨rfl, (opCmpCall_frame s).mono
    (fun _ ⟨hf, _, _, _, _, _, ht⟩ => hs.of_frame hf (ht ▸ rfl)) fun _ ⟨_, _, _, _, _, ht⟩ => ht ▸ rfl⟩⟩

theorem accSize_performs (k : Byte) : WordPerforms .write k 0x00000050 opAccSize :=
  ⟨.accSize, by decide, fun s hs => ⟨rfl, hs.of_frame (opAccSize_frame s) rfl⟩⟩

/-- A writer operation changes neither the port nor PHASE nor FKIND, or raises an error. -/
theorem WriterOp.inPhase {p : Phase} {k : Byte} {w : WState} {s : State} {r : Res State} (h : WriterOp w s r)
    (hs : InPhase p k s) : Meets r (InPhase p k) fun t => t.phase = .failed :=
  Meets.mono h (fun _ ⟨u, hu, ht⟩ => ht ▸ hs.of_frame (hu.opFrame.trans (setWState_frame w u)) (by rw [hu.frame]))
    fun _ ⟨_, _, _, ht, _⟩ => ht ▸ rfl

theorem wrSig_performs (k : Byte) : WordPerforms .write k 0x00000051 opWrSig :=
  ⟨.wrSig, by decide, fun s hs => ⟨rfl, (opWrSig_op s).inPhase hs⟩⟩

theorem wrIhdr_performs (k : Byte) : WordPerforms .write k 0x00000052 opWrIhdr :=
  ⟨.wrIhdr, by decide, fun s hs => ⟨rfl, (opWrIhdr_op s).inPhase hs⟩⟩

theorem wrIdat_performs (k : Byte) : WordPerforms .write k 0x00000053 opWrIdat :=
  ⟨.wrIdat, by decide, fun s hs => ⟨rfl, (opWrIdat_op s).inPhase hs⟩⟩

theorem wrIend_performs (k : Byte) : WordPerforms .write k 0x00000054 opWrIend :=
  ⟨.wrIend, by decide, fun s hs => ⟨rfl, (opWrIend_op s).inPhase hs⟩⟩

/-! ### The sequence -/

/-- The end of ENCODE after its sequence: an error raised stands, a normal end is finished (45 R252). -/
def endEncode : Host.Outcome State Fault Refusal → Host.Outcome State Fault Refusal
  | .next t => if t.phase = .failed then .next t else .next (finishEncode t)
  | .fault f => .fault f
  | .refused r => .refused r

/-- Issuing the words of `l` from phase `p` on and ending the ENCODE is `f`. -/
def SequencePerforms (p : Phase) (k : Byte) (l : List (Phase × Word)) (f : State → Res State) : Prop :=
  ∀ s, InPhase p k s → endEncode (runSequence l s) = outcome (f s)

/-- The step that issues a word of the sequence in its phase is the word's operation. -/
theorem step_of_sequenceWord {p : Phase} {w : Word} {i : Instr} {s : State} (hd : decode w = .ok i)
    (hs : s.seqSlot = none) : step { s with phase := p, seqSlot := some w } = exec i (enterPhase p s) := by
  rw [step_of_port rfl hd, enterPhase, ← hs]

theorem sequencePerforms_nil (k : Byte) : SequencePerforms .write k [] fun s => .ok (finishEncode s) := fun s hs => by
  rw [runSequence, endEncode, if_neg (by rw [hs.phase]; decide), outcome_ok]

/-- One word more in front: its operation in its phase, and where that ends the rest of the sequence. -/
theorem sequencePerforms_cons {p q : Phase} {k : Byte} {w : Word} {op f : State → Res State}
    {rest : List (Phase × Word)} (hq : q ≠ .failed) (hw : WordPerforms q k w op) (hrest : SequencePerforms q k rest f) :
    SequencePerforms p k ((q, w) :: rest) fun s => (op (enterPhase q s)).bind f := by
  intro s hs
  obtain ⟨i, hd, hop⟩ := hw
  obtain ⟨hexec, hmeets⟩ := hop _ (hs.enter q)
  show _ = outcome ((op (enterPhase q s)).bind f)
  rw [runSequence, step_of_sequenceWord hd hs.port, hexec]
  match op (enterPhase q s), hmeets with
  | .ok t, ht =>
    have hgo : ¬ t.phase = .failed := by rw [InPhase.phase ht]; exact hq
    simp only [outcome_ok, if_neg hgo, bind_ok]
    exact hrest t ht
  | .error (.raised t), ht =>
    have hfailed : t.phase = .failed := ht
    simp only [outcome, bind_error, if_pos hfailed, endEncode]
  | .error (.fault f), _ => rfl
  | .error (.refused r), _ => rfl

/-- A word in the phase the sequence is in already. -/
theorem sequencePerforms_cons_same {p : Phase} {k : Byte} {w : Word} {op f : State → Res State}
    {rest : List (Phase × Word)} (hp : p ≠ .failed) (hw : WordPerforms p k w op) (hrest : SequencePerforms p k rest f) :
    SequencePerforms p k ((p, w) :: rest) fun s => (op s).bind f := fun s hs => by
  simpa only [hs.enter_same] using sequencePerforms_cons hp hw hrest s hs

theorem bind_bind (r : Res State) (f g : State → Res State) : (r.bind f).bind g = r.bind fun s => (f s).bind g := by
  cases r <;> rfl

/-- The five words of the Write phase. -/
theorem writeWords_perform (p : Phase) (k : Byte) :
    SequencePerforms p k
      [(.write, 0x00000050), (.write, 0x00000051), (.write, 0x00000052), (.write, 0x00000053), (.write, 0x00000054)]
      fun s => (encodeWrite s).bind fun s => .ok (finishEncode s) := by
  simp only [encodeWrite, bind_bind]
  exact sequencePerforms_cons (by decide) (accSize_performs k) <|
    sequencePerforms_cons_same (by decide) (wrSig_performs k) <|
    sequencePerforms_cons_same (by decide) (wrIhdr_performs k) <|
    sequencePerforms_cons_same (by decide) (wrIdat_performs k) <|
    sequencePerforms_cons_same (by decide) (wrIend_performs k) (sequencePerforms_nil k)

/-- The fixed sequence, where FKIND names a filter kind, without the admission test. -/
theorem fixedSequence_performs (p : Phase) {k : Byte} (h : k.toNat ≤ 4) :
    SequencePerforms p k (fixedSequence k) fun s =>
      (opCfgChk (enterPhase .config s)).bind fun s =>
      (opSlbBuild (enterPhase .build s)).bind fun s =>
      (opFltSelected (enterPhase .filter s)).bind fun s =>
      (opCmpCall (enterPhase .compress s)).bind fun s =>
      (encodeWrite s).bind fun s => .ok (finishEncode s) :=
  sequencePerforms_cons (by decide) (cfgChk_performs k) <|
  sequencePerforms_cons (by decide) (slbBuild_performs k) <|
  sequencePerforms_cons (by decide) (filter_performs h) <|
  sequencePerforms_cons (by decide) (cmpCall_performs k) (writeWords_perform .compress k)

/-- On a descriptor CFG.CHK refuses, the first word of the sequence ends it. -/
theorem runSequence_config {s : State} (hs : s.seqSlot = none) (h : ¬ s.configOk) (k : Byte) :
    runSequence (fixedSequence k) s = .next (errorEntry (configCause s) (enterPhase .config s)) := by
  have h' : ¬ (enterPhase .config s).configOk := h
  rw [fixedSequence, runSequence, step_of_sequenceWord (i := .cfgChk) (by decide) hs, exec, execCfgChk,
    opCfgChk_raise h', outcome_raise]
  rfl

/-- Settles O46: where CFG.CHK passes the words perform ENCODE's operations one by one, else the first raises its error. -/
theorem encodeRunsTheFixedSequence : Obligations.EncodeRunsTheFixedSequence := by
  intro s hs hadmitted
  change exec .encode s = endEncode (runSequence (fixedSequence s.fkind) (beginEncode s))
  by_cases h : s.configOk
  · have hpass : opCfgChk (enterPhase .config (beginEncode s)) = .ok (enterPhase .config (beginEncode s)) :=
      opCfgChk_ok (s := enterPhase .config (beginEncode s)) h
    have hrun := fixedSequence_performs s.phase h.2.2 (beginEncode s) ⟨hs, rfl, rfl⟩
    simp only [hpass, bind_ok] at hrun
    rw [exec_encode, opEncode_admitted h (hadmitted h)]
    exact hrun.symm
  · rw [exec_encode, opEncode_config h, runSequence_config (s := beginEncode s) hs h]
    rfl

end Sys2Proof.Machine
end

section
/-! The statements of the Scanline Builder: the bytes of RAW as the bytes of the samples, where SLB.BUILD stops, and the
cells its result depends on. -/

namespace Sys2Proof.Machine

theorem exec_slbBuild (s : State) : exec .slbBuild s = outcome (opSlbBuild s) := rfl

/-! ## The bytes of a sample in RAW -/

/-- The byte of RAW at the position of byte `i` of a sample is byte `i` of the channel cell. -/
theorem rawAt_samplePosition {s : State} (hf : s.formatOk) {r c k i : Nat} (hk : k < s.nch) (hi : i < s.bps)
    {v : Sample} (hv : s.channelCell k (s.sampleIndex r c) = some v) :
    rawAt s r (s.samplePosition c k i) = sampleByte s.depth v i := by
  rw [rawAt, rawByte_sample hf hk hi, hv, Option.map_some, Option.getD_some]

theorem samplePosition_depth8 {s : State} (hb : s.bps = 1) (c k : Nat) :
    s.samplePosition c k 0 = 1 + c * s.pstride + k := by
  rw [State.samplePosition, hb]
  omega

theorem samplePosition_depth16 {s : State} (hb : s.bps = 2) (c k i : Nat) :
    s.samplePosition c k i = 1 + c * s.pstride + 2 * k + i := by
  rw [State.samplePosition, hb]
  omega

/-- R132 at depth 8: a sample is its low byte. -/
theorem rawAt_depth8 {s : State} (hf : s.formatOk) (hd : s.depth = 8) {r c k : Nat} (hk : k < s.nch) {v : Sample}
    (hv : s.channelCell k (s.sampleIndex r c) = some v) :
    rawAt s r (1 + c * s.pstride + k) = v.extractLsb' 0 8 := by
  have hb : s.bps = 1 := by simp [State.bps, hd]
  rw [← samplePosition_depth8 hb, rawAt_samplePosition hf hk (by omega) hv, hd]
  rfl

/-- R132 at depth 16: a sample is its high byte and then its low byte (BE16, R14). -/
theorem rawAt_depth16 {s : State} (hf : s.formatOk) (hd : s.depth = 16) {r c k : Nat} (hk : k < s.nch) {v : Sample}
    (hv : s.channelCell k (s.sampleIndex r c) = some v) :
    rawAt s r (1 + c * s.pstride + 2 * k) = v.extractLsb' 8 8 ∧
      rawAt s r (1 + c * s.pstride + 2 * k + 1) = v.extractLsb' 0 8 := by
  have hb : s.bps = 2 := by simp [State.bps, hd]
  have hbyte : ∀ i < 2, rawAt s r (1 + c * s.pstride + 2 * k + i) = sampleByte 16 v i := fun i hi => by
    rw [← samplePosition_depth16 hb, rawAt_samplePosition hf hk (by omega) hv, hd]
  exact ⟨hbyte 0 (by omega), hbyte 1 (by omega)⟩

/-- Settles O19: the frame built is R131's, whose bytes at a sample's positions are the bytes of its channel cell. -/
theorem slbBuildWritesRawBytes : Obligations.SlbBuildWritesRawBytes := by
  refine ⟨by decide, rfl, fun s hd hm hw => ?_⟩
  have hf : s.formatOk := ⟨hd, hm⟩
  obtain ⟨m, hrun, hbytes, hothers, _⟩ := opSlbBuild_built hf hw
  refine ⟨{ s with raw := m }, by rw [exec_slbBuild, hrun, outcome_ok], rfl, fun r j hr hj => ?_, fun r => rfl,
    fun r c k _ _ hk v hv => ⟨fun h8 => rawAt_depth8 hf h8 hk hv, fun h16 => rawAt_depth16 hf h16 hk hv⟩, hothers⟩
  exact (hbytes r j hr hj).trans (rawByte_eq_rawAt hf hw hr hj)

/-! ## A cell without value -/

/-- Settles O20: the only stop of SLB.BUILD on a legal descriptor, and one cell without value is enough for it. -/
theorem slbBuildFaultsOnAnUnwrittenCell : Obligations.SlbBuildFaultsOnAnUnwrittenCell := by
  intro s hd hm hw
  rw [exec_slbBuild, opSlbBuild_unwritten ⟨hd, hm⟩ hw, outcome_fault]

/-! ## The cells the result depends on -/

/-- Two cells give SLB.BUILD the same bytes: at depth 8 their low bytes are equal, else they are equal. -/
def SameSampleBytes (depth : Byte) (x y : Option Sample) : Prop :=
  if depth = 8 then x.map (fun v => v.extractLsb' 0 8) = y.map (fun v => v.extractLsb' 0 8) else x = y

/-- Where the second cell holds a value, so does the first, and the samples are serialised alike. -/
theorem SameSampleBytes.exists_sample {depth : Byte} {x : Option Sample} {v : Sample}
    (h : SameSampleBytes depth x (some v)) : ∃ u, x = some u ∧ sampleByte depth u = sampleByte depth v := by
  unfold SameSampleBytes at h
  split at h
  case isTrue hd =>
    obtain ⟨u, hu, hlow⟩ := Option.map_eq_some_iff.1 h
    exact ⟨u, hu, funext fun i => by simp only [sampleByte, if_pos hd, hlow]⟩
  case isFalse => exact ⟨v, h, rfl⟩

/-- One sample built from its cell: the bytes of the sample, one after another. -/
theorem buildSample_of_cell {s : State} {r c k : Nat} {v : Sample} (hv : s.channelCell k (s.sampleIndex r c) = some v)
    (m : Memory 8) :
    buildSample s r c k m = loop s.bps
      (fun i m => .ok (m.write (s.rowIndex r (s.samplePosition c k i)) (sampleByte s.depth v i))) m := by
  rw [buildSample, readChannel_eq hv, bind_ok]

section
variable {s : State} {ch' : Vector (Memory 16) 4}

/-- One sample is built alike from two written cells with the same bytes. -/
theorem buildSample_withChannels {r c k : Nat} (hw : (s.channelCell k (s.sampleIndex r c)).isSome)
    (hsame : SameSampleBytes s.depth (State.channelCell { s with ch := ch' } k (s.sampleIndex r c))
      (s.channelCell k (s.sampleIndex r c))) (m : Memory 8) :
    buildSample { s with ch := ch' } r c k m = buildSample s r c k m := by
  obtain ⟨v, hv⟩ := Option.isSome_iff_exists.1 hw
  rw [hv] at hsame
  obtain ⟨u, hu, hbytes⟩ := hsame.exists_sample
  rw [buildSample_of_cell hv, ← hbytes]
  exact buildSample_of_cell hu m

/-- SLB.BUILD after a change of the channel banks that keeps the bytes of every cell it reads. -/
theorem opSlbBuild_withChannels (hw : s.channelsWritten)
    (hsame : ∀ k i, k < s.nch → i < s.width.toNat * s.height.toNat →
      SameSampleBytes s.depth (State.channelCell { s with ch := ch' } k i) (s.channelCell k i)) :
    opSlbBuild { s with ch := ch' } =
      (loop s.height.toNat (buildRow s) s.raw).bind fun m => .ok { s with ch := ch', raw := m } := by
  have hrows : loop s.height.toNat (buildRow { s with ch := ch' }) s.raw = loop s.height.toNat (buildRow s) s.raw :=
    loop_congr _ fun r hr m => loop_congr _ fun c hc m => loop_congr _ fun k hk m =>
      have hi := State.sampleIndex_lt hr hc
      buildSample_withChannels (hw k _ hk hi) (hsame k _ hk hi) m
  rw [← hrows]
  rfl

end

/-- Settles O21: the rows are built alike, and the rest of the state is carried along. -/
theorem slbBuildReadsOnlyUsedCells : Obligations.SlbBuildReadsOnlyUsedCells := by
  rintro s t s' ch' hd hm hw rfl hsame h
  obtain ⟨m, hrun, _⟩ := opSlbBuild_built ⟨hd, hm⟩ hw
  rw [exec_slbBuild, hrun, outcome_ok] at h
  cases h
  obtain ⟨m', hloop, hm'⟩ := bind_eq_ok hrun
  cases hm'
  rw [exec_slbBuild, opSlbBuild_withChannels hw hsame, hloop, bind_ok, outcome_ok]

end Sys2Proof.Machine
end

section
/-! The statements of the Filter Engine: the Paeth predictor and its edges, the filtered bytes as numbers, the identity of
FLT.NONE. -/

namespace Sys2Proof.Machine

/-! ## The Paeth predictor -/

/-- The distance of a byte `x` to `a + b - c_`, in the integers (42 R158). -/
def paethDistance (a b c_ x : Byte) : Nat := ((a.toNat + b.toNat - c_.toNat : Int) - x.toNat).natAbs

section
variable {a b c_ : Byte}

theorem paeth_eq_first (h : paethDistance a b c_ a ≤ paethDistance a b c_ b ∧
    paethDistance a b c_ a ≤ paethDistance a b c_ c_) : paeth a b c_ = a :=
  if_pos h

theorem paeth_eq_second (hn : ¬ (paethDistance a b c_ a ≤ paethDistance a b c_ b ∧
    paethDistance a b c_ a ≤ paethDistance a b c_ c_))
    (h : paethDistance a b c_ b ≤ paethDistance a b c_ c_) : paeth a b c_ = b :=
  (if_neg hn).trans (if_pos h)

theorem paeth_eq_third (hn : ¬ (paethDistance a b c_ a ≤ paethDistance a b c_ b ∧
    paethDistance a b c_ a ≤ paethDistance a b c_ c_))
    (h : ¬ paethDistance a b c_ b ≤ paethDistance a b c_ c_) : paeth a b c_ = c_ :=
  (if_neg hn).trans (if_neg h)

variable (a b c_)

/-- The predictor returns one of its inputs, and none is nearer. -/
theorem paeth_nearest :
    (paeth a b c_ = a ∨ paeth a b c_ = b ∨ paeth a b c_ = c_) ∧
      paethDistance a b c_ (paeth a b c_) ≤ paethDistance a b c_ a ∧
      paethDistance a b c_ (paeth a b c_) ≤ paethDistance a b c_ b ∧
      paethDistance a b c_ (paeth a b c_) ≤ paethDistance a b c_ c_ := by
  by_cases ha : paethDistance a b c_ a ≤ paethDistance a b c_ b ∧ paethDistance a b c_ a ≤ paethDistance a b c_ c_
  · rw [paeth_eq_first ha]
    exact ⟨.inl rfl, le_rfl, ha⟩
  by_cases hb : paethDistance a b c_ b ≤ paethDistance a b c_ c_
  · rw [paeth_eq_second ha hb]
    exact ⟨.inr (.inl rfl), by omega, le_rfl, hb⟩
  · rw [paeth_eq_third ha hb]
    exact ⟨.inr (.inr rfl), by omega, by omega, le_rfl⟩

end

/-- Settles O24: each branch of the predictor, and the input it returns is nearest. -/
theorem paethPicksTheNearestInput : Obligations.PaethPicksTheNearestInput := by
  intro a b c_ p d
  obtain ⟨hmem, ha, hb, hc⟩ := paeth_nearest a b c_
  exact ⟨hmem, ha, hb, hc, fun hab hac => paeth_eq_first ⟨hab, hac⟩, paeth_eq_second, paeth_eq_third⟩

/-! ### The edges of the predictor -/

/-- Only the byte `a + b - c_` itself is at distance 0. -/
theorem paethDistance_eq_zero {a b c_ x : Byte} :
    paethDistance a b c_ x = 0 ↔ (x.toNat : Int) = a.toNat + b.toNat - c_.toNat := by
  rw [paethDistance, Int.natAbs_eq_zero, sub_eq_zero, eq_comm]

/-- A byte no farther from `a + b - c_` than a byte at distance 0 is that byte. -/
theorem eq_of_paethDistance_le {a b c_ x y : Byte} (hx : paethDistance a b c_ x = 0)
    (hy : paethDistance a b c_ y ≤ paethDistance a b c_ x) : y = x := by
  have hy0 : paethDistance a b c_ y = 0 := by omega
  rw [paethDistance_eq_zero] at hx hy0
  exact BitVec.eq_of_toNat_eq (by omega)

/-- Where the upper and the upper left byte are equal the prediction is the left byte. -/
theorem paeth_up_eq_upLeft (a b : Byte) : paeth a b b = a :=
  eq_of_paethDistance_le (paethDistance_eq_zero.2 (by omega)) (paeth_nearest a b b).2.1

/-- Where the left and the upper left byte are equal the prediction is the upper byte. -/
theorem paeth_left_eq_upLeft (a b : Byte) : paeth a b a = b :=
  eq_of_paethDistance_le (paethDistance_eq_zero.2 (by omega)) (paeth_nearest a b a).2.2.1

/-! ## The filter operations on a written frame -/

theorem exec_fltNone (s : State) : exec .fltNone s = outcome (opFilter .none s) := rfl

theorem exec_fltSub (s : State) : exec .fltSub s = outcome (opFilter .sub s) := rfl

theorem exec_fltUp (s : State) : exec .fltUp s = outcome (opFilter .up s) := rfl

theorem exec_fltAvg (s : State) : exec .fltAvg s = outcome (opFilter .average s) := rfl

theorem exec_fltPaeth (s : State) : exec .fltPaeth s = outcome (opFilter .paeth s) := rfl

/-- An operation that performs `Filter(kind)` leaves the filtered frame in FILT and changes nothing else. -/
theorem exec_filter_written {i : Instr} {kind : FilterKind} {s : State} {raw : Nat → Nat → Byte}
    (hi : exec i s = outcome (opFilter kind s)) (h : s.rawHolds raw) :
    ∃ t, exec i s = .next t ∧ t = { s with filt := t.filt } ∧
      (∀ r j, r < s.height.toNat → j < s.stride → t.filt.read (s.rowIndex r j) = some (filterAt kind s raw r j)) ∧
      ∀ a, s.frameSize ≤ a → t.filt.read a = s.filt.read a := by
  obtain ⟨m, hm, hread, hothers, _⟩ := opFilter_ok kind h
  exact ⟨{ s with filt := m }, by rw [hi, hm, outcome_ok], rfl, hread, hothers⟩

theorem filterAt_tag (kind : FilterKind) (s : State) (raw : Nat → Nat → Byte) (r : Nat) :
    filterAt kind s raw r 0 = raw r 0 :=
  if_pos rfl

/-- R160: kind 0 predicts 0, so every byte stays as it is. -/
theorem filterAt_none (s : State) (raw : Nat → Nat → Byte) (r j : Nat) : filterAt .none s raw r j = raw r j := by
  by_cases h0 : j = 0
  · rw [h0, filterAt_tag]
  · rw [filterAt, if_neg h0]
    exact BitVec.sub_zero _

/-- Settles O23: kind 0 leaves every byte of the frame as it is. -/
theorem filterNoneIsIdentity : Obligations.FilterNoneIsIdentity := by
  refine ⟨by decide, rfl, fun s hw => ?_⟩
  obtain ⟨raw, hraw⟩ : ∃ raw, s.rawHolds raw := ⟨_, rawHolds_of_isSome hw⟩
  obtain ⟨t, ht, hframe, hread, hothers⟩ := exec_filter_written (exec_fltNone s) hraw
  refine ⟨t, ht, hframe, fun a ha => ?_, hothers⟩
  obtain ⟨r, j, hr, hj, rfl⟩ := State.exists_rowIndex ha
  rw [hread r j hr hj, filterAt_none, hraw r j hr hj]

/-! ### Paeth on the edges of the frame -/

/-- On the first row no byte lies above, and Paeth is Sub. -/
theorem filterAt_paeth_firstRow (s : State) (raw : Nat → Nat → Byte) (j : Nat) :
    filterAt .paeth s raw 0 j = filterAt .sub s raw 0 j := by
  have hr : ¬ 1 ≤ 0 := Nat.not_succ_le_zero 0
  simp only [filterAt, predictor, hr, false_and, if_false, paeth_up_eq_upLeft]

/-- In the first pixel of a row no byte lies to the left, and Paeth is Up. -/
theorem filterAt_paeth_firstColumn {s : State} {j : Nat} (hj : j ≤ s.pstride) (raw : Nat → Nat → Byte) (r : Nat) :
    filterAt .paeth s raw r j = filterAt .up s raw r j := by
  simp only [filterAt, predictor, Nat.not_lt.2 hj, and_false, if_false, paeth_left_eq_upLeft]

/-- Settles O25: the predictor with two equal inputs, and the filtered bytes of the three operations on the edges. -/
theorem paethEdgesAreSubAndUp : Obligations.PaethEdgesAreSubAndUp := by
  refine ⟨fun a b c_ => (paeth_nearest a b c_).1, fun a => paeth_up_eq_upLeft a 0, fun b => paeth_left_eq_upLeft 0 b,
    by decide, by decide, by decide, by decide, by decide, by decide, fun s hw => ?_⟩
  obtain ⟨raw, hraw⟩ : ∃ raw, s.rawHolds raw := ⟨_, rawHolds_of_isSome hw⟩
  obtain ⟨p, hp, _, hpaeth, _⟩ := exec_filter_written (exec_fltPaeth s) hraw
  obtain ⟨u, hu, _, hsub, _⟩ := exec_filter_written (exec_fltSub s) hraw
  obtain ⟨v, hv, _, hup, _⟩ := exec_filter_written (exec_fltUp s) hraw
  refine ⟨p, u, v, hp, hu, hv, fun j hr hj => ?_, fun r j _ hr _ hjp hj => ?_⟩
  · have hindex : j = s.rowIndex 0 j := by rw [State.rowIndex, Nat.zero_mul, Nat.zero_add]
    rw [hindex, hpaeth 0 j hr hj, hsub 0 j hr hj, filterAt_paeth_firstRow]
  · exact (hpaeth r j hr hj).trans ((congrArg some (filterAt_paeth_firstColumn hjp raw r)).trans (hup r j hr hj).symm)

/-! ### The filtered bytes as numbers -/

/-- `Pred` of R153 on numbers from 0 to 255. -/
def predictorNat (kind : FilterKind) (a b c_ : Nat) : Nat :=
  match kind with
  | .none => 0
  | .sub => a
  | .up => b
  | .average => (a + b) / 2
  | .paeth => (paeth (BitVec.ofNat 8 a) (BitVec.ofNat 8 b) (BitVec.ofNat 8 c_)).toNat

/-- The sum of Average is exact and its half is a byte (R155), so no predictor wraps. -/
theorem predictorNat_toNat (kind : FilterKind) (a b c_ : Byte) :
    predictorNat kind a.toNat b.toNat c_.toNat = (predictor kind a b c_).toNat := by
  cases kind with
  | none | sub | up => rfl
  | average =>
    rw [predictorNat, predictor, BitVec.toNat_ofNat]
    omega
  | paeth => simp only [predictorNat, predictor, BitVec.ofNat_toNat, BitVec.setWidth_eq]

theorem toNat_neighbour (p : Prop) [Decidable p] (x : Byte) :
    (if p then x.toNat else 0) = (if p then x else 0).toNat :=
  (apply_ite BitVec.toNat p x 0).symm

/-- Subtraction of bytes is modulo 256 (R154). -/
theorem toNat_byte_sub (x y : Byte) : (x - y).toNat = (x.toNat + 256 - y.toNat) % 256 := by
  rw [BitVec.toNat_sub]
  omega

theorem filterOperation_of_mem {kind : FilterKind} {i : Instr} {code : Nat}
    (h : (kind, i, code) ∈ [(FilterKind.none, Instr.fltNone, 0), (.sub, .fltSub, 1), (.up, .fltUp, 2),
      (.average, .fltAvg, 3), (.paeth, .fltPaeth, 4)]) :
    encode i = BitVec.ofNat 32 (0x30 + code) ∧ i.hostIssuable = false ∧
      ∀ s, exec i s = outcome (opFilter kind s) := by
  simp only [List.mem_cons, Prod.mk.injEq, List.not_mem_nil, or_false] at h
  rcases h with ⟨rfl, rfl, rfl⟩ | ⟨rfl, rfl, rfl⟩ | ⟨rfl, rfl, rfl⟩ | ⟨rfl, rfl, rfl⟩ | ⟨rfl, rfl, rfl⟩
  · exact ⟨by decide, rfl, exec_fltNone⟩
  · exact ⟨by decide, rfl, exec_fltSub⟩
  · exact ⟨by decide, rfl, exec_fltUp⟩
  · exact ⟨by decide, rfl, exec_fltAvg⟩
  · exact ⟨by decide, rfl, exec_fltPaeth⟩

/-- Settles O22: the filtered frame of the kind, read as numbers. -/
theorem filterOperationsReplaceEveryByte : Obligations.FilterOperationsReplaceEveryByte := by
  intro kind i code hmem
  obtain ⟨hencode, hissue, hexec⟩ := filterOperation_of_mem hmem
  refine ⟨hencode, hissue, fun s raw hraw => ?_⟩
  obtain ⟨t, ht, hframe, hread, hothers⟩ := exec_filter_written (hexec s) hraw
  refine ⟨t, ht, hframe, fun r hr => (hread r 0 hr s.stride_pos).trans (congrArg some (filterAt_tag kind s raw r)),
    fun r j hr hj0 hj => ⟨_, hread r j hr hj, ?_⟩, hothers⟩
  intro x a b c_ pred
  have hpred : pred = (predictor kind (if s.pstride < j then raw r (j - s.pstride) else 0)
      (if 1 ≤ r then raw (r - 1) j else 0)
      (if 1 ≤ r ∧ s.pstride < j then raw (r - 1) (j - s.pstride) else 0)).toNat := by
    rw [← predictorNat_toNat, ← toNat_neighbour, ← toNat_neighbour, ← toNat_neighbour]
    rfl
  rw [hpred, filterAt, if_neg (by omega : j ≠ 0), toNat_byte_sub]
  exact ⟨by omega, rfl⟩

end Sys2Proof.Machine
end

section
/-! The statements of the Checksum Engine: the table's construction and the bit-serial step, the five operations, the
reference vector. -/

namespace Sys2Proof.Machine

/-! ## The table-driven step and the bit-serial one -/

/-- The eight steps of R181 as the statements write them: a step that does not look at its index, run over eight. -/
theorem foldl_range_eight_bitStep (c : Word) :
    (List.range 8).foldl (fun (c : Word) _ => if c.getLsbD 0 then (0xEDB88320 : Word) ^^^ (c >>> 1) else c >>> 1) c =
      crcBitStep^[8] c :=
  List.foldl_const crcBitStep c (List.range 8)

theorem tblEntry_eq_iterate (n : Nat) : tblEntry n = crcBitStep^[8] (BitVec.ofNat 32 n) := rfl

/-- The constants of R182 and the construction of R181 are two closed tables, compared entry by entry. -/
theorem tblc_eq_tblEntry : ∀ n : Fin 256, tblc[n] = tblEntry n.val := by
  decide +kernel

/-- Settles O10: an entry is eight bit steps from its index. -/
theorem tableConstantsFollowTheConstruction : Obligations.TableConstantsFollowTheConstruction := by
  intro n
  rw [foldl_range_eight_bitStep, tblc_eq_tblEntry, tblEntry_eq_iterate]

/-- A bit step is linear over XOR: two odd words are XORed with the polynomial each, and the polynomials cancel. -/
theorem crcBitStep_xor (x y : Word) : crcBitStep (x ^^^ y) = crcBitStep x ^^^ crcBitStep y := by
  unfold crcBitStep
  rw [BitVec.getLsbD_xor, BitVec.ushiftRight_xor_distrib]
  cases x.getLsbD 0 <;> cases y.getLsbD 0
  case false.false => rfl
  case false.true =>
    show Config.crcPoly ^^^ (x >>> 1 ^^^ y >>> 1) = x >>> 1 ^^^ (Config.crcPoly ^^^ y >>> 1)
    rw [← BitVec.xor_assoc, ← BitVec.xor_assoc, BitVec.xor_comm Config.crcPoly]
  case true.false => exact (BitVec.xor_assoc ..).symm
  case true.true =>
    show x >>> 1 ^^^ y >>> 1 = (Config.crcPoly ^^^ x >>> 1) ^^^ (Config.crcPoly ^^^ y >>> 1)
    rw [BitVec.xor_comm Config.crcPoly (x >>> 1), BitVec.xor_assoc, xor_cancel_left]

theorem iterate_crcBitStep_xor (k : Nat) (x y : Word) :
    crcBitStep^[k] (x ^^^ y) = crcBitStep^[k] x ^^^ crcBitStep^[k] y := by
  induction k generalizing x y with
  | zero => rfl
  | succ k ih => simp only [Function.iterate_succ_apply, crcBitStep_xor, ih]

/-- While the bits shifted out are 0 the polynomial never enters. -/
theorem iterate_crcBitStep_of_low_zero {k : Nat} {c : Word} (h : ∀ i < k, c.getLsbD i = false) :
    crcBitStep^[k] c = c >>> k := by
  induction k with
  | zero => exact (BitVec.ushiftRight_zero c).symm
  | succ k ih =>
    have hk : (c >>> k).getLsbD 0 = false := by
      rw [BitVec.getLsbD_ushiftRight]
      exact h k (Nat.lt_succ_self k)
    rw [Function.iterate_succ_apply', ih fun i hi => h i (Nat.lt_succ_of_lt hi), crcBitStep, hk,
      BitVec.shiftRight_add]
    rfl

/-- Eight bit steps work on the low byte alone and shift the other three down. -/
theorem iterate_eight_crcBitStep (c : Word) :
    crcBitStep^[8] c = crcBitStep^[8] (c &&& 0xFF#32) ^^^ (c >>> 8) := by
  have hlow : ∀ i < 8, (c &&& 0xFF#32 ^^^ c).getLsbD i = false := by
    intro i hi
    have hones : ∀ i < 8, (0xFF#32).getLsbD i = true := by decide
    rw [BitVec.getLsbD_xor, BitVec.getLsbD_and, hones i hi, Bool.and_true, Bool.xor_self]
  have hhigh : (c &&& 0xFF#32 ^^^ c) >>> 8 = c >>> 8 := by
    have hbyte : (c &&& 0xFF#32) >>> 8 = 0#32 := by
      rw [BitVec.ushiftRight_and_distrib]; exact BitVec.and_zero
    rw [BitVec.ushiftRight_xor_distrib, hbyte, BitVec.zero_xor]
  calc crcBitStep^[8] c
    _ = crcBitStep^[8] ((c &&& 0xFF#32) ^^^ (c &&& 0xFF#32 ^^^ c)) := by rw [xor_cancel_left]
    _ = crcBitStep^[8] (c &&& 0xFF#32) ^^^ (c >>> 8) := by
        rw [iterate_crcBitStep_xor, iterate_crcBitStep_of_low_zero hlow, hhigh]

/-- The table's entry at the index R190 gives is eight bit steps from the low byte. -/
theorem tblc_tblIndex (acc : Word) (b : Byte) :
    tblc[tblIndex acc b] = crcBitStep^[8] ((acc ^^^ b.setWidth 32) &&& 0xFF#32) := by
  rw [tblc_eq_tblEntry, tblEntry_eq_iterate]
  exact congrArg crcBitStep^[8] (BitVec.ofNat_toNat 32 ((acc ^^^ b.setWidth 32) &&& 0xFF#32))

/-- A byte folded in does not reach the bits above the lowest eight. -/
theorem xor_setWidth_ushiftRight_eight (acc : Word) (b : Byte) : (acc ^^^ b.setWidth 32) >>> 8 = acc >>> 8 := by
  have hbyte : b.setWidth 32 >>> 8 = 0#32 := by
    rw [← BitVec.setWidth_ushiftRight (by decide), BitVec.ushiftRight_eq_zero (by decide), BitVec.setWidth_zero]
  rw [BitVec.ushiftRight_xor_distrib, hbyte, BitVec.xor_zero]

/-- Settles O11: the low byte's eight steps are a table entry, and the rest is shifted down. -/
theorem crcStepIsBitSerial : Obligations.CrcStepIsBitSerial := by
  intro acc b
  rw [foldl_range_eight_bitStep, iterate_eight_crcBitStep, xor_setWidth_ushiftRight_eight, ← tblc_tblIndex]
  rfl

/-! ## The operations of the engine -/

theorem exec_crcTbl (s : State) : exec .crcTbl s = .next { s with tbl := tblc, tblValid := true } := rfl

theorem exec_crcInit (s : State) : exec .crcInit s = .next { ensureTable s with crcAcc := Config.crcOnes } := rfl

theorem exec_crcUpd (b : Byte) (s : State) :
    exec (.crcUpd b) s = .next { ensureTable s with crcAcc := crcStepWith (ensureTable s).tbl s.crcAcc b } := rfl

theorem exec_crcFin (s : State) : exec .crcFin s = .next { s with crcOut := s.crcAcc ^^^ Config.crcOnes } := rfl

theorem exec_crcBuf (s : State) : exec .crcBuf s = outcome (opCrcBuf s) := rfl

/-- `EnsureTable` of R184 with its whole frame, in every state. -/
theorem ensureTable_eq (s : State) :
    ensureTable s = { s with tbl := if s.tblValid then s.tbl else tblc, tblValid := true } := by
  rw [← ensureTable_tbl, ← ensureTable_tblValid s]
  unfold ensureTable
  split <;> rfl

/-- The step of R186 with its index written out. -/
theorem crcStep_eq_getElem! (acc : Word) (b : Byte) :
    crcStep acc b = tblc[((acc ^^^ b.setWidth 32) &&& 0xFF#32).toNat]! ^^^ (acc >>> 8) := by
  rw [getElem!_pos tblc _ (tblIndex acc b).isLt]
  rfl

/-- The word of CRC.UPD: its byte in bits [15:8] above its opcode (30 R91). -/
theorem encode_crcUpd (b : Byte) : encode (.crcUpd b) = (b.setWidth 32 <<< 8) ||| 0x12 := by
  have hfields := BitVec.setWidth_append_append_eq_shiftLeft_setWidth_or (w''' := 32) (b := 0#16) (b' := b)
    (b'' := 0x12#8)
  have hhigh : (0#16).setWidth 32 <<< (8 + 8) = 0#32 := by decide
  rwa [BitVec.setWidth_eq, hhigh, BitVec.zero_or] at hfields

/-- Settles O12: both runs write the constants. -/
theorem crcTblBuildsTheTable : Obligations.CrcTblBuildsTheTable :=
  ⟨by decide, rfl, fun s => ⟨exec_crcTbl s, exec_crcTbl _⟩⟩

/-- Settles O13: the frame of `EnsureTable`, and CRC_ACC. -/
theorem crcInitStartsAChecksum : Obligations.CrcInitStartsAChecksum := by
  refine ⟨by decide, rfl, fun s => ?_⟩
  rw [exec_crcInit, ensureTable_eq]
  rfl

/-- Settles O14: under the invariant of R184 the table ensured is the constants, and the step with it is `CrcStep`. -/
theorem crcUpdFoldsOneByte : Obligations.CrcUpdFoldsOneByte := by
  refine ⟨fun b => ⟨encode_crcUpd b, rfl⟩, fun s b h => ?_⟩
  rw [exec_crcUpd, ensureTable_of_tblOk h, crcStepWith_tblc, crcStep_eq_getElem!]

/-- Settles O15: the operation reads CRC_ACC only. -/
theorem crcFinFinalises : Obligations.CrcFinFinalises :=
  ⟨by decide, rfl, exec_crcFin⟩

/-- Settles O16: all cells are read, or ACC_IDX has no value, or a cell below it has none. -/
theorem crcBufChecksumsTheMirror : Obligations.CrcBufChecksumsTheMirror := by
  refine ⟨by decide, rfl, fun s => ⟨fun n m h hidx hlen hread => ?_, fun hidx => ?_,
    fun n a hidx ha hnone => ?_⟩⟩
  · rw [exec_crcBuf, opCrcBuf_ok hidx hlen hread, checksum_of_tblOk h]
    rfl
  · rw [exec_crcBuf, opCrcBuf_no_index hidx, outcome_fault]
  · rw [exec_crcBuf, opCrcBuf_no_cell hidx ⟨a, ha, hnone⟩, outcome_fault]

/-! ## The reference vector -/

/-- The accumulator of R191 after each byte of TAG_IEND. -/
theorem crcStep_tagIend :
    crcStep 0xFFFFFFFF 0x49 = 0x22FDE946 ∧ crcStep 0x22FDE946 0x45 = 0x992BAC53 ∧
    crcStep 0x992BAC53 0x4E = 0x639F4775 ∧ crcStep 0x639F4775 0x44 = 0x51BD9F7D := by
  decide +kernel

/-- Settles O17: the checksum is the four steps in a row and the final XOR. -/
theorem referenceVectorOfTheTrailerTag : Obligations.ReferenceVectorOfTheTrailerTag := by
  obtain ⟨h0, h1, h2, h3⟩ := crcStep_tagIend
  have hfinal : (0x51BD9F7D : Word) ^^^ 0xFFFFFFFF = 0xAE426082 := by decide
  refine ⟨?_, rfl, h0, h1, h2, h3, hfinal⟩
  rw [crc32, Config.crcOnes, List.foldl_cons, List.foldl_cons, List.foldl_cons, List.foldl_cons, List.foldl_nil,
    h0, h1, h2, h3, hfinal]

end Sys2Proof.Machine
end

section
/-! The statements of the Container Writer: ACC.SIZE, the signature and the three chunks with every write accepted, the
accumulator that overflows, and the failures of ENCODE in which no write is rejected. -/

namespace Sys2Proof.Machine

/-! ## ACC.SIZE and WR.SIG -/

theorem exec_accSize (s : State) : exec .accSize s = .next { s with accCap := some s.accCapParam, accIdx := some 0 } :=
  rfl

theorem exec_wrSig (s : State) : exec .wrSig s = outcome (opWrSig s) := rfl

/-- Settles O33: the capacity is the parameter, whose bound is R8's. -/
theorem accSizeSetsTheCapacity : Obligations.AccSizeSetsTheCapacity :=
  ⟨by decide, rfl, fun s => ⟨exec_accSize s, fun ha => (capacitiesMeetTheirBounds s ha).1⟩⟩

/-- Settles O34: eight writes accepted, none of them mirrored. -/
theorem wrSigSendsTheSignature : Obligations.WrSigSendsTheSignature := by
  refine ⟨by decide, rfl, fun s h => ?_⟩
  have hsend : putRawSeq Config.sig s = .ok (sent Config.sig s) := putRawSeq_accept h
  rw [exec_wrSig, opWrSig, hsend, bind_ok, outcome_ok]
  rfl

/-! ## The chunk operations with every write accepted -/

/-- The operation `i` in `s` is `WriteChunk(tag, data)` and then the writer state `w` (44 R223 to R225). -/
def WritesChunk (i : Instr) (tag data : List Byte) (w : WState) (s : State) : Prop :=
  exec i s = outcome ((writeChunk tag data s).bind fun s => .ok { s with wstate := w })

theorem wrIhdr_writesChunk (s : State) : WritesChunk .wrIhdr Config.tagIhdr (ihdrData s) .headerWritten s := rfl

theorem wrIdat_writesChunk {s : State} {z : List Byte} (h : s.compHolds z) :
    WritesChunk .wrIdat Config.tagIdat z .dataWritten s := by
  rw [WritesChunk, exec, execWrIdat, opWrIdat_eq h]

theorem wrIend_writesChunk (s : State) : WritesChunk .wrIend Config.tagIend [] .trailerWritten s := rfl

/-- A chunk operation with every write accepted and room in ACCBUF: the state it ends in, and ACCBUF cell by cell. -/
theorem WritesChunk.accepted {i : Instr} {tag data : List Byte} {w : WState} {s : State} {cap : Word}
    (hi : WritesChunk i tag data w s) (ht : s.tblOk) (hc : s.accCap = some cap)
    (hroom : tag.length + data.length ≤ cap.toNat)
    (h : ∀ k < (chunk tag data).length, s.sinkDraws.answer k = .accept) :
    exec i s = .next (afterChunk tag data w s) ∧
    (∀ a < (tag ++ data).length, (afterChunk tag data w s).accbuf.read a = (tag ++ data)[a]?) ∧
    ∀ a, (tag ++ data).length ≤ a → (afterChunk tag data w s).accbuf.read a = s.accbuf.read a := by
  refine ⟨by rw [hi, chunkOp_accept w ht hc hroom h, outcome_ok], fun a ha => writeSeq_read _ _ a ha, fun a ha => ?_⟩
  rw [afterChunk, Memory.read_writeSeq, if_neg (by omega)]

theorem ihdrData_length (s : State) : (ihdrData s).length = 13 := rfl

/-- Settles O35: the header chunk is `Chunk(TAG_IHDR, H)`, 4 + 13 bytes of it mirrored. -/
theorem wrIhdrSendsTheHeaderChunk : Obligations.WrIhdrSendsTheHeaderChunk := by
  refine ⟨by decide, rfl, fun s cap ht hc hroom h => ?_⟩
  have hchunk : ∀ k < (chunk Config.tagIhdr (ihdrData s)).length, s.sinkDraws.answer k = .accept := by
    rwa [ihdr_chunk_length]
  obtain ⟨hexec, hread, hrest⟩ := (wrIhdr_writesChunk s).accepted ht hc hroom hchunk
  intro body bytes
  have hbody : Config.tagIhdr ++ ihdrData s = body := rfl
  have hlength : be32 (BitVec.ofNat 32 (ihdrData s).length) = [0x00, 0x00, 0x00, 0x0D] := by
    rw [ihdrData_length]; decide
  have hbytes : chunk Config.tagIhdr (ihdrData s) = bytes := by
    rw [chunk, List.append_assoc (be32 _), hbody, hlength]
  refine ⟨_, hexec, ?_, hread, hrest⟩
  rw [afterChunk, ihdr_chunk_length, hbytes, hbody]
  rfl

/-- COMP with its length held in a register is COMP holding those bytes. -/
theorem compHolds_of_register {s : State} {n : Word} {z : List Byte} (hn : s.compLen = some n)
    (hlen : z.length = n.toNat) (hz : ∀ a < n.toNat, s.comp.read a = z[a]?) : s.compHolds z := by
  refine ⟨?_, ?_, ?_⟩
  · rw [hlen, BitVec.ofNat_toNat, BitVec.setWidth_eq, hn]
  · rw [hlen]; exact n.isLt
  · rwa [hlen]

/-- ACC_IDX after a chunk of `n` data bytes: the four tag bytes too are mirrored. -/
theorem idat_mirrored_length {n : Word} {z : List Byte} (hlen : z.length = n.toNat) :
    BitVec.ofNat 32 (Config.tagIdat ++ z).length = 4 + n := by
  rw [List.length_append, hlen, BitVec.ofNat_add, BitVec.ofNat_toNat, BitVec.setWidth_eq]
  rfl

/-- Settles O36: the data chunk is `Chunk(TAG_IDAT, COMP[0 .. COMP_LEN - 1])`. -/
theorem wrIdatSendsTheDataChunk : Obligations.WrIdatSendsTheDataChunk := by
  refine ⟨by decide, rfl, fun s cap n z ht hc hn hlen hz hroom h => ?_⟩
  have hchunk : ∀ k < (chunk Config.tagIdat z).length, s.sinkDraws.answer k = .accept := by
    rwa [idat_chunk_length, hlen]
  have hbytes : chunk Config.tagIdat z =
      be32 n ++ (Config.tagIdat ++ z) ++ be32 (crc32 (Config.tagIdat ++ z)) := by
    rw [chunk, hlen, BitVec.ofNat_toNat, BitVec.setWidth_eq, List.append_assoc (be32 n)]
  have hmirror : (Config.tagIdat ++ z).length = 4 + n.toNat := by
    rw [List.length_append, hlen]; rfl
  obtain ⟨hexec, hread, hrest⟩ := (wrIdat_writesChunk (compHolds_of_register hn hlen hz)).accepted ht hc
    (by rw [hlen]; exact hroom) hchunk
  rw [hmirror] at hread hrest
  refine ⟨_, hexec, ?_, hread, hrest⟩
  rw [afterChunk, idat_mirrored_length hlen, idat_chunk_length, hbytes, hlen]
  rfl

/-- The accumulator after the trailer's tag (43 R191). -/
theorem foldl_tagIend : Config.tagIend.foldl crcStep Config.crcOnes = 0x51BD9F7D := by
  obtain ⟨h0, h1, h2, h3⟩ := crcStep_tagIend
  rw [Config.tagIend, Config.crcOnes, List.foldl_cons, List.foldl_cons, List.foldl_cons, List.foldl_cons,
    List.foldl_nil, h0, h1, h2, h3]

theorem crc32_tagIend : crc32 Config.tagIend = 0xAE426082 := referenceVectorOfTheTrailerTag.1

/-- The trailer chunk written out (30 R116). -/
theorem chunk_tagIend :
    chunk Config.tagIend [] = [0x00, 0x00, 0x00, 0x00, 0x49, 0x45, 0x4E, 0x44, 0xAE, 0x42, 0x60, 0x82] := by
  rw [chunk, List.append_nil, List.append_nil, crc32_tagIend]
  decide

/-- Settles O37: the trailer chunk is `Chunk(TAG_IEND, [])`, whose checksum is the reference vector of R191. -/
theorem wrIendSendsTheTrailerChunk : Obligations.WrIendSendsTheTrailerChunk := by
  refine ⟨by decide, rfl, fun s cap ht hc hroom h => ?_⟩
  obtain ⟨hexec, hread, hrest⟩ := (wrIend_writesChunk s).accepted ht hc hroom h
  refine ⟨_, hexec, ?_, hread, hrest⟩
  rw [afterChunk, iend_chunk_length, chunk_tagIend, List.append_nil, foldl_tagIend, crc32_tagIend]
  rfl

/-! ## The accumulator that overflows -/

/-- Settles O39: `WriteChunk` raises the error in a state that differs from the first in the sink and the accumulator. -/
theorem accumulatorOverflowIsDetected : Obligations.AccumulatorOverflowIsDetected := by
  intro s i tag data cap hi hc hfull h
  obtain ⟨⟨w, hexec⟩, htag⟩ := exec_of_sendsChunk hi
  obtain ⟨u, hraise, hu⟩ := writeChunk_full (tag := tag) (data := data) hc (by rwa [htag]) h
  refine ⟨errorEntry .accumulatorOverflow u, by rw [hexec, hraise, bind_raise, outcome_raise], ?_⟩
  rw [hu]
  exact ⟨rfl, rfl, rfl, rfl, rfl, rfl, rfl, released_release _, rfl, rfl, rfl, rfl, rfl, rfl, rfl, rfl, rfl, rfl, rfl⟩

/-! ## The failures of ENCODE with every write accepted -/

theorem CompFailure.cause_kind (f : CompFailure) : f.cause.kind = .compression := by
  cases f <;> rfl

/-- An ENCODE whose compressor fails raises that failure where CMP.CALL stands. -/
theorem opEncode_compressorFails {s : State} {f : CompFailure} (h : s.configOk) (ha : s.admitted = true)
    (hw : s.channelsWritten) (hf : s.compDraws.head = .fail f) :
    ∃ input raw filt, opEncode s = raise f.cause (compressorCalled input (atCompressor raw filt s)) := by
  obtain ⟨kind, hk⟩ := FilterKind.ofCode_isSome h.2.2
  obtain ⟨raw, filt, hfilt, _, _, hrun⟩ := opEncode_compress h ha hw hk
  exact ⟨_, raw, filt, by rw [hrun, opCmpCall_fail hfilt hf, bind_raise]⟩

/-- An ENCODE whose compressor succeeds goes on to its Write phase. -/
theorem opEncode_compressed {s : State} {z : List Byte} (h : s.configOk) (ha : s.admitted = true)
    (hw : s.channelsWritten) (hz : s.compDraws.head = .ok z) (hcap : z.length ≤ s.compCapParam.toNat) :
    ∃ raw filt kind, opEncode s =
      (encodeWrite (atWrite raw filt kind z s)).bind fun s => .ok (finishEncode s) := by
  obtain ⟨kind, hk⟩ := FilterKind.ofCode_isSome h.2.2
  obtain ⟨raw, filt, hfilt, _, _, hrun⟩ := opEncode_compress h ha hw hk
  exact ⟨raw, filt, kind, by rw [hrun, opCmpCall_ok hfilt hz hcap, bind_ok]; rfl⟩

/-- The Write phase makes no more writes than a successful one. -/
theorem writesMade_le (s : State) (z : List Byte) : writesMade s z ≤ 57 + z.length := by
  unfold writesMade
  split
  · omega
  · split <;> omega

/-- The state in which an ENCODE begun in `s` raises InternalInvariantError: `n` bytes of the success stream are in SINK, the
writer is in state `w`. -/
structure OverflowedAt (s : State) (z : List Byte) (n : Nat) (w : WState) (u : State) : Prop where
  run : exec .encode s = .next (errorEntry .accumulatorOverflow u)
  sink : u.sink = s.sink ++ (encodeStream s z).take n
  phase : u.phase = .write
  done : u.done = false
  wstate : u.wstate = w

theorem OverflowedAt.errReg {s u : State} {z : List Byte} {n : Nat} {w : WState} (h : OverflowedAt s z n w u) :
    (errorEntry .accumulatorOverflow u).errReg = errWord 3 5 0x21 w.code := by
  rw [errorEntry_errReg, h.phase, h.wstate]
  rfl

/-- An ENCODE with every write accepted and too little room in ACCBUF: it overflows at the header chunk, the checksum
registers untouched, or at the data chunk, CRC_OUT being the header chunk's checksum. -/
theorem exec_encode_overflow {s : State} {z : List Byte} (h : s.configOk) (ha : s.admitted = true)
    (hw : s.channelsWritten) (ht : s.tblOk) (hz : s.compDraws.head = .ok z) (hcap : z.length ≤ s.compCapParam.toNat)
    (haccept : ∀ k < 57 + z.length, s.sinkDraws.answer k = .accept)
    (hfull : s.accCapParam.toNat < 17 ∨ s.accCapParam.toNat < 4 + z.length) :
    ∃ u, OverflowedAt s z (writesMade s z)
        (if s.accCapParam.toNat < 17 then .signatureWritten else .headerWritten) u ∧
      (s.accCapParam.toNat < 17 → u.crcAcc = s.crcAcc ∧ u.crcOut = s.crcOut) ∧
      (17 ≤ s.accCapParam.toNat → u.crcOut = crc32 (Config.tagIhdr ++ ihdrData s)) := by
  obtain ⟨raw, filt, kind, hrun⟩ := opEncode_compressed h ha hw hz hcap
  obtain ⟨u, hraise, ⟨hu⟩, hheader, hdata⟩ := encodeWrite_full (s := atWrite raw filt kind z s) ht
    (atWrite_compHolds hcap) hfull fun m hm => haccept m (Nat.lt_of_lt_of_le hm (writesMade_le _ z))
  have hexec : exec .encode s = .next (errorEntry .accumulatorOverflow u) := by
    rw [exec_encode, hrun, hraise, bind_raise, outcome_raise]
  refine ⟨u, ⟨hexec, ?_, ?_, ?_, ?_⟩, fun h17 => ?_, hdata⟩
  · rw [hu]; rfl
  · rw [hu]
  · rw [hu]; rfl
  · rw [hu]; rfl
  · obtain ⟨hacc, hout, _⟩ := hheader h17
    exact ⟨hacc, hout⟩

/-- Settles O42: the compressor's failure, and the overflow at the header chunk or at the data chunk. -/
theorem encodeFailsAsTheFunctionE : Obligations.EncodeFailsAsTheFunctionE := by
  intro s h ha hw ht
  refine ⟨fun f hf => ?_, fun z hz hcap haccept => ⟨fun h17 => ?_, fun h17 hfull => ?_⟩⟩
  · obtain ⟨input, raw, filt, hrun⟩ := opEncode_compressorFails h ha hw hf
    refine ⟨errorEntry f.cause (compressorCalled input (atCompressor raw filt s)),
      by rw [exec_encode, hrun, outcome_raise], rfl, rfl, rfl, rfl, rfl, rfl, ?_, rfl, rfl, rfl, rfl,
      released_release _⟩
    rw [errorEntry_errReg, f.cause_kind]
    rfl
  · obtain ⟨u, hu, hcrc, _⟩ := exec_encode_overflow h ha hw ht hz hcap haccept (.inl h17)
    rw [if_pos h17] at hu
    have hn : writesMade s z = 8 + 4 + s.accCapParam.toNat + 1 := by rw [writesMade, if_pos h17]; omega
    obtain ⟨hacc, hout⟩ := hcrc h17
    exact ⟨_, hu.run, hn ▸ hu.sink, rfl, rfl, hu.done, hu.wstate, hu.errReg, hacc, hout, released_release _⟩
  · obtain ⟨u, hu, _, hout⟩ := exec_encode_overflow h ha hw ht hz hcap haccept (.inr hfull)
    rw [if_neg (by omega)] at hu
    have hn : writesMade s z = 33 + 4 + s.accCapParam.toNat + 1 := by
      rw [writesMade, if_neg (by omega), if_pos hfull]; omega
    exact ⟨_, hu.run, hn ▸ hu.sink, rfl, rfl, hu.done, hu.wstate, hu.errReg, hout h17, released_release _⟩

end Sys2Proof.Machine
end

section
/-! The statements of the sequencer and its collaborators: CFG.CHK, CMP.CALL, and ENCODE past the compressor, with every
write accepted and with one rejected. -/

namespace Sys2Proof.Machine

/-! ## CFG.CHK -/

theorem exec_cfgChk_ok {s : State} (h : s.configOk) : exec .cfgChk s = .next s := by
  rw [exec, execCfgChk, opCfgChk_ok h, outcome_ok]

theorem exec_cfgChk_raise {s : State} (h : ¬ s.configOk) :
    exec .cfgChk s = .next (errorEntry (configCause s) s) := by
  rw [exec, execCfgChk, opCfgChk_raise h, outcome_raise]

theorem configCause_of_depth {s : State} (h : s.depth ≠ 8 ∧ s.depth ≠ 16) : configCause s = .badDepth := if_pos h

theorem configCause_of_cmode {s : State} (hd : s.depth = 8 ∨ s.depth = 16)
    (h : s.cmode ≠ Config.cmodeRgb ∧ s.cmode ≠ Config.cmodeRgba) : configCause s = .badChannelMode := by
  rw [configCause, if_neg (by rwa [not_and_or, not_not, not_not]), if_pos h]

theorem configCause_of_format {s : State} (h : s.formatOk) : configCause s = .badFilterKind := by
  obtain ⟨hd, hc⟩ := h
  rw [configCause, if_neg (by rwa [not_and_or, not_not, not_not]), if_neg (by rwa [not_and_or, not_not, not_not])]

/-- Settles O29: CFG.CHK raises exactly where the configuration is not legal, and the cause is the first in R254's order. -/
theorem cfgChkTestsInOrder : Obligations.CfgChkTestsInOrder := by
  refine ⟨by decide, rfl, fun s => ⟨fun h8 h16 => ?_, fun hd h2 h6 => ?_, fun hd hc hk => ?_, fun hd hc hk => ?_⟩⟩
  · have hbad : ¬ s.configOk := fun h => h.1.elim h8 h16
    rw [exec_cfgChk_raise hbad, configCause_of_depth ⟨h8, h16⟩]
  · have hbad : ¬ s.configOk := fun h => h.2.1.elim h2 h6
    rw [exec_cfgChk_raise hbad, configCause_of_cmode hd ⟨h2, h6⟩]
  · have hbad : ¬ s.configOk := fun h => Nat.not_le_of_lt hk h.2.2
    rw [exec_cfgChk_raise hbad, configCause_of_format ⟨hd, hc⟩]
  · exact exec_cfgChk_ok ⟨hd, hc, hk⟩

/-! ## CMP.CALL -/

theorem exec_cmpCall (s : State) : exec .cmpCall s = outcome (opCmpCall s) := rfl

/-- Settles O31: the call takes FILT's bytes, and COMP is the answer written from index 0. -/
theorem cmpCallStoresTheAnswer : Obligations.CmpCallStoresTheAnswer := by
  refine ⟨by decide, rfl, fun s input z hlen hfilt hz hcap => ?_⟩
  refine ⟨_, by rw [exec_cmpCall, opCmpCall_ok ⟨hlen, hfilt⟩ hz hcap, outcome_ok], rfl,
    fun a ha => writeSeq_read _ _ a ha, fun a ha => ?_⟩
  rw [Memory.read_writeSeq, if_neg (by omega)]

/-- Settles O32: one lemma of CMP.CALL for each answer; a failure's error is that of the state in which the call was made. -/
theorem cmpCallReportsFailures : Obligations.CmpCallReportsFailures := by
  refine fun s => ⟨fun h => by rw [exec_cmpCall, opCmpCall_unwritten h, outcome_fault], fun h => ?_⟩
  obtain ⟨input, hinput⟩ := State.exists_filtHolds h
  refine ⟨fun f hf => ?_, fun z hz hcap => ?_, fun hs => ?_⟩
  · refine ⟨errorEntry f.cause (compressorCalled input s),
      by rw [exec_cmpCall, opCmpCall_fail hinput hf, outcome_raise], ?_, rfl, rfl, rfl, rfl, rfl, rfl, rfl, rfl, rfl,
      released_release _⟩
    rw [errorEntry_errReg, f.cause_kind]
    cases f <;> rfl
  · rw [exec_cmpCall, opCmpCall_overrun hinput hz hcap, outcome_refused]
  · rw [exec_cmpCall, opCmpCall_silent hinput hs, outcome_fault]

/-! ## A successful ENCODE -/

/-- The state the Write phase ends in: the whole stream is sent, and the checksum registers are left by the trailer. -/
theorem afterIend_eq (z : List Byte) (s : State) :
    afterIend z s = { s with
      phase := .write, wstate := .trailerWritten
      sink := s.sink ++ encodeStream s z
      offered := s.offered ++ encodeStream s z
      sinkDraws := s.sinkDraws.drop (57 + z.length)
      tbl := tblc, tblValid := true, crcAcc := 0x51BD9F7D, crcOut := 0xAE426082
      accCap := (afterIend z s).accCap, accIdx := (afterIend z s).accIdx, accbuf := (afterIend z s).accbuf } := by
  have hdraws : (s.sinkDraws.drop (45 + z.length)).drop 12 = s.sinkDraws.drop (57 + z.length) := by
    rw [Draws.drop_drop]; congr 1; omega
  have hstream : ∀ l : List Byte, l ++ encodeStream s z = l ++ Config.sig ++ chunk Config.tagIhdr (ihdrData s) ++
      chunk Config.tagIdat z ++ chunk Config.tagIend [] := fun l => by
    simp only [encodeStream, List.append_assoc]
  rw [hstream, hstream, ← hdraws, afterIend, afterChunk, afterIdat_sinkDraws, iend_chunk_length, List.append_nil,
    foldl_tagIend, crc32_tagIend]
  rfl

/-- Settles O41: the compressor is called with the filtered frame, and the Write phase meets no rejection and no overflow. -/
theorem encodeProducesTheStream : Obligations.EncodeProducesTheStream := by
  refine ⟨by decide, rfl, fun s kind z h ha hw ht hk hz hcap h17 hroom haccept => ⟨encodeStream_length s z, ?_⟩⟩
  obtain ⟨raw, filt, hfilt, _, _, hrun⟩ := opEncode_compress h ha hw hk
  have hcall : opCmpCall (atCompressor raw filt s) = .ok (atWrite raw filt kind z s) := opCmpCall_ok hfilt hz hcap
  have hwrite : encodeWrite (atWrite raw filt kind z s) = .ok (afterIend z (atWrite raw filt kind z s)) :=
    encodeWrite_accept ht (atWrite_compHolds hcap) h17 hroom haccept
  rw [exec_encode, hrun, hcall, bind_ok, hwrite, bind_ok, outcome_ok, afterIend_eq]
  rfl

/-! ## A rejected write -/

theorem writesMade_of_room {s : State} {z : List Byte} (h17 : 17 ≤ s.accCapParam.toNat)
    (hroom : 4 + z.length ≤ s.accCapParam.toNat) : writesMade s z = 57 + z.length := by
  rw [writesMade, if_neg (by omega), if_neg (by omega)]

/-- ERR after a rejected write number `k`, by the writer state in which it is made (R285). -/
theorem errWord_writerAt (z : List Byte) (k : Nat) :
    errWord 4 5 0x31 (writerAt z k).code =
      if k < 8 then 0x00003154 else if k < 33 then 0x00013154
      else if k < 45 + z.length then 0x00023154 else 0x00033154 := by
  unfold writerAt
  split_ifs <;> rfl

/-- Settles O43: the Write phase stops at the rejected write, and error entry reads the writer state there. -/
theorem encodeStopsAtTheRejectedWrite : Obligations.EncodeStopsAtTheRejectedWrite := by
  intro s z k h ha hw ht hz hcap h17 hroom hk haccept hreject
  obtain ⟨raw, filt, kind, hrun⟩ := opEncode_compressed h ha hw hz hcap
  obtain ⟨u, hraise, ⟨hu⟩⟩ := encodeWrite_reject (s := atWrite raw filt kind z s) ht (atWrite_compHolds hcap) rfl
    (writesMade_of_room h17 hroom ▸ hk) haccept hreject
  have hexec : exec .encode s = .next (errorEntry .sinkRejected u) := by
    rw [exec_encode, hrun, hraise, bind_raise, outcome_raise]
  have herr : (errorEntry .sinkRejected u).errReg = errWord 4 5 0x31 (writerAt z k).code := by
    rw [errorEntry_errReg, hu]
    rfl
  refine ⟨_, hexec, ?_, ?_, rfl, rfl, ?_, released_release _, herr.trans (errWord_writerAt z k), ?_⟩ <;>
  · rw [hu]
    rfl

end Sys2Proof.Machine
end

section
/-! The statements of exceptions: error entry and the word of ERR, the writer's operations with one write rejected, and an
ENCODE whose configuration is not legal. -/

namespace Sys2Proof.Machine

/-! ## Error entry -/

/-- The word of ERR as the bitwise or of its fields, each shifted to its place (10 R26, 60 R290). -/
theorem errWord_eq_or (kind stage wst : BitVec 3) (cause : Byte) :
    errWord kind stage cause wst =
      kind.setWidth 32 ||| (stage.setWidth 32 <<< 4) ||| (cause.setWidth 32 <<< 8) ||| (wst.setWidth 32 <<< 16) := by
  have hfields : (errWord kind stage cause wst).setWidth 32 =
      wst.setWidth 32 <<< 16 ||| cause.setWidth 32 <<< 8 ||| stage.setWidth 32 <<< 4 ||| kind.setWidth 32 := by
    simp only [errWord, BitVec.setWidth_append_eq_shiftLeft_setWidth_or, BitVec.reduceSetWidth, BitVec.zero_shiftLeft,
      BitVec.or_zero, BitVec.zero_or, BitVec.shiftLeft_or_distrib, ← BitVec.shiftLeft_add]
  rw [← BitVec.setWidth_eq (errWord kind stage cause wst), hfields, BitVec.or_comm,
    BitVec.or_comm _ (stage.setWidth 32 <<< 4), BitVec.or_comm (wst.setWidth 32 <<< 16), ← BitVec.or_assoc,
    ← BitVec.or_assoc]

/-- Settles O28: the codes cause by cause, and error entry field by field with the word of ERR as R290 writes it. -/
theorem errorEntrySavesAndReleases : Obligations.ErrorEntrySavesAndReleases := by
  refine fun c s => ⟨by cases c <;> rfl, ?_⟩
  rw [← errWord_eq_or]
  rfl

/-! ## A rejected write of the writer's operations -/

/-- The state in which an operation begun in `s` that sends `bytes` meets the rejection of its write number `k`: the bytes
before it are in the sink, that byte too was offered. The mirror and the Checksum Engine's registers are left open. -/
structure RejectedAt (s : State) (bytes : List Byte) (k : Nat) (u : State) : Prop where
  frame : u = { s with
    sink := s.sink ++ bytes.take k
    offered := s.offered ++ bytes.take (k + 1)
    sinkDraws := s.sinkDraws.drop (k + 1)
    accIdx := u.accIdx, accbuf := u.accbuf
    tbl := u.tbl, tblValid := u.tblValid, crcAcc := u.crcAcc, crcOut := u.crcOut }

/-- `t` has the checksum registers and the table of `s`. -/
def KeepsChecksum (s t : State) : Prop :=
  t.crcAcc = s.crcAcc ∧ t.crcOut = s.crcOut ∧ t.tbl = s.tbl ∧ t.tblValid = s.tblValid

section
variable {s : State} {k : Nat}

/-- WR.SIG with write number `k` rejected: it does not mirror and takes no checksum (44 R222). -/
theorem exec_wrSig_reject (hk : k < Config.sig.length) (h : ∀ m < k, s.sinkDraws.answer m = .accept)
    (hr : s.sinkDraws.answer k = .reject) :
    ∃ u, exec .wrSig s = .next (errorEntry .sinkRejected u) ∧ RejectedAt s Config.sig k u ∧ KeepsChecksum s u := by
  refine ⟨sentThenOffered (Config.sig.take k) Config.sig[k] s, ?_, ⟨?_⟩, rfl, rfl, rfl, rfl⟩
  · rw [exec_wrSig, opWrSig, putRawSeq_reject hk h hr, bind_raise, outcome_raise]
  · rw [sentThenOffered_at hk]

/-- A chunk operation with write number `k` rejected, ACCBUF having room for what it mirrors before that write: the checksum
is taken only past the data (44 R218). -/
theorem exec_sendsChunk_reject {i : Instr} {tag data : List Byte} {cap : Word} (hi : sendsChunk s i tag data)
    (ht : s.tblOk) (hc : s.accCap = some cap) (hroom : 4 + data.length ≤ cap.toNat ∨ k ≤ 4 + cap.toNat)
    (hk : k < (chunk tag data).length) (h : ∀ m < k, s.sinkDraws.answer m = .accept)
    (hr : s.sinkDraws.answer k = .reject) :
    ∃ u, exec i s = .next (errorEntry .sinkRejected u) ∧ RejectedAt s (chunk tag data) k u ∧
      (k + 4 < (chunk tag data).length → KeepsChecksum s u) := by
  obtain ⟨⟨w, hexec⟩, htag⟩ := exec_of_sendsChunk hi
  obtain ⟨u, hraise, hu⟩ := writeChunk_reject ht hc (by rwa [htag]) hk h hr
  refine ⟨u, by rw [hexec, hraise, bind_raise, outcome_raise], ⟨?_⟩, fun hbody => ?_⟩
  · rw [hu]
  · rw [chunk_length] at hbody
    have hlt : k < 4 + (tag.length + data.length) := by omega
    simp only [hlt, if_true] at hu
    rw [hu]
    exact ⟨rfl, rfl, rfl, rfl⟩

end

theorem sendsChunk_ne_wrSig {s : State} {i : Instr} {tag data : List Byte} (h : sendsChunk s i tag data) :
    i ≠ .wrSig := by
  rcases h with ⟨rfl, _⟩ | ⟨rfl, _⟩ | ⟨rfl, _⟩ <;> decide

/-- Settles O38: error entry in the state of the rejection keeps what that state shares with the first and releases the rest. -/
theorem sinkRejectionKeepsAPrefix : Obligations.SinkRejectionKeepsAPrefix := by
  intro s i bytes k hi ht hk h hr
  have hreject : ∃ u, exec i s = .next (errorEntry .sinkRejected u) ∧ RejectedAt s bytes k u ∧
      (k + 4 < bytes.length ∨ i = .wrSig → KeepsChecksum s u) := by
    rcases hi with ⟨rfl, rfl⟩ | ⟨tag, data, cap, hi, rfl, hc, hroom⟩
    · obtain ⟨u, hexec, hu, hcrc⟩ := exec_wrSig_reject hk h hr
      exact ⟨u, hexec, hu, fun _ => hcrc⟩
    · obtain ⟨u, hexec, hu, hcrc⟩ := exec_sendsChunk_reject hi ht hc hroom hk h hr
      exact ⟨u, hexec, hu, fun hbody => hcrc (hbody.resolve_right (sendsChunk_ne_wrSig hi))⟩
  obtain ⟨u, hexec, ⟨hu⟩, hcrc⟩ := hreject
  refine ⟨errorEntry .sinkRejected u, hexec, ?_⟩
  rw [hu]
  exact ⟨rfl, rfl, rfl, rfl, rfl, rfl, rfl, rfl, released_release _, hcrc, rfl, rfl, rfl, rfl, rfl, rfl, rfl⟩

/-! ## An ENCODE whose configuration is not legal -/

theorem release_of_released {s : State} (h : released s) : release s = s := by
  cases s
  obtain ⟨rfl, rfl, rfl, rfl, rfl, rfl, rfl, rfl⟩ := h
  rfl

/-- Error entry in the Config phase of an ENCODE begun with the buffers released: DONE, STATUS.ERR, PHASE,
WSTATE and ERR change (60 R290, R291). -/
theorem errorEntry_config {s : State} (h : released s) (c : Cause) :
    errorEntry c (enterPhase .config (beginEncode s)) =
      { s with
        done := false, err := true, phase := .failed, wstate := .start
        errReg := errWord c.kind.code 1 c.code 0 } := by
  rw [← release_of_released h]
  rfl

/-- ERR for the first bad one of DEPTH, CMODE and FKIND, in the Config phase (60 R281, R282). -/
theorem errWord_configCause (s : State) :
    errWord (configCause s).kind.code 1 (configCause s).code 0 =
      if s.depth ≠ 8 ∧ s.depth ≠ 16 then 0x00000111
      else if s.cmode ≠ 2 ∧ s.cmode ≠ 6 then 0x00000211
      else 0x00000311 := by
  unfold configCause Config.cmodeRgb Config.cmodeRgba
  split_ifs <;> rfl

/-- Settles O44: CFG.CHK raises the first cause in the state in which ENCODE begins, and nothing after it runs. -/
theorem encodeReportsConfigurationErrors : Obligations.EncodeReportsConfigurationErrors := by
  intro s hs h
  rw [exec_encode, opEncode_config h, outcome_raise, errorEntry_config hs, errWord_configCause]

end Sys2Proof.Machine
end

section
/-! The statement of reset and hazards: what the sink holds after an ENCODE, whatever the draws. -/

namespace Sys2Proof.Machine

/-- With too little room in ACCBUF the Write phase stops before the last byte of the stream. -/
theorem writesMade_lt_of_full {s : State} {z : List Byte}
    (hfull : s.accCapParam.toNat < 17 ∨ s.accCapParam.toNat < 4 + z.length) : writesMade s z < 57 + z.length := by
  unfold writesMade
  split_ifs <;> omega

/-- How the Write phase can end: with the whole stream sent, with no answer from the sink, or with an error raised before
the last byte. -/
theorem encodeWrite_cases {s : State} {z : List Byte} (ht : s.tblOk) (hz : s.compHolds z) (hw : s.wstate = .start) :
    encodeWrite s = .ok (afterIend z s) ∨
    encodeWrite s = .error (.fault .sinkNeverAnswers) ∨
    ∃ c n m w u, n < 57 + z.length ∧ encodeWrite s = raise c u ∧ StoppedAt s z n m w u := by
  rcases first_not_accepted s.sinkDraws (writesMade s z) with haccept | ⟨k, hk, haccept, hreject | hsilent⟩
  · by_cases hfull : s.accCapParam.toNat < 17 ∨ s.accCapParam.toNat < 4 + z.length
    · obtain ⟨u, hraise, hu, _⟩ := encodeWrite_full ht hz hfull haccept
      exact .inr (.inr ⟨_, _, _, _, u, writesMade_lt_of_full hfull, hraise, hu⟩)
    · rw [not_or, Nat.not_lt, Nat.not_lt] at hfull
      obtain ⟨h17, hroom⟩ := hfull
      rw [writesMade_of_room h17 hroom] at haccept
      exact .inl (encodeWrite_accept ht hz h17 hroom haccept)
  · obtain ⟨u, hraise, hu⟩ := encodeWrite_reject ht hz hw hk haccept hreject
    exact .inr (.inr ⟨_, _, _, _, u, Nat.lt_of_lt_of_le hk (writesMade_le s z), hraise, hu⟩)
  · exact .inr (.inl (encodeWrite_silent ht hz hk haccept hsilent))

/-- Fewer bytes than the success stream has are not all of it. -/
theorem take_encodeStream_ne {s : State} {z : List Byte} {n : Nat} (hn : n < 57 + z.length) :
    (encodeStream s z).take n ≠ encodeStream s z := by
  rw [Ne, List.take_eq_self_iff, encodeStream_length]
  omega

/-- Settles O47: where the compressor gave no bytes, ENCODE fails before the Write phase; where it did, the Write phase sent
the whole stream, or raised an error short of its end and ENCODE ends without DONE. -/
theorem encodeOutputIsAPrefixOfTheStream : Obligations.EncodeOutputIsAPrefixOfTheStream := by
  intro s t ht h
  rw [exec_encode] at h
  rcases opEncode_cases s with ⟨_, hc⟩ | ⟨_, _, hn⟩ | ⟨_, _, _, hu⟩ |
    ⟨_, _, _, kind, _, raw, filt, ⟨f, _, hf⟩ | ⟨_, hs⟩ | ⟨z, _, _, ho⟩ | ⟨z, hz, hcap, hrun⟩⟩
  · rw [hc] at h; cases h
    exact ⟨[], (List.append_nil _).symm, .inl ⟨rfl, rfl⟩⟩
  · rw [hn] at h; cases h
  · rw [hu] at h; cases h
  · rw [hf] at h; cases h
    exact ⟨[], (List.append_nil _).symm, .inl ⟨rfl, rfl⟩⟩
  · rw [hs] at h; cases h
  · rw [ho] at h; cases h
  · rw [hrun] at h
    rcases encodeWrite_cases (s := atWrite raw filt kind z s) ht (atWrite_compHolds hcap) rfl with
      hwrite | hsilent | ⟨c, n, m, w, u, hn, hraise, ⟨hu⟩⟩
    · rw [hwrite] at h; cases h
      refine ⟨encodeStream s z, ?_, .inr ⟨z, hz, List.prefix_rfl, iff_of_true rfl rfl⟩⟩
      rw [finishEncode_sink, afterIend_eq]
      rfl
    · rw [hsilent] at h; cases h
    · rw [hraise] at h; cases h
      have hdone : (errorEntry c u).done = false := by rw [errorEntry_done, hu]; rfl
      refine ⟨(encodeStream s z).take n, ?_, .inr ⟨z, hz, List.take_prefix _ _,
        iff_of_false (by rw [hdone]; decide) (take_encodeStream_ne hn)⟩⟩
      rw [errorEntry_sink, hu]
      rfl

end Sys2Proof.Machine
end
